-- ==== Sys2Proof/Word.lean ====
section
/-! DEFINITION. The octet, the 16-bit control word, and the plainest arithmetic on them.

Spec: `00_scope.md` R5 (an octet is 8 bits), R7 (bit 0 is the least significant bit; all quantities are
unsigned); `20_memory.md` R32 (the one quantity wider than an octet is the 16-bit modulo-128 control word). -/

namespace Sys2Proof

/-- An octet (R5, R7). -/
abbrev Byte := BitVec 8

/-- The 16-bit control word of a modulo-128 I or S frame (R32). -/
abbrev ControlWord := BitVec 16

/-- A Boolean used as a number is 1 for true and 0 for false (R7, notation table). -/
def boolNat (b : Bool) : Nat := if b then 1 else 0

end Sys2Proof
end

