-- ==== Sys2Proof/Syntax.lean ====
section
/-! DEFINITION. The value types the block's records hold (`10_state.md` R12, R13) and the instructions: one
constructor of `Instr` for every row of `spec/opcode_table.json`.

The table has four kinds of row. `operation`: the thirteen select codes of the `OP` register (R16).
`data-format`: the two octet formats of an address field (R52, R53). `control-field`: the nineteen frame
types (R123 to R141) and the twenty-three unassigned U patterns (R142). Notes entry 1 says what it means to
run a row that is no operation. -/

namespace Sys2Proof

/-! ## Value types (R12, R13) -/

/-- The modulo variant of an operation that touches a control field (R6, R17). -/
inductive Modulo where
  /-- modulo-8, the `MOD` bit 0 -/
  | m8
  /-- modulo-128, the `MOD` bit 1 -/
  | m128
  deriving DecidableEq, Repr, Inhabited

/-- A `CallSignSSID` (R12), raw or constructed: a string of octets and a number (D4). What makes it a valid
instance is `Station.Valid` in `Safety.lean`; the gate `CS.CREATE` is what checks it. -/
structure Station where
  callSign : List Byte
  ssid     : Nat
  deriving DecidableEq, Repr, Inhabited

/-- An `AddressField` (R13). -/
structure AddressField where
  station         : Station
  flagBit         : Bool
  continuationBit : Bool
  deriving DecidableEq, Repr, Inhabited

/-- An `AddressChain` (R13). The two fixed slots and the list give `n >= 2` by construction (D15). -/
structure AddressChain where
  destination : AddressField
  source      : AddressField
  digipeaters : List AddressField
  deriving DecidableEq, Repr, Inhabited

/-- The entries of a chain in transmission order (R13, R104). -/
def AddressChain.entries (c : AddressChain) : List AddressField :=
  c.destination :: c.source :: c.digipeaters

/-- The two values of `commandResponse` (R108). -/
inductive CommandResponse where
  | command
  | response
  deriving DecidableEq, Repr, Inhabited

/-- The derived values of a chain (R105, R106, R108). -/
structure Derived where
  destination     : Station
  source          : Station
  digipeaters     : List Station
  repeatedBy      : List Station
  commandResponse : CommandResponse
  deriving DecidableEq, Repr, Inhabited

/-- The S-frame functions (R13, R61). -/
inductive SFunction where
  | rr
  | rnr
  | rej
  | srej
  deriving DecidableEq, Repr, Inhabited

/-- The U-frame modifiers (R13, R60). -/
inductive UModifier where
  | sabm
  | sabme
  | disc
  | dm
  | ua
  | frmr
  | ui
  | xid
  | test
  deriving DecidableEq, Repr, Inhabited

/-- `FrameKind`: exactly one kind is active, and only its fields exist (R13, U7). Sequence numbers are
natural numbers, so that one out of range can be presented to an encode and refused (D4). -/
inductive FrameKind where
  | i (sendSeq recvSeq : Nat) (pollFinal : Bool)
  | s (function : SFunction) (recvSeq : Nat) (pollFinal : Bool)
  | u (modifier : UModifier) (pollFinal : Bool)
  deriving DecidableEq, Repr, Inhabited

/-- `Frame`: `payload` is every octet after the control field (R13, R162, D25). -/
structure Frame where
  addresses : AddressChain
  kind      : FrameKind
  payload   : List Byte
  deriving DecidableEq, Repr, Inhabited

/-- The input record `IREC`, a register image with one home for each operand the operations name (R11, R16,
R30: it is "read and written field by field, by name"). -/
structure IRec where
  /-- the raw `CallSignSSID` of `CS.CREATE`, `CS.ENCODE` and `AF.ENCODE` -/
  station         : Station
  /-- `AF.ENCODE`'s flag bit -/
  flagBit         : Bool
  /-- `AF.ENCODE`'s continuation bit -/
  continuationBit : Bool
  /-- the chain of `AC.ENCODE`, `AC.DERIVE` and `FRAME.ENCODE` -/
  addresses       : AddressChain
  /-- the frame kind of `CTL.ENCODE`, `PL.CHECK` and `FRAME.ENCODE` -/
  kind            : FrameKind
  /-- the payload of `FRAME.ENCODE` -/
  payload         : List Byte
  deriving DecidableEq, Repr, Inhabited

/-- The output record `OREC`: one record, by operation (R11, R16). -/
inductive ORec where
  /-- a `CallSignSSID`: `CS.CREATE`, `CS.DECODE` -/
  | station (v : Station)
  /-- an `AddressField`: `AF.DECODE` -/
  | field (f : AddressField)
  /-- an `AddressChain` with its derived values: `AC.DECODE` -/
  | chain (c : AddressChain) (d : Derived)
  /-- the derived values alone: `AC.DERIVE` -/
  | derived (d : Derived)
  /-- a `FrameKind`: `CTL.DECODE` -/
  | kind (k : FrameKind)
  /-- a `Frame` with its chain's derived values: `FRAME.DECODE` -/
  | frame (f : Frame) (d : Derived)
  /-- DESIGN CHOICE (notes entry 2): the 7-bit character of one `ADDR.CHAR` octet (R52) -/
  | charOctet (code : Nat)
  /-- DESIGN CHOICE (notes entry 2): the three fields of one `ADDR.SSID` octet (R53) -/
  | ssidOctet (flagBit : Bool) (ssid : Nat) (continuationBit : Bool)
  deriving DecidableEq, Repr, Inhabited

/-! ## The instructions: the rows of `spec/opcode_table.json` -/

/-- One constructor per row of the opcode table. The reserved bits of a format (`z`, `r`, `x`) are no
operands: a decoder ignores them and an encoder writes 0 (R63). -/
inductive Instr where
  -- the thirteen operations (R16)
  | csCreate
  | csDecode
  | csEncode
  | afDecode
  | afEncode
  | acDecode
  | acEncode
  | acDerive
  | ctlDecode
  | ctlEncode
  | plCheck
  | frameDecode
  | frameEncode
  -- the octets of an address field (R52, R53)
  | addrChar (code : Nat)
  | addrSsid (flagBit : Bool) (ssid : Nat) (continuationBit : Bool)
  -- I frames (R123, R124)
  | iM8 (sendSeq recvSeq : Nat) (pollFinal : Bool)
  | iM128 (sendSeq recvSeq : Nat) (pollFinal : Bool)
  -- S frames (R125 to R132)
  | rrM8 (recvSeq : Nat) (pollFinal : Bool)
  | rnrM8 (recvSeq : Nat) (pollFinal : Bool)
  | rejM8 (recvSeq : Nat) (pollFinal : Bool)
  | srejM8 (recvSeq : Nat) (pollFinal : Bool)
  | rrM128 (recvSeq : Nat) (pollFinal : Bool)
  | rnrM128 (recvSeq : Nat) (pollFinal : Bool)
  | rejM128 (recvSeq : Nat) (pollFinal : Bool)
  | srejM128 (recvSeq : Nat) (pollFinal : Bool)
  -- U frames (R133 to R141)
  | sabm (pollFinal : Bool)
  | sabme (pollFinal : Bool)
  | disc (pollFinal : Bool)
  | dm (pollFinal : Bool)
  | ua (pollFinal : Bool)
  | frmr (pollFinal : Bool)
  | ui (pollFinal : Bool)
  | xid (pollFinal : Bool)
  | test (pollFinal : Bool)
  -- the unassigned U patterns (R63, R142); bit 4 is not interpreted
  | unassigned04 (bit4 : Bool)
  | unassigned08 (bit4 : Bool)
  | unassigned20 (bit4 : Bool)
  | unassigned24 (bit4 : Bool)
  | unassigned28 (bit4 : Bool)
  | unassigned44 (bit4 : Bool)
  | unassigned48 (bit4 : Bool)
  | unassigned4C (bit4 : Bool)
  | unassigned64 (bit4 : Bool)
  | unassigned68 (bit4 : Bool)
  | unassigned80 (bit4 : Bool)
  | unassigned88 (bit4 : Bool)
  | unassigned8C (bit4 : Bool)
  | unassignedA0 (bit4 : Bool)
  | unassignedA4 (bit4 : Bool)
  | unassignedA8 (bit4 : Bool)
  | unassignedC0 (bit4 : Bool)
  | unassignedC4 (bit4 : Bool)
  | unassignedC8 (bit4 : Bool)
  | unassignedCC (bit4 : Bool)
  | unassignedE4 (bit4 : Bool)
  | unassignedE8 (bit4 : Bool)
  | unassignedEC (bit4 : Bool)
  deriving DecidableEq, Repr, Inhabited

end Sys2Proof
end

