-- ==== Sys2Proof/WellFormed.lean ====
section
/-! DEFINITION. Which instructions are encodings: each numeric field fits the field of its format. -/

namespace Sys2Proof

/-- A sequence number is 0 to 7 under modulo-8 and 0 to 127 under modulo-128 (R5, R13, R122). -/
def seqBound : Modulo → Nat
  | .m8 => 7
  | .m128 => 127

/-- An instruction is well formed when every numeric field fits its bit field (R52, R53, R64, R123 to R132).
A field that does not fit has no encoding: encoding never truncates (R65). -/
def Instr.wellFormed : Instr → Bool
  | .csCreate | .csDecode | .csEncode | .afDecode | .afEncode | .acDecode | .acEncode | .acDerive
  | .ctlDecode | .ctlEncode | .plCheck | .frameDecode | .frameEncode => true
  | .addrChar code => decide (code ≤ 127)
  | .addrSsid _ ssid _ => decide (ssid ≤ 15)
  | .iM8 ns nr _ => decide (ns ≤ seqBound .m8) && decide (nr ≤ seqBound .m8)
  | .iM128 ns nr _ => decide (ns ≤ seqBound .m128) && decide (nr ≤ seqBound .m128)
  | .rrM8 nr _ | .rnrM8 nr _ | .rejM8 nr _ | .srejM8 nr _ => decide (nr ≤ seqBound .m8)
  | .rrM128 nr _ | .rnrM128 nr _ | .rejM128 nr _ | .srejM128 nr _ => decide (nr ≤ seqBound .m128)
  | .sabm _ | .sabme _ | .disc _ | .dm _ | .ua _ | .frmr _ | .ui _ | .xid _ | .test _ => true
  | .unassigned04 _ | .unassigned08 _ | .unassigned20 _ | .unassigned24 _ | .unassigned28 _
  | .unassigned44 _ | .unassigned48 _ | .unassigned4C _ | .unassigned64 _ | .unassigned68 _
  | .unassigned80 _ | .unassigned88 _ | .unassigned8C _ | .unassignedA0 _ | .unassignedA4 _
  | .unassignedA8 _ | .unassignedC0 _ | .unassignedC4 _ | .unassignedC8 _ | .unassignedCC _
  | .unassignedE4 _ | .unassignedE8 _ | .unassignedEC _ => true

end Sys2Proof
end

