-- ==== Sys2Proof/Decode.lean ====
section
/-! DEFINITION. The decoder and the encoder of the opcode table's words.

The block has no instruction stream (R8), so a word's meaning depends on where it stands: in the `OP`
register, at the start of a control field under one of the two modulos, or at one of the two kinds of place in
an address field. `Space` names the places. Inside a space the decoder is total and follows the `match` and
`mask` columns of `spec/opcode_table.json`; the bit positions are those of `30_encoding.md` R51 to R61. The
codec the operations run (`Machine/CallSign.lean`, `Machine/Address.lean`, `Machine/Control.lean`) is written
apart from this file, from the masks and shifts of the operation rules; that the two agree is stated in the
obligations. -/

namespace Sys2Proof

/-- Where a word stands, which is what gives it a meaning. -/
inductive Space where
  /-- the `OP` register: 4 bits, here as the low half of an octet (R16) -/
  | op
  /-- the control field, under a modulo (R54, R62) -/
  | control (m : Modulo)
  /-- one of the octets `a[0]` to `a[5]` of an address field (R51, R52) -/
  | addrChar
  /-- the octet `a[6]` of an address field (R51, R53) -/
  | addrSsid
  deriving DecidableEq, Repr

/-- Why the decoder gives no instruction. -/
inductive DecodeReject where
  /-- no octet is there -/
  | noOctet
  /-- a modulo-128 I or S control field with only its first octet (R187) -/
  | secondOctetMissing
  /-- an `OP` code that selects nothing: 0x0, 0xE, 0xF (R16, U9) -/
  | unassignedOp (code : BitVec 4)
  /-- an octet whose bits 7:4 are not 0, which is no `OP` code (R16: the code is 4 bits) -/
  | notAnOpCode (octet : Byte)
  /-- no row of the control table matches the octet; no octet does this (R54, R60, R63) -/
  | noRow (octet : Byte)
  deriving DecidableEq, Repr

/-- Bits `lo` to `lo + n - 1` of an octet as a number (R7). -/
def octetField (b : Byte) (lo n : Nat) : Nat := (b.extractLsb' lo n).toNat

/-- The operation an `OP` code selects (R16's table). -/
def selectOp (code : BitVec 4) : Except DecodeReject Instr :=
  match code.toNat with
  | 0x1 => .ok .csCreate
  | 0x2 => .ok .csDecode
  | 0x3 => .ok .csEncode
  | 0x4 => .ok .afDecode
  | 0x5 => .ok .afEncode
  | 0x6 => .ok .acDecode
  | 0x7 => .ok .acEncode
  | 0x8 => .ok .acDerive
  | 0x9 => .ok .ctlDecode
  | 0xA => .ok .ctlEncode
  | 0xB => .ok .plCheck
  | 0xC => .ok .frameDecode
  | 0xD => .ok .frameEncode
  | _ => .error (.unassignedOp code)

/-- A row of the control-field table: the first octet's mask and match, how many octets the row takes, and
the instruction its octets stand for. -/
structure ControlRow where
  mask    : Byte
  pattern : Byte
  octets  : Nat
  build   : Byte → Byte → Instr

/-- The rows of the U format: mask 0xEF, match = modifier pattern with bits 1:0 set, the same under both
modulos (R59, R60, R63, R147). -/
def uRows : List ControlRow :=
  let row (pattern : Byte) (mk : Bool → Instr) : ControlRow :=
    { mask := 0xEF, pattern := pattern, octets := 1, build := fun c0 _ => mk (c0.getLsbD 4) }
  [ row 0x2F .sabm, row 0x6F .sabme, row 0x43 .disc, row 0x0F .dm, row 0x63 .ua, row 0x87 .frmr,
    row 0x03 .ui, row 0xAF .xid, row 0xE3 .test ] ++
  [ row 0x07 .unassigned04, row 0x0B .unassigned08, row 0x23 .unassigned20, row 0x27 .unassigned24,
    row 0x2B .unassigned28, row 0x47 .unassigned44, row 0x4B .unassigned48, row 0x4F .unassigned4C,
    row 0x67 .unassigned64, row 0x6B .unassigned68, row 0x83 .unassigned80, row 0x8B .unassigned88 ] ++
  [ row 0x8F .unassigned8C, row 0xA3 .unassignedA0, row 0xA7 .unassignedA4, row 0xAB .unassignedA8,
    row 0xC3 .unassignedC0, row 0xC7 .unassignedC4, row 0xCB .unassignedC8, row 0xCF .unassignedCC,
    row 0xE7 .unassignedE4, row 0xEB .unassignedE8, row 0xEF .unassignedEC ]

/-- The I and S rows of a modulo (R55 to R58, R123 to R132). A modulo-128 row's mask and match lie in the
low octet, which is the first one (R32). -/
def isRows : Modulo → List ControlRow
  | .m8 =>
    let sRow (pattern : Byte) (mk : Nat → Bool → Instr) : ControlRow :=
      { mask := 0x0F, pattern := pattern, octets := 1,
        build := fun c0 _ => mk (octetField c0 5 3) (c0.getLsbD 4) }
    [ { mask := 0x01, pattern := 0x00, octets := 1,
        build := fun c0 _ => .iM8 (octetField c0 1 3) (octetField c0 5 3) (c0.getLsbD 4) },
      sRow 0x01 .rrM8, sRow 0x05 .rnrM8, sRow 0x09 .rejM8, sRow 0x0D .srejM8 ]
  | .m128 =>
    let sRow (pattern : Byte) (mk : Nat → Bool → Instr) : ControlRow :=
      { mask := 0x0F, pattern := pattern, octets := 2,
        build := fun _ c1 => mk (octetField c1 1 7) (c1.getLsbD 0) }
    [ { mask := 0x01, pattern := 0x00, octets := 2,
        build := fun c0 c1 => .iM128 (octetField c0 1 7) (octetField c1 1 7) (c1.getLsbD 0) },
      sRow 0x01 .rrM128, sRow 0x05 .rnrM128, sRow 0x09 .rejM128, sRow 0x0D .srejM128 ]

/-- The control-field rows under a modulo. -/
def controlRows (m : Modulo) : List ControlRow := isRows m ++ uRows

/-- The row of the control-field table that an octet matches. -/
def controlRowOf (m : Modulo) (c0 : Byte) : Option ControlRow :=
  (controlRows m).find? (fun r => c0 &&& r.mask == r.pattern)

/-- Decode one control field (R54, R62): the row comes from the first octet alone. -/
def decodeControl (m : Modulo) (bs : List Byte) : Except DecodeReject (Instr × List Byte) :=
  match bs with
  | [] => .error .noOctet
  | c0 :: rest =>
    match controlRowOf m c0 with
    | none => .error (.noRow c0)
    | some r =>
      match r.octets, rest with
      | 2, [] => .error .secondOctetMissing
      | 2, c1 :: rest' => .ok (r.build c0 c1, rest')
      | _, _ => .ok (r.build c0 0, rest)

/-- The decoder: the instruction at the head of the octets of a space, with the octets after it, or the
reason why there is none. -/
def decode (sp : Space) (bs : List Byte) : Except DecodeReject (Instr × List Byte) :=
  match sp with
  | .control m => decodeControl m bs
  | .op =>
    match bs with
    | [] => .error .noOctet
    | b :: rest =>
      if octetField b 4 4 = 0 then
        match selectOp (b.setWidth 4) with
        | .ok i => .ok (i, rest)
        | .error e => .error e
      else .error (.notAnOpCode b)
  | .addrChar =>
    match bs with
    | [] => .error .noOctet
    | b :: rest => .ok (.addrChar (octetField b 1 7), rest)
  | .addrSsid =>
    match bs with
    | [] => .error .noOctet
    | b :: rest => .ok (.addrSsid (b.getLsbD 7) (octetField b 1 4) (b.getLsbD 0), rest)

/-! ## The encoder -/

/-- The select code of an operation (R16's table); the other rows have none. -/
def Instr.opCode : Instr → Option (BitVec 4)
  | .csCreate => some 0x1
  | .csDecode => some 0x2
  | .csEncode => some 0x3
  | .afDecode => some 0x4
  | .afEncode => some 0x5
  | .acDecode => some 0x6
  | .acEncode => some 0x7
  | .acDerive => some 0x8
  | .ctlDecode => some 0x9
  | .ctlEncode => some 0xA
  | .plCheck => some 0xB
  | .frameDecode => some 0xC
  | .frameEncode => some 0xD
  | .addrChar _ | .addrSsid _ _ _ => none
  | .iM8 _ _ _ | .rrM8 _ _ | .rnrM8 _ _ | .rejM8 _ _ | .srejM8 _ _ => none
  | .iM128 _ _ _ | .rrM128 _ _ | .rnrM128 _ _ | .rejM128 _ _ | .srejM128 _ _ => none
  | .sabm _ | .sabme _ | .disc _ | .dm _ | .ua _ | .frmr _ | .ui _ | .xid _ | .test _
  | .unassigned04 _ | .unassigned08 _ | .unassigned20 _ | .unassigned24 _ | .unassigned28 _
  | .unassigned44 _ | .unassigned48 _ | .unassigned4C _ | .unassigned64 _ | .unassigned68 _
  | .unassigned80 _ | .unassigned88 _ | .unassigned8C _ | .unassignedA0 _ | .unassignedA4 _
  | .unassignedA8 _ | .unassignedC0 _ | .unassignedC4 _ | .unassignedC8 _ | .unassignedCC _
  | .unassignedE4 _ | .unassignedE8 _ | .unassignedEC _ => none

/-- An S control field of modulo-8: `rrrp` above the low half (R57). -/
def encodeS8 (low nr : Nat) (p : Bool) : List Byte :=
  [BitVec.ofNat 8 (nr * 32 + boolNat p * 16 + low)]

/-- An S control field of modulo-128: the reserved bits are 0, and `rrrrrrrp` is the second octet (R58). -/
def encodeS128 (low nr : Nat) (p : Bool) : List Byte :=
  [BitVec.ofNat 8 low, BitVec.ofNat 8 (nr * 2 + boolNat p)]

/-- A U control field: the row's match with bit 4 added (R59, R60). -/
def encodeU (row : Nat) (p : Bool) : List Byte :=
  [BitVec.ofNat 8 (row + boolNat p * 16)]

/-- The octets of an instruction, from the table's `encoding` column. Reserved bits are written 0 (R63). -/
def encode : Instr → List Byte
  | .csCreate => [0x01]
  | .csDecode => [0x02]
  | .csEncode => [0x03]
  | .afDecode => [0x04]
  | .afEncode => [0x05]
  | .acDecode => [0x06]
  | .acEncode => [0x07]
  | .acDerive => [0x08]
  | .ctlDecode => [0x09]
  | .ctlEncode => [0x0A]
  | .plCheck => [0x0B]
  | .frameDecode => [0x0C]
  | .frameEncode => [0x0D]
  | .addrChar code => [BitVec.ofNat 8 (code * 2)]
  | .addrSsid f ssid e => [BitVec.ofNat 8 (boolNat f * 128 + ssid * 2 + boolNat e)]
  | .iM8 ns nr p => [BitVec.ofNat 8 (nr * 32 + boolNat p * 16 + ns * 2)]
  | .iM128 ns nr p => [BitVec.ofNat 8 (ns * 2), BitVec.ofNat 8 (nr * 2 + boolNat p)]
  | .rrM8 nr p => encodeS8 0x1 nr p
  | .rnrM8 nr p => encodeS8 0x5 nr p
  | .rejM8 nr p => encodeS8 0x9 nr p
  | .srejM8 nr p => encodeS8 0xD nr p
  | .rrM128 nr p => encodeS128 0x1 nr p
  | .rnrM128 nr p => encodeS128 0x5 nr p
  | .rejM128 nr p => encodeS128 0x9 nr p
  | .srejM128 nr p => encodeS128 0xD nr p
  | .sabm p => encodeU 0x2F p
  | .sabme p => encodeU 0x6F p
  | .disc p => encodeU 0x43 p
  | .dm p => encodeU 0x0F p
  | .ua p => encodeU 0x63 p
  | .frmr p => encodeU 0x87 p
  | .ui p => encodeU 0x03 p
  | .xid p => encodeU 0xAF p
  | .test p => encodeU 0xE3 p
  | .unassigned04 p => encodeU 0x07 p
  | .unassigned08 p => encodeU 0x0B p
  | .unassigned20 p => encodeU 0x23 p
  | .unassigned24 p => encodeU 0x27 p
  | .unassigned28 p => encodeU 0x2B p
  | .unassigned44 p => encodeU 0x47 p
  | .unassigned48 p => encodeU 0x4B p
  | .unassigned4C p => encodeU 0x4F p
  | .unassigned64 p => encodeU 0x67 p
  | .unassigned68 p => encodeU 0x6B p
  | .unassigned80 p => encodeU 0x83 p
  | .unassigned88 p => encodeU 0x8B p
  | .unassigned8C p => encodeU 0x8F p
  | .unassignedA0 p => encodeU 0xA3 p
  | .unassignedA4 p => encodeU 0xA7 p
  | .unassignedA8 p => encodeU 0xAB p
  | .unassignedC0 p => encodeU 0xC3 p
  | .unassignedC4 p => encodeU 0xC7 p
  | .unassignedC8 p => encodeU 0xCB p
  | .unassignedCC p => encodeU 0xCF p
  | .unassignedE4 p => encodeU 0xE7 p
  | .unassignedE8 p => encodeU 0xEB p
  | .unassignedEC p => encodeU 0xEF p

/-- The spaces in which an instruction's octets stand. A U control field has the same octet under both
modulos (R144). -/
def Instr.spaces (i : Instr) : List Space :=
  match i with
  | .csCreate | .csDecode | .csEncode | .afDecode | .afEncode | .acDecode | .acEncode | .acDerive
  | .ctlDecode | .ctlEncode | .plCheck | .frameDecode | .frameEncode => [.op]
  | .addrChar _ => [.addrChar]
  | .addrSsid _ _ _ => [.addrSsid]
  | .iM8 _ _ _ | .rrM8 _ _ | .rnrM8 _ _ | .rejM8 _ _ | .srejM8 _ _ => [.control .m8]
  | .iM128 _ _ _ | .rrM128 _ _ | .rnrM128 _ _ | .rejM128 _ _ | .srejM128 _ _ => [.control .m128]
  | .sabm _ | .sabme _ | .disc _ | .dm _ | .ua _ | .frmr _ | .ui _ | .xid _ | .test _
  | .unassigned04 _ | .unassigned08 _ | .unassigned20 _ | .unassigned24 _ | .unassigned28 _
  | .unassigned44 _ | .unassigned48 _ | .unassigned4C _ | .unassigned64 _ | .unassigned68 _
  | .unassigned80 _ | .unassigned88 _ | .unassigned8C _ | .unassignedA0 _ | .unassignedA4 _
  | .unassignedA8 _ | .unassignedC0 _ | .unassignedC4 _ | .unassignedC8 _ | .unassignedCC _
  | .unassignedE4 _ | .unassignedE8 _ | .unassignedEC _ => [.control .m8, .control .m128]

/-! ## The host's word -/

/-- The instruction the decoder reads from a table word (notes entry 8). A word of one octet is an `OP` code
where the decoder takes it for one, since `OP` is what selects what the block does; otherwise it is a
modulo-8 control octet. A word of two octets is a modulo-128 control field, low octet first (R32). -/
def decodeTableWord (nbits w : Nat) : Option Instr :=
  let c0 : Byte := BitVec.ofNat 8 w
  let c1 : Byte := BitVec.ofNat 8 (w / 256)
  if nbits ≤ 8 then
    match decode .op [c0] with
    | .ok (i, _) => some i
    | .error _ =>
      match decode (.control .m8) [c0] with
      | .ok (i, _) => some i
      | .error _ => none
  else
    match decode (.control .m128) [c0, c1] with
    | .ok (i, _) => some i
    | .error _ => none

end Sys2Proof
end

