-- ==== Sys2Proof/Config.lean ====
section
/-! DEFINITION. What an implementation of the block fixes (`00_scope.md` section 4, decisions D4 and D5), what
an unlisted octet of a buffer reads as, and the free values (`93_implementation_defined.md` U6, R210). -/

namespace Sys2Proof

/-- A number that is at least `k`: the value of a parameter that R6's table bounds from below. -/
abbrev Config.AtLeast (k : Nat) := { n : Nat // k ≤ n }

/-- The parameters the spec leaves open (`00_scope.md` section 4). `none` is the spec's default: unbounded,
"a finite list of any length" (D5), "a natural number", "any finite list" (D4). -/
structure Config.Limits where
  /-- `MAX_FRAME_OCTETS`: the largest input or output buffer (D5) -/
  maxFrameOctets : Option Nat
  /-- `MAX_ADDR_ENTRIES`: the largest number of address-chain entries (D5) -/
  maxAddrEntries : Option Nat
  /-- `CALL_IN_MAX`: the longest callsign string that can be presented, at least 7 (D4, R6) -/
  callInMax      : Option (Config.AtLeast 7)
  /-- `SSID_IN_BITS`: the width of an SSID operand, at least 5 (D4, R6) -/
  ssidInBits     : Option (Config.AtLeast 5)
  /-- `SEQ_IN_BITS`: the width of a sequence-number operand of an encode, at least 8 (D4, R6) -/
  seqInBits      : Option (Config.AtLeast 8)
  deriving DecidableEq, Repr

/-- `CALL_IN_MAX` as a plain bound. -/
def Config.Limits.callBound (lim : Config.Limits) : Option Nat := lim.callInMax.map (·.val)

/-- `SSID_IN_BITS` as a plain width. -/
def Config.Limits.ssidWidth (lim : Config.Limits) : Option Nat := lim.ssidInBits.map (·.val)

/-- `SEQ_IN_BITS` as a plain width. -/
def Config.Limits.seqWidth (lim : Config.Limits) : Option Nat := lim.seqInBits.map (·.val)

/-- The model's own parameters: the spec's defaults (D4, D5; notes entry 11). -/
def Config.limits : Config.Limits :=
  { maxFrameOctets := none, maxAddrEntries := none, callInMax := none, ssidInBits := none, seqInBits := none }

/-- What an octet of a buffer that nothing has written reads as. DESIGN CHOICE (notes entry 5), unsafe: R20
leaves the buffers unspecified after reset. -/
def Config.unlistedOctet : Byte := 0#8

/-! ## Free values

Opaque: nothing can be proved about them but their type. Each is applied to the model's own counter
`State.freeCount`, so each use is a fresh value (notes entry 3). -/

/-- `OREC` after an operation that ended in an error (R196, U6). -/
opaque Config.freeORec : Nat → ORec
/-- The octets of `OBUF` after an operation that ended in an error (R196, U6). -/
opaque Config.freeOctets : Nat → List Byte
/-- `OLEN` after an operation that ended in an error (R196, U6). -/
opaque Config.freeOLen : Nat → Nat
/-- `CONSUMED` after an operation that ended in an error (R196, U6). -/
opaque Config.freeConsumed : Nat → Nat
/-- `OP` after a reset by the host (R20, R210). -/
opaque Config.freeOp : Nat → BitVec 4
/-- `MOD` after a reset by the host (R20, R210). -/
opaque Config.freeModulo : Nat → Modulo
/-- The octets of `IBUF` after a reset by the host (R20, R210). -/
opaque Config.freeInput : Nat → List Byte
/-- `ILEN` after a reset by the host (R20, R210). -/
opaque Config.freeILen : Nat → Nat
/-- `IREC` after a reset by the host (R20, R210). -/
opaque Config.freeIRec : Nat → IRec

end Sys2Proof
end

