-- ==== Sys2Proof/Machine/State.lean ====
section
/-! DEFINITION. The block's state: the interface registers of `10_state.md` R11, the two octet buffers of R18,
what the host has written of the operands (R212), and one counter of the model's own. `STATUS`'s values (R15, R180), the reasons a step can stop, and the state
after reset (R20, R210). -/

namespace Sys2Proof.Machine

/-- The fourteen typed errors (R180). -/
inductive Err where
  | ssidOutOfRange
  | callSignTooLong
  | invalidCharacters
  | wrongFieldLength
  | truncatedAddressChain
  | addressChainTooShort
  | shortControlField
  /-- kept because D00 names it; no operation returns it (R143, R188) -/
  | unknownFunction
  | unknownModifier
  | missingProtocolId
  | invalidFrmrLength
  | unexpectedTrailingData
  | frameTooShort
  | sequenceNumberOutOfRange
  deriving DecidableEq, Repr, Inhabited

/-- What `STATUS` holds: `OK`, `IDLE`, or one error (R15, R20, R180). Its numeric codes are
`Status.code`. -/
inductive Status where
  | ok
  | idle
  | error (e : Err)
  deriving DecidableEq, Repr, Inhabited

/-- An octet buffer: its listed octets by offset, in one canonical form (`Memory.wf`). An offset that is not
listed reads as `Config.unlistedOctet`. The buffer's length is a register of its own (R11, R18). -/
abbrev Memory := List Host.Cell

/-- The operands an operation can name (R11, R16): the operand registers, `IREC` by its homes. `ibuf` is `IBUF`
with its length `ILEN`. -/
inductive Operand where
  | op
  | mod
  | ibuf
  | station
  | flagBit
  | continuationBit
  | addresses
  | kind
  | payload
  deriving DecidableEq, Repr, Inhabited

/-- Which operands the host has written since reset (R212, U14). The model's own record of the host's duty: the
block has no such register, and no operation reads or writes it (notes entry 7). `operandsWritten` says from it
which runs are within that duty. -/
structure Written where
  op              : Bool
  mod             : Bool
  ibuf            : Bool
  station         : Bool
  flagBit         : Bool
  continuationBit : Bool
  addresses       : Bool
  kind            : Bool
  payload         : Bool
  deriving DecidableEq, Repr, Inhabited

/-- Nothing is written: the operands after reset (R20). -/
def Written.nothing : Written := ⟨false, false, false, false, false, false, false, false, false⟩

/-- Everything is written. -/
def Written.everything : Written := ⟨true, true, true, true, true, true, true, true, true⟩

/-- The state (R11, R18). R19: there is no hidden state. `written` and `freeCount` are the model's own fields,
not the spec's: one says whether a run is within the host's duty (R212, notes entry 7), the other numbers the free values
(notes entry 3), and no operation's result depends on either. -/
structure State where
  /-- `OP`: the operation select, 4 bits (R16) -/
  op : BitVec 4
  /-- `MOD`: the modulo variant, 1 bit (R17) -/
  mod : Modulo
  /-- `IBUF`: the input octet buffer (R18) -/
  ibuf : Memory
  /-- `ILEN`: the length of the input buffer (R18) -/
  ilen : Nat
  /-- `IREC`: the input record (R11, R16) -/
  irec : IRec
  /-- `STATUS` (R15) -/
  status : Status
  /-- `OREC`: the output record (R11, R16) -/
  orec : ORec
  /-- `OBUF`: the output octet buffer (R18) -/
  obuf : Memory
  /-- `OLEN`: the length of the output buffer (R18) -/
  olen : Nat
  /-- `CONSUMED`: the input octets an operation consumed (R11, R14) -/
  consumed : Nat
  /-- the model's own record of the operands the host has written -/
  written : Written
  /-- the model's own counter of free values -/
  freeCount : Nat
  deriving DecidableEq, Repr

/-- The faults of a step. The spec has none: "Nothing in this block is `stuck`: every operation terminates"
(`93_implementation_defined.md`). -/
inductive Fault where
  /-- What R8 and R165 rule out. Raised by nothing; that no step faults is an obligation. Safe: a fault stops
  the model, and there is none. -/
  | stuck
  deriving DecidableEq, Repr

/-- The refusals of a step. -/
inductive Refusal where
  /-- `exec` has no meaning for the row yet. Raised by no arm. Safe. -/
  | notModelled (mnemonic : String)
  /-- `step`, when `OP` holds 0x0, 0xE or 0xF: "`refuse`: no operation is selected, the model gives the run no
  meaning" (U9). Safe. -/
  | unassignedOp (code : BitVec 4)
  /-- `stepWith`, when an operand or a result is beyond a finite parameter of the implementation: "such a frame
  cannot be presented" (U11, D4, D5). Never raised under the default parameters. Safe. -/
  | notPresentable
  deriving DecidableEq, Repr

/-- The state after reset (R20, R210): `STATUS` is `IDLE`. The spec leaves every other register and buffer
unspecified; their values here are DESIGN CHOICE (notes entry 4), unsafe. -/
def State.reset : State :=
  { op := 0
    mod := .m8
    ibuf := []
    ilen := 0
    irec :=
      { station := ⟨[], 0⟩, flagBit := false, continuationBit := false,
        addresses := ⟨⟨⟨[], 0⟩, false, false⟩, ⟨⟨[], 0⟩, false, false⟩, []⟩,
        kind := .i 0 0 false, payload := [] }
    status := .idle
    orec := .station ⟨[], 0⟩
    obuf := []
    olen := 0
    consumed := 0
    written := Written.nothing
    freeCount := 0 }

end Sys2Proof.Machine
end

