-- ==== Sys2Proof/Machine/Flags.lean ====
section
/-! DEFINITION. The block's status codes and flag bits. There are no condition codes (R15): the flag,
continuation and poll/final bits are data. -/

namespace Sys2Proof.Machine

/-- The numeric code of an error (R180). -/
def Err.code : Err → BitVec 8
  | .ssidOutOfRange => 0x01
  | .callSignTooLong => 0x02
  | .invalidCharacters => 0x03
  | .wrongFieldLength => 0x04
  | .truncatedAddressChain => 0x05
  | .addressChainTooShort => 0x06
  | .shortControlField => 0x07
  | .unknownFunction => 0x08
  | .unknownModifier => 0x09
  | .missingProtocolId => 0x0A
  | .invalidFrmrLength => 0x0B
  | .unexpectedTrailingData => 0x0C
  | .frameTooShort => 0x0D
  | .sequenceNumberOutOfRange => 0x0E

/-- The number the host reads in `STATUS` (R20, R180). -/
def Status.code : Status → BitVec 8
  | .ok => 0x00
  | .idle => 0xFF
  | .error e => e.code

/-- The `MOD` register's bit: 0 is `M8`, 1 is `M128` (R17). -/
def modBit : Modulo → BitVec 1
  | .m8 => 0
  | .m128 => 1

/-- A bit as an octet, 0 or 1 (R7). -/
def bitOctet (b : Bool) : Byte := if b then 1 else 0

/-- `flagBit` of an SSID octet: bit 7 (R53, R100). -/
def flagBitOf (a6 : Byte) : Bool := a6 &&& 0b1000_0000#8 != 0

/-- `continuationBit` of an SSID octet: bit 0 (R53, R100). -/
def continuationBitOf (a6 : Byte) : Bool := a6 &&& 0b0000_0001#8 != 0

/-- The SSID of an SSID octet: bits 4:1 (R53, R83). -/
def ssidOf (a6 : Byte) : Byte := (a6 &&& 0b0001_1110#8) >>> 1

/-- The 7-bit character of a character octet: bit 0 is dropped (R52, R83). -/
def charOf (a : Byte) : Byte := a >>> 1

/-- The poll/final bit of a one-octet control field: bit 4 (R55, R57, R59). -/
def pollFinalOf (c0 : Byte) : Bool := c0 &&& 0b0001_0000#8 != 0

/-- Command or Response, from the two flag bits (R108's table). -/
def commandResponseOf (destinationFlag sourceFlag : Bool) : CommandResponse :=
  match destinationFlag, sourceFlag with
  | false, false => .response
  | false, true => .response
  | true, false => .command
  | true, true => .command

end Sys2Proof.Machine
end

