-- ==== Sys2Proof/Machine/Ops.lean ====
section
/-! DEFINITION. The named operations over the two buffers and the result registers: reading and writing
octets, `emit`, ending an operation with a result, and ending it with an error (`raise`, the block's one form
of exception). -/

namespace Sys2Proof.Machine

/-! ## Octet buffers (`20_memory.md`) -/

/-- Read one octet of a buffer (R30: the octet is the addressable unit). -/
def Memory.read : Memory → Nat → Byte
  | [], _ => Config.unlistedOctet
  | (a, b) :: m, x => if x = a then b else Memory.read m x

/-- Write one octet, keeping the canonical form: offsets strictly rising, no octet listed that equals what an
unlisted one reads as. -/
def Memory.write : Memory → Nat → Byte → Memory
  | [], x, v => if v = Config.unlistedOctet then [] else [(x, v)]
  | (a, b) :: m, x, v =>
    if x < a then (if v = Config.unlistedOctet then (a, b) :: m else (x, v) :: (a, b) :: m)
    else if x = a then (if v = Config.unlistedOctet then m else (x, v) :: m)
    else (a, b) :: Memory.write m x v

/-- The canonical form of a buffer whose offsets are all at least `lo`. -/
def Memory.wfFrom (lo : Nat) : Memory → Bool
  | [] => true
  | (a, b) :: m => decide (lo ≤ a) && decide (b ≠ Config.unlistedOctet) && Memory.wfFrom (a + 1) m

/-- The canonical form of a buffer. -/
def Memory.wf (m : Memory) : Bool := Memory.wfFrom 0 m

/-- `MemRead(base, n)` (R7): `n` octets from offset `base`, in increasing order. -/
def Memory.octets (m : Memory) (base : Nat) : Nat → List Byte
  | 0 => []
  | n + 1 => Memory.read m base :: Memory.octets m (base + 1) n

/-- `MemWrite(base, n, v)` (R7): store the octets `v` from offset `base` upward. -/
def Memory.writeOctets (m : Memory) (base : Nat) : List Byte → Memory
  | [] => m
  | b :: bs => Memory.writeOctets (Memory.write m base b) (base + 1) bs

/-! ## The output buffer (R45) -/

/-- An encode starts at offset 0 (R45). The octets of an earlier output stay where no octet is stored
(notes entry 12). -/
def beginOutput (s : State) : State := { s with olen := 0 }

/-- `emit(v)`: store at the current `OLEN`, then advance it (R7, R45). -/
def emit (v : List Byte) (s : State) : State :=
  { s with obuf := Memory.writeOctets s.obuf s.olen v, olen := s.olen + v.length }

/-! ## Ending an operation -/

/-- `return`: `STATUS <- OK` (R7, R15). -/
def succeed (s : State) : State := { s with status := .ok }

/-- `raise <Error>` (R7, R195, R196): `STATUS` takes the error, the operands are untouched, and the four
result registers hold any value (U6), each a free value. Taking an error saves nothing, changes no mode and
goes nowhere; there is no return from it (R198). -/
def raise (e : Err) (s : State) : State :=
  { s with
    status := .error e
    orec := Config.freeORec s.freeCount
    obuf := Memory.writeOctets [] 0 (Config.freeOctets s.freeCount)
    olen := Config.freeOLen s.freeCount
    consumed := Config.freeConsumed s.freeCount
    freeCount := s.freeCount + 1 }

/-- Deliver an output record. The registers the operation does not write keep their values (R11; notes
entry 6). -/
def deliverRecord (r : ORec) (s : State) : State := succeed { s with orec := r }

/-- Deliver an output record and the number of octets consumed (R14: `AC.DECODE` and `CTL.DECODE`). -/
def deliverConsumed (r : ORec) (n : Nat) (s : State) : State := succeed { s with orec := r, consumed := n }

/-- Deliver octets in the output buffer (R45). -/
def deliverOctets (v : List Byte) (s : State) : State := succeed (emit v (beginOutput s))

/-- End an operation: its complete result with `STATUS = OK`, or one error and nothing else (R38). -/
def finish {α : Type} (r : Except Err α) (deliver : α → State → State) (s : State) :
    Host.Outcome State Fault Refusal :=
  match r with
  | .ok v => .next (deliver v s)
  | .error e => .next (raise e s)

end Sys2Proof.Machine
end

