-- ==== Sys2Proof/Machine/Operands.lean ====
section
/-! DEFINITION. The operand forms (R16): the input buffer read as octets, the frame operand of the input
record, the operands each operation reads and whether the host has written them (R212), and whether an operand can be presented to an implementation with finite parameters (D4, D5, U11). -/

namespace Sys2Proof.Machine

/-- `IBUF[0 .. ILEN)`: the input octets, one snapshot for the whole operation (R18, R33). -/
def inputOctets (s : State) : List Byte := Memory.octets s.ibuf 0 s.ilen

/-- `OBUF[0 .. OLEN)`: the output octets, as the host reads them after a successful encode (R18, R45). -/
def outputOctets (s : State) : List Byte := Memory.octets s.obuf 0 s.olen

/-- The raw `Frame` operand of `FRAME.ENCODE` (R164). -/
def frameOperand (s : State) : Frame :=
  { addresses := s.irec.addresses, kind := s.irec.kind, payload := s.irec.payload }

/-! ## Written operands (R16, R212, U14) -/

/-- The operands an operation reads beside `OP`: the operands column of R16's table. A row that is no operation
reads none. -/
def operandsOf : Instr → List Operand
  | .csCreate | .csEncode => [.station]
  | .csDecode | .afDecode | .acDecode => [.ibuf]
  | .afEncode => [.station, .flagBit, .continuationBit]
  | .acEncode | .acDerive => [.addresses]
  | .ctlDecode => [.ibuf, .mod]
  | .ctlEncode => [.kind, .mod]
  | .plCheck => [.kind, .ibuf]
  | .frameDecode => [.ibuf, .mod]
  | .frameEncode => [.addresses, .kind, .payload, .mod]
  | _ => []

/-- The host has written an operand. -/
def Written.has (w : Written) : Operand → Bool
  | .op => w.op
  | .mod => w.mod
  | .ibuf => w.ibuf
  | .station => w.station
  | .flagBit => w.flagBit
  | .continuationBit => w.continuationBit
  | .addresses => w.addresses
  | .kind => w.kind
  | .payload => w.payload

/-- The host has done its duty for an operation (R212): it has written `OP` and every operand the operation reads.
The spec gives any other run no meaning (U14). DESIGN CHOICE (notes entry 7): such a run does not stop; the
operation runs on the values its operand registers hold. -/
def operandsWritten (i : Instr) (s : State) : Bool :=
  s.written.op && (operandsOf i).all (fun o => s.written.has o)

/-! ## Presentable operands and results (D4, D5, U11) -/

/-- A number is within an optional bound; no bound is the spec's default. -/
def withinBound (bound : Option Nat) (n : Nat) : Bool :=
  match bound with
  | none => true
  | some b => decide (n ≤ b)

/-- A number fits an optional width in bits. -/
def fitsBits (bits : Option Nat) (n : Nat) : Bool :=
  match bits with
  | none => true
  | some k => decide (n < 2 ^ k)

/-- A raw station fits `CALL_IN_MAX` and `SSID_IN_BITS` (D4). -/
def stationFits (lim : Config.Limits) (v : Station) : Bool :=
  withinBound lim.callBound v.callSign.length && fitsBits lim.ssidWidth v.ssid

/-- A raw chain fits `MAX_ADDR_ENTRIES`, and its stations fit (D4, D5). -/
def chainFits (lim : Config.Limits) (c : AddressChain) : Bool :=
  withinBound lim.maxAddrEntries c.entries.length && c.entries.all (fun f => stationFits lim f.station)

/-- A raw frame kind's sequence numbers fit `SEQ_IN_BITS` (D4). -/
def kindFits (lim : Config.Limits) : FrameKind → Bool
  | .i ns nr _ => fitsBits lim.seqWidth ns && fitsBits lim.seqWidth nr
  | .s _ nr _ => fitsBits lim.seqWidth nr
  | .u _ _ => true

/-- The operands an operation reads (R16) can be presented. -/
def presentable (lim : Config.Limits) (i : Instr) (s : State) : Bool :=
  match i with
  | .csCreate | .csEncode | .afEncode => stationFits lim s.irec.station
  | .csDecode | .afDecode | .acDecode | .ctlDecode | .frameDecode | .plCheck =>
    withinBound lim.maxFrameOctets s.ilen
  | .acEncode | .acDerive => chainFits lim s.irec.addresses
  | .ctlEncode => kindFits lim s.irec.kind
  | .frameEncode =>
    chainFits lim s.irec.addresses && kindFits lim s.irec.kind &&
      withinBound lim.maxFrameOctets s.irec.payload.length
  | _ => true

/-- The number of address entries in an output record. -/
def recordEntries : ORec → Nat
  | .chain c _ => c.entries.length
  | .frame f _ => f.addresses.entries.length
  | _ => 0

/-- The result an operation delivered can be held: the output buffer, and the chain of the output record. DESIGN
CHOICE (notes entry 11): only a successful result is held to the bounds. A decode whose buffer holds a chain of
more than `MAX_ADDR_ENTRIES` entries, and which ends in an error, delivers no chain and reports that error. -/
def resultFits (lim : Config.Limits) (i : Instr) (t : State) : Bool :=
  match t.status, i with
  | .ok, .csEncode | .ok, .afEncode | .ok, .acEncode | .ok, .ctlEncode | .ok, .plCheck | .ok, .frameEncode =>
    withinBound lim.maxFrameOctets t.olen
  | .ok, .acDecode | .ok, .frameDecode => withinBound lim.maxAddrEntries (recordEntries t.orec)
  | _, _ => true

end Sys2Proof.Machine
end

