-- ==== Sys2Proof/Machine/CallSign.lean ====
section
/-! DEFINITION. The `CallSignSSID` operations (`40_callsign.md`): `CS.CREATE`, `CS.DECODE`, `CS.ENCODE`. -/

namespace Sys2Proof.Machine

/-- `upcase(c)` (R81): ASCII letters only (D6). -/
def upcase (c : Byte) : Byte := if 0x61#8 ≤ c ∧ c ≤ 0x7A#8 then c - 0x20#8 else c

/-- `legal(c)` (R82): `A` to `Z` and `0` to `9`. -/
def legal (c : Byte) : Bool :=
  (decide (0x41#8 ≤ c) && decide (c ≤ 0x5A#8)) || (decide (0x30#8 ≤ c) && decide (c ≤ 0x39#8))

/-- The pad character, a space (R52). -/
def padChar : Byte := 0x20

/-- `CS.CREATE`, the validation gate (R80): SSID, then length, then characters (D7); an empty callsign is
`InvalidCharacters` (D8). -/
def csCreate (v : Station) : Except Err Station :=
  if 15 < v.ssid then .error .ssidOutOfRange
  else if 6 < v.callSign.length then .error .callSignTooLong
  else if v.callSign = [] then .error .invalidCharacters
  else if (v.callSign.map upcase).all legal then .ok ⟨v.callSign.map upcase, v.ssid⟩
  else .error .invalidCharacters

/-- Trim trailing spaces only (R83). -/
def trimPad : List Byte → List Byte
  | [] => []
  | c :: cs =>
    match trimPad cs with
    | [] => if c = padChar then [] else [c]
    | d :: ds => c :: d :: ds

/-- `CS.DECODE` (R83): the decoded string and SSID pass through the gate (D9). -/
def csDecode (b : List Byte) : Except Err Station :=
  if b.length ≠ 7 then .error .wrongFieldLength
  else csCreate ⟨trimPad ((b.take 6).map charOf), (ssidOf (b.getD 6 0)).toNat⟩

/-- A callsign padded to six characters with spaces (R52, R84). -/
def padded (call : List Byte) : List Byte := call ++ List.replicate (6 - call.length) padChar

/-- The seven octets of a constructed value: each character shifted left by one, the SSID in bits 4:1, every
other bit 0 (R52, R53, R84). -/
def packStation (v : Station) : List Byte :=
  (padded v.callSign).map (fun (c : Byte) => c <<< 1) ++ [BitVec.ofNat 8 v.ssid <<< 1]

/-- `CS.ENCODE` (R84): the gate first (D14). -/
def csEncode (v : Station) : Except Err (List Byte) :=
  match csCreate v with
  | .ok w => .ok (packStation w)
  | .error e => .error e

/-! ## The meanings -/

/-- `CS.CREATE` (R80). -/
def execCsCreate (s : State) : Host.Outcome State Fault Refusal :=
  finish (csCreate s.irec.station) (fun v => deliverRecord (.station v)) s

/-- `CS.DECODE` (R83). -/
def execCsDecode (s : State) : Host.Outcome State Fault Refusal :=
  finish (csDecode (inputOctets s)) (fun v => deliverRecord (.station v)) s

/-- `CS.ENCODE` (R84). -/
def execCsEncode (s : State) : Host.Outcome State Fault Refusal :=
  finish (csEncode s.irec.station) deliverOctets s

end Sys2Proof.Machine
end

