-- ==== Sys2Proof/Machine/Address.lean ====
section
/-! DEFINITION. The address field and address chain operations (`41_address.md`): `AF.DECODE`, `AF.ENCODE`,
`AC.DECODE`, `AC.ENCODE`, `AC.DERIVE`; and the two octet formats of an address field, `ADDR.CHAR` and
`ADDR.SSID` (`30_encoding.md` R52, R53). -/

namespace Sys2Proof.Machine

/-! ## Equality of chains (R104) -/

/-- Equality of two entries (R104): the station by R86, the flag bit by value. The continuation bit is not
compared: on a chain the host builds its value is ignored. -/
def sameEntry (f g : AddressField) : Bool := decide (f.station = g.station ∧ f.flagBit = g.flagBit)

/-- The same number of entries, and equal entries at every index. -/
def sameEntries : List AddressField → List AddressField → Bool
  | [], [] => true
  | f :: fs, g :: gs => sameEntry f g && sameEntries fs gs
  | [], _ :: _ => false
  | _ :: _, [] => false

/-- Equality of two chains (R104). The type's own equality is finer: it compares continuation bits too. -/
def sameChain (c d : AddressChain) : Bool := sameEntries c.entries d.entries

/-! ## The codecs -/

/-- `AF.DECODE` (R100): bits 7 and 0 of the last octet are masked off before the station is decoded. -/
def afDecode (b : List Byte) : Except Err AddressField :=
  if b.length ≠ 7 then .error .wrongFieldLength
  else
    match csDecode (b.take 6 ++ [b.getD 6 0 &&& 0b0111_1110#8]) with
    | .error e => .error e
    | .ok v => .ok ⟨v, flagBitOf (b.getD 6 0), continuationBitOf (b.getD 6 0)⟩

/-- The flag and continuation bits set on top of a base field (R101). -/
def setFieldBits (a : List Byte) (flag cont : Bool) : List Byte :=
  a.take 6 ++ [a.getD 6 0 ||| bitOctet flag <<< 7 ||| bitOctet cont <<< 0]

/-- `AF.ENCODE` (R101). -/
def afEncode (f : AddressField) : Except Err (List Byte) :=
  match csEncode f.station with
  | .error e => .error e
  | .ok a => .ok (setFieldBits a f.flagBit f.continuationBit)

/-- The loop of `AC.DECODE` (R102): 7-octet groups until one has its continuation bit set, with the number of
octets they take. At each group the length is tested, then the group decoded, then the termination tested.
The fuel is more than the number of groups the octets hold, so it never runs out. -/
def acGroups : Nat → List Byte → Except Err (List AddressField × Nat)
  | 0, _ => .error .truncatedAddressChain
  | fuel + 1, b =>
    if b.length < 7 then .error .truncatedAddressChain
    else
      match afDecode (b.take 7) with
      | .error e => .error e
      | .ok f =>
        if f.continuationBit then .ok ([f], 7)
        else
          match acGroups fuel (b.drop 7) with
          | .error e => .error e
          | .ok (fs, n) => .ok (f :: fs, 7 + n)

/-- `AC.DECODE` (R102): the chain and the offset after it. -/
def acDecode (b : List Byte) : Except Err (AddressChain × Nat) :=
  match acGroups (b.length + 1) b with
  | .error e => .error e
  | .ok (d :: s :: ds, n) => .ok (⟨d, s, ds⟩, n)
  | .ok (_, _) => .error .addressChainTooShort

/-- The loop of `AC.ENCODE` (R103): the continuation bit is forced, false on every entry but the last. -/
def acEntries : List AddressField → Except Err (List Byte)
  | [] => .ok []
  | f :: fs =>
    match afEncode ⟨f.station, f.flagBit, fs.isEmpty⟩ with
    | .error e => .error e
    | .ok a =>
      match acEntries fs with
      | .error e => .error e
      | .ok r => .ok (a ++ r)

/-- `AC.ENCODE` (R103). -/
def acEncode (c : AddressChain) : Except Err (List Byte) := acEntries c.entries

/-- The derived values of a chain (R105, R106, R108); the stations are copied (R107). -/
def deriveChain (c : AddressChain) : Derived :=
  { destination := c.destination.station
    source := c.source.station
    digipeaters := c.digipeaters.map (·.station)
    repeatedBy := (c.digipeaters.filter (·.flagBit)).map (·.station)
    commandResponse := commandResponseOf c.destination.flagBit c.source.flagBit }

/-! ## The meanings -/

/-- `AF.DECODE` (R100). -/
def execAfDecode (s : State) : Host.Outcome State Fault Refusal :=
  finish (afDecode (inputOctets s)) (fun f => deliverRecord (.field f)) s

/-- `AF.ENCODE` (R101): the continuation bit is taken as given. -/
def execAfEncode (s : State) : Host.Outcome State Fault Refusal :=
  finish (afEncode ⟨s.irec.station, s.irec.flagBit, s.irec.continuationBit⟩) deliverOctets s

/-- `AC.DECODE` (R102). -/
def execAcDecode (s : State) : Host.Outcome State Fault Refusal :=
  finish (acDecode (inputOctets s)) (fun r => deliverConsumed (.chain r.1 (deriveChain r.1)) r.2) s

/-- `AC.ENCODE` (R103). -/
def execAcEncode (s : State) : Host.Outcome State Fault Refusal :=
  finish (acEncode s.irec.addresses) deliverOctets s

/-- `AC.DERIVE` (R107): no error, and no gate. -/
def execAcDerive (s : State) : Host.Outcome State Fault Refusal :=
  .next (deliverRecord (.derived (deriveChain s.irec.addresses)) s)

/-- `ADDR.CHAR` (R52): what decoding makes of one character octet, its 7-bit character. DESIGN CHOICE (notes
entries 1 and 2): the row is a data format, not an operation. -/
def execAddrChar (code : Nat) (s : State) : Host.Outcome State Fault Refusal :=
  .next (deliverRecord (.charOctet code) s)

/-- `ADDR.SSID` (R53): what decoding makes of one SSID octet, its three fields. DESIGN CHOICE (notes entries 1
and 2): the row is a data format, not an operation. -/
def execAddrSsid (flag : Bool) (ssid : Nat) (cont : Bool) (s : State) : Host.Outcome State Fault Refusal :=
  .next (deliverRecord (.ssidOctet flag ssid cont) s)

end Sys2Proof.Machine
end

