-- ==== Sys2Proof/Machine/Control.lean ====
section
/-! DEFINITION. The control-field operations (`42_control.md`): `CTL.DECODE` and `CTL.ENCODE`, with the decode
and encode halves of the five formats (`30_encoding.md` R54 to R61). -/

namespace Sys2Proof.Machine

/-! ## Tables (R60, R61) -/

/-- The S function of the 2-bit field; every value is assigned (R61), so there is no lookup that fails
(R143). -/
def sFunctionOf (func : Byte) : SFunction :=
  if func = 0 then .rr else if func = 1 then .rnr else if func = 2 then .rej else .srej

/-- The 2-bit field of an S function (R61). -/
def sFunctionField : SFunction → Byte
  | .rr => 0b00
  | .rnr => 0b01
  | .rej => 0b10
  | .srej => 0b11

/-- The modifier pattern, the five `M` bits in place (R60). -/
def uPattern : UModifier → Byte
  | .sabme => 0b0110_1100
  | .sabm => 0b0010_1100
  | .disc => 0b0100_0000
  | .dm => 0b0000_1100
  | .ua => 0b0110_0000
  | .frmr => 0b1000_0100
  | .ui => 0b0000_0000
  | .xid => 0b1010_1100
  | .test => 0b1110_0000

/-- The nine modifiers (R60). -/
def uModifiers : List UModifier := [.sabme, .sabm, .disc, .dm, .ua, .frmr, .ui, .xid, .test]

/-- The modifier whose pattern equals the masked octet (R59, R147). -/
def uModifierOf (m : Byte) : Option UModifier := uModifiers.find? (fun u => uPattern u == m)

/-! ## The decode halves -/

/-- The control word: low octet first, combined with OR (R32). -/
def controlWord (c0 c1 : Byte) : ControlWord := c0.setWidth 16 ||| c1.setWidth 16 <<< 8

/-- The two octets of a control word, low octet first (R32, R45). -/
def wordOctets (w : ControlWord) : List Byte := [w.setWidth 8, (w >>> 8).setWidth 8]

/-- `recvSeq` of a modulo-8 control field (R55, R57). -/
def recvSeq8 (c0 : Byte) : Nat := ((c0 &&& 0b1110_0000#8) >>> 5).toNat

/-- `recvSeq` of a control word: `w[15:9]` (R56, R58). -/
def recvSeq128 (w : ControlWord) : Nat := (w.extractLsb' 9 7).toNat

/-- `pollFinal` of a control word: `w[8]` (R56, R58, D11). -/
def pollFinal128 (w : ControlWord) : Bool := w.getLsbD 8

/-- `I.M8`, decode (R123). -/
def decodeI8 (c0 : Byte) : FrameKind :=
  .i ((c0 &&& 0b0000_1110#8) >>> 1).toNat (recvSeq8 c0) (pollFinalOf c0)

/-- `I.M128`, decode (R124). -/
def decodeI128 (w : ControlWord) : FrameKind :=
  .i (w.extractLsb' 1 7).toNat (recvSeq128 w) (pollFinal128 w)

/-- The S frames of modulo-8, decode (R125 to R128, R146). -/
def decodeS8 (c0 : Byte) : FrameKind :=
  .s (sFunctionOf ((c0 &&& 0b0000_1100#8) >>> 2)) (recvSeq8 c0) (pollFinalOf c0)

/-- The S frames of modulo-128, decode: `w[7:4]` is ignored (R129 to R132, R146, D12). -/
def decodeS128 (w : ControlWord) : FrameKind :=
  .s (sFunctionOf ((w.extractLsb' 2 2).setWidth 8)) (recvSeq128 w) (pollFinal128 w)

/-- The U frames, decode (R133 to R142, R147). -/
def decodeU (c0 : Byte) : Except Err FrameKind :=
  match uModifierOf (c0 &&& 0b1110_1100#8) with
  | some m => .ok (.u m (pollFinalOf c0))
  | none => .error .unknownModifier

/-- `CTL.DECODE` (R120): the kind and the octets consumed. The kind comes from the low bits of the first octet
(R54), and only its layout depends on the modulo. -/
def ctlDecode (mo : Modulo) (b : List Byte) : Except Err (FrameKind × Nat) :=
  match b with
  | [] => .error .shortControlField
  | c0 :: rest =>
    if c0 &&& 0b01#8 = 0b00#8 then
      match mo, rest with
      | .m8, _ => .ok (decodeI8 c0, 1)
      | .m128, [] => .error .shortControlField
      | .m128, c1 :: _ => .ok (decodeI128 (controlWord c0 c1), 2)
    else if c0 &&& 0b11#8 = 0b01#8 then
      match mo, rest with
      | .m8, _ => .ok (decodeS8 c0, 1)
      | .m128, [] => .error .shortControlField
      | .m128, c1 :: _ => .ok (decodeS128 (controlWord c0 c1), 2)
    else
      match decodeU c0 with
      | .ok k => .ok (k, 1)
      | .error e => .error e

/-! ## The encode halves -/

/-- `check_seq(v, MOD)` (R122). -/
def checkSeq (v : Nat) (mo : Modulo) : Except Err Unit :=
  match mo with
  | .m8 => if 7 < v then .error .sequenceNumberOutOfRange else .ok ()
  | .m128 => if 127 < v then .error .sequenceNumberOutOfRange else .ok ()

/-- `I.M8`, encode (R123). -/
def encodeI8 (ns nr : Nat) (p : Bool) : List Byte :=
  [BitVec.ofNat 8 nr <<< 5 ||| bitOctet p <<< 4 ||| BitVec.ofNat 8 ns <<< 1]

/-- `I.M128`, encode (R124). -/
def encodeI128 (ns nr : Nat) (p : Bool) : List Byte :=
  wordOctets (BitVec.ofNat 16 nr <<< 9 ||| (bitOctet p).setWidth 16 <<< 8 ||| BitVec.ofNat 16 ns <<< 1)

/-- The S frames of modulo-8, encode (R125 to R128). -/
def encodeSFrame8 (fn : SFunction) (nr : Nat) (p : Bool) : List Byte :=
  [BitVec.ofNat 8 nr <<< 5 ||| bitOctet p <<< 4 ||| sFunctionField fn <<< 2 ||| 0b01#8]

/-- The S frames of modulo-128, encode: `w[7:4]` is 0 (R129 to R132). -/
def encodeSFrame128 (fn : SFunction) (nr : Nat) (p : Bool) : List Byte :=
  wordOctets (BitVec.ofNat 16 nr <<< 9 ||| (bitOctet p).setWidth 16 <<< 8 |||
    (sFunctionField fn).setWidth 16 <<< 2 ||| 0b01#16)

/-- The U frames, encode (R147). -/
def encodeUFrame (m : UModifier) (p : Bool) : List Byte :=
  [uPattern m ||| bitOctet p <<< 4 ||| 0b11#8]

/-- `CTL.ENCODE` (R121): `sendSeq` is checked before `recvSeq` (R122). -/
def ctlEncode (mo : Modulo) (k : FrameKind) : Except Err (List Byte) :=
  match k with
  | .i ns nr p =>
    match checkSeq ns mo, checkSeq nr mo with
    | .error e, _ => .error e
    | .ok _, .error e => .error e
    | .ok _, .ok _ =>
      match mo with
      | .m8 => .ok (encodeI8 ns nr p)
      | .m128 => .ok (encodeI128 ns nr p)
  | .s fn nr p =>
    match checkSeq nr mo with
    | .error e => .error e
    | .ok _ =>
      match mo with
      | .m8 => .ok (encodeSFrame8 fn nr p)
      | .m128 => .ok (encodeSFrame128 fn nr p)
  | .u m p => .ok (encodeUFrame m p)

/-! ## The meanings -/

/-- `CTL.DECODE` (R120). -/
def execCtlDecode (s : State) : Host.Outcome State Fault Refusal :=
  finish (ctlDecode s.mod (inputOctets s)) (fun r => deliverConsumed (.kind r.1) r.2) s

/-- `CTL.ENCODE` (R121). -/
def execCtlEncode (s : State) : Host.Outcome State Fault Refusal :=
  finish (ctlEncode s.mod s.irec.kind) deliverOctets s

end Sys2Proof.Machine
end

