-- ==== Sys2Proof/Machine/Frame.lean ====
section
/-! DEFINITION. The payload-boundary validator and the whole-frame operations (`43_payload_frame.md`):
`PL.CHECK`, `FRAME.DECODE`, `FRAME.ENCODE`. -/

namespace Sys2Proof.Machine

/-- The four payload classes (R160; `30_encoding.md` R66). -/
inductive PayloadClass where
  | pidInfo
  | none
  | raw
  | fixed3
  deriving DecidableEq, Repr

/-- `class(kind)` (R160). -/
def payloadClass : FrameKind → PayloadClass
  | .i _ _ _ => .pidInfo
  | .s _ _ _ => .none
  | .u .ui _ => .pidInfo
  | .u .xid _ => .raw
  | .u .test _ => .raw
  | .u .frmr _ => .fixed3
  | .u .sabm _ => .none
  | .u .sabme _ => .none
  | .u .disc _ => .none
  | .u .dm _ => .none
  | .u .ua _ => .none

/-- `PL.CHECK` (R161): only the length of the octets is looked at. -/
def plCheck (k : FrameKind) (rest : List Byte) : Except Err (List Byte) :=
  match payloadClass k with
  | .pidInfo => if rest.length < 1 then .error .missingProtocolId else .ok rest
  | .none => if 0 < rest.length then .error .unexpectedTrailingData else .ok rest
  | .raw => .ok rest
  | .fixed3 => if rest.length ≠ 3 then .error .invalidFrmrLength else .ok rest

/-- The protocol id of a frame (R162): the first octet of a `PID_INFO` payload, and no other class has one. -/
def framePid (f : Frame) : Option Byte :=
  match payloadClass f.kind with
  | .pidInfo => f.payload.head?
  | .none => Option.none
  | .raw => Option.none
  | .fixed3 => Option.none

/-- The information of a frame (R162): after the protocol id, or the whole payload; class `NONE` has none. -/
def frameInformation (f : Frame) : Option (List Byte) :=
  match payloadClass f.kind with
  | .pidInfo => some (f.payload.drop 1)
  | .none => Option.none
  | .raw => some f.payload
  | .fixed3 => some f.payload

/-- Equality of two frames (R166): `addresses` by R104, `kind` by tag and fields, `payload` by octets. -/
def sameFrame (f g : Frame) : Bool :=
  sameChain f.addresses g.addresses && decide (f.kind = g.kind ∧ f.payload = g.payload)

/-- `FRAME.DECODE` (R163): the length test, then the chain, the control field and the payload, each stage
entered only if the earlier ones succeeded (R165). -/
def frameDecode (mo : Modulo) (b : List Byte) : Except Err Frame :=
  if b.length < 15 then .error .frameTooShort
  else
    match acDecode b with
    | .error e => .error e
    | .ok (c, off) =>
      match ctlDecode mo (b.drop off) with
      | .error e => .error e
      | .ok (k, n) =>
        match plCheck k (b.drop (off + n)) with
        | .error e => .error e
        | .ok p => .ok ⟨c, k, p⟩

/-- `FRAME.ENCODE` (R164): the chain, the control field and the payload, in this order; the first error is the
one reported (D14). -/
def frameEncode (mo : Modulo) (f : Frame) : Except Err (List Byte) :=
  match acEncode f.addresses with
  | .error e => .error e
  | .ok a =>
    match ctlEncode mo f.kind with
    | .error e => .error e
    | .ok c =>
      match plCheck f.kind f.payload with
      | .error e => .error e
      | .ok p => .ok (a ++ c ++ p)

/-! ## The meanings -/

/-- `PL.CHECK` (R161). -/
def execPlCheck (s : State) : Host.Outcome State Fault Refusal :=
  finish (plCheck s.irec.kind (inputOctets s)) deliverOctets s

/-- `FRAME.DECODE` (R163). -/
def execFrameDecode (s : State) : Host.Outcome State Fault Refusal :=
  finish (frameDecode s.mod (inputOctets s)) (fun f => deliverRecord (.frame f (deriveChain f.addresses))) s

/-- `FRAME.ENCODE` (R164). -/
def execFrameEncode (s : State) : Host.Outcome State Fault Refusal :=
  finish (frameEncode s.mod (frameOperand s)) deliverOctets s

end Sys2Proof.Machine
end

