-- ==== Sys2Proof/Machine/FrameTypes.lean ====
section
/-! DEFINITION. The control-field rows of the opcode table as instructions of their own (`42_control.md` R123 to
R142): what the block does when the control field it decodes is of that type. A row's word stands in `IBUF`, not
in `OP`, and `CTL.DECODE` (R120) is what runs it; notes entry 1. The encode half of each type is `encode` in
`Decode.lean` and `CTL.ENCODE` in `Machine/Control.lean`. -/

namespace Sys2Proof.Machine

/-- A decoded control field: the `FrameKind` and the octets it took, with `STATUS = OK` (R120). -/
def decodedKind (k : FrameKind) (octets : Nat) (s : State) : Host.Outcome State Fault Refusal :=
  .next (deliverConsumed (.kind k) octets s)

/-- A control field whose modifier pattern is unassigned: `UnknownModifier` (R142, R189). Bit 4 is not
interpreted. -/
def unknownModifier (s : State) : Host.Outcome State Fault Refusal := .next (raise .unknownModifier s)

/-! ## I frames -/

/-- `I.M8` (R123). -/
def execIM8 (ns nr : Nat) (p : Bool) (s : State) : Host.Outcome State Fault Refusal :=
  decodedKind (.i ns nr p) 1 s

/-- `I.M128` (R124). -/
def execIM128 (ns nr : Nat) (p : Bool) (s : State) : Host.Outcome State Fault Refusal :=
  decodedKind (.i ns nr p) 2 s

/-! ## S frames -/

/-- `RR.M8` (R125). -/
def execRrM8 (nr : Nat) (p : Bool) (s : State) : Host.Outcome State Fault Refusal :=
  decodedKind (.s .rr nr p) 1 s

/-- `RNR.M8` (R126). -/
def execRnrM8 (nr : Nat) (p : Bool) (s : State) : Host.Outcome State Fault Refusal :=
  decodedKind (.s .rnr nr p) 1 s

/-- `REJ.M8` (R127). -/
def execRejM8 (nr : Nat) (p : Bool) (s : State) : Host.Outcome State Fault Refusal :=
  decodedKind (.s .rej nr p) 1 s

/-- `SREJ.M8` (R128). -/
def execSrejM8 (nr : Nat) (p : Bool) (s : State) : Host.Outcome State Fault Refusal :=
  decodedKind (.s .srej nr p) 1 s

/-- `RR.M128` (R129). -/
def execRrM128 (nr : Nat) (p : Bool) (s : State) : Host.Outcome State Fault Refusal :=
  decodedKind (.s .rr nr p) 2 s

/-- `RNR.M128` (R130). -/
def execRnrM128 (nr : Nat) (p : Bool) (s : State) : Host.Outcome State Fault Refusal :=
  decodedKind (.s .rnr nr p) 2 s

/-- `REJ.M128` (R131). -/
def execRejM128 (nr : Nat) (p : Bool) (s : State) : Host.Outcome State Fault Refusal :=
  decodedKind (.s .rej nr p) 2 s

/-- `SREJ.M128` (R132). -/
def execSrejM128 (nr : Nat) (p : Bool) (s : State) : Host.Outcome State Fault Refusal :=
  decodedKind (.s .srej nr p) 2 s

/-! ## U frames: one octet under either modulo -/

/-- `SABM` (R133). -/
def execSabm (p : Bool) (s : State) : Host.Outcome State Fault Refusal :=
  decodedKind (.u .sabm p) 1 s

/-- `SABME` (R134). -/
def execSabme (p : Bool) (s : State) : Host.Outcome State Fault Refusal :=
  decodedKind (.u .sabme p) 1 s

/-- `DISC` (R135). -/
def execDisc (p : Bool) (s : State) : Host.Outcome State Fault Refusal :=
  decodedKind (.u .disc p) 1 s

/-- `DM` (R136). -/
def execDm (p : Bool) (s : State) : Host.Outcome State Fault Refusal :=
  decodedKind (.u .dm p) 1 s

/-- `UA` (R137). -/
def execUa (p : Bool) (s : State) : Host.Outcome State Fault Refusal :=
  decodedKind (.u .ua p) 1 s

/-- `FRMR` (R138). -/
def execFrmr (p : Bool) (s : State) : Host.Outcome State Fault Refusal :=
  decodedKind (.u .frmr p) 1 s

/-- `UI` (R139). -/
def execUi (p : Bool) (s : State) : Host.Outcome State Fault Refusal :=
  decodedKind (.u .ui p) 1 s

/-- `XID` (R140). -/
def execXid (p : Bool) (s : State) : Host.Outcome State Fault Refusal :=
  decodedKind (.u .xid p) 1 s

/-- `TEST` (R141). -/
def execTest (p : Bool) (s : State) : Host.Outcome State Fault Refusal :=
  decodedKind (.u .test p) 1 s

/-! ## The unassigned U patterns -/

/-- `U.UNASSIGNED.04` (R142). -/
def execUnassigned04 (_bit4 : Bool) (s : State) : Host.Outcome State Fault Refusal := unknownModifier s

/-- `U.UNASSIGNED.08` (R142). -/
def execUnassigned08 (_bit4 : Bool) (s : State) : Host.Outcome State Fault Refusal := unknownModifier s

/-- `U.UNASSIGNED.20` (R142). -/
def execUnassigned20 (_bit4 : Bool) (s : State) : Host.Outcome State Fault Refusal := unknownModifier s

/-- `U.UNASSIGNED.24` (R142). -/
def execUnassigned24 (_bit4 : Bool) (s : State) : Host.Outcome State Fault Refusal := unknownModifier s

/-- `U.UNASSIGNED.28` (R142). -/
def execUnassigned28 (_bit4 : Bool) (s : State) : Host.Outcome State Fault Refusal := unknownModifier s

/-- `U.UNASSIGNED.44` (R142). -/
def execUnassigned44 (_bit4 : Bool) (s : State) : Host.Outcome State Fault Refusal := unknownModifier s

/-- `U.UNASSIGNED.48` (R142). -/
def execUnassigned48 (_bit4 : Bool) (s : State) : Host.Outcome State Fault Refusal := unknownModifier s

/-- `U.UNASSIGNED.4C` (R142). -/
def execUnassigned4C (_bit4 : Bool) (s : State) : Host.Outcome State Fault Refusal := unknownModifier s

/-- `U.UNASSIGNED.64` (R142). -/
def execUnassigned64 (_bit4 : Bool) (s : State) : Host.Outcome State Fault Refusal := unknownModifier s

/-- `U.UNASSIGNED.68` (R142). -/
def execUnassigned68 (_bit4 : Bool) (s : State) : Host.Outcome State Fault Refusal := unknownModifier s

/-- `U.UNASSIGNED.80` (R142). -/
def execUnassigned80 (_bit4 : Bool) (s : State) : Host.Outcome State Fault Refusal := unknownModifier s

/-- `U.UNASSIGNED.88` (R142). -/
def execUnassigned88 (_bit4 : Bool) (s : State) : Host.Outcome State Fault Refusal := unknownModifier s

/-- `U.UNASSIGNED.8C` (R142). -/
def execUnassigned8C (_bit4 : Bool) (s : State) : Host.Outcome State Fault Refusal := unknownModifier s

/-- `U.UNASSIGNED.A0` (R142). -/
def execUnassignedA0 (_bit4 : Bool) (s : State) : Host.Outcome State Fault Refusal := unknownModifier s

/-- `U.UNASSIGNED.A4` (R142). -/
def execUnassignedA4 (_bit4 : Bool) (s : State) : Host.Outcome State Fault Refusal := unknownModifier s

/-- `U.UNASSIGNED.A8` (R142). -/
def execUnassignedA8 (_bit4 : Bool) (s : State) : Host.Outcome State Fault Refusal := unknownModifier s

/-- `U.UNASSIGNED.C0` (R142). -/
def execUnassignedC0 (_bit4 : Bool) (s : State) : Host.Outcome State Fault Refusal := unknownModifier s

/-- `U.UNASSIGNED.C4` (R142). -/
def execUnassignedC4 (_bit4 : Bool) (s : State) : Host.Outcome State Fault Refusal := unknownModifier s

/-- `U.UNASSIGNED.C8` (R142). -/
def execUnassignedC8 (_bit4 : Bool) (s : State) : Host.Outcome State Fault Refusal := unknownModifier s

/-- `U.UNASSIGNED.CC` (R142). -/
def execUnassignedCC (_bit4 : Bool) (s : State) : Host.Outcome State Fault Refusal := unknownModifier s

/-- `U.UNASSIGNED.E4` (R142). -/
def execUnassignedE4 (_bit4 : Bool) (s : State) : Host.Outcome State Fault Refusal := unknownModifier s

/-- `U.UNASSIGNED.E8` (R142). -/
def execUnassignedE8 (_bit4 : Bool) (s : State) : Host.Outcome State Fault Refusal := unknownModifier s

/-- `U.UNASSIGNED.EC` (R142). -/
def execUnassignedEC (_bit4 : Bool) (s : State) : Host.Outcome State Fault Refusal := unknownModifier s

end Sys2Proof.Machine
end

