-- ==== Sys2Proof/Machine/Dispatch.lean ====
section
/-! DEFINITION. One arm per row of `spec/opcode_table.json`. -/

namespace Sys2Proof.Machine

def exec (i : Instr) (s : State) : Host.Outcome State Fault Refusal :=
  match i with
  | .csCreate => Sys2Proof.Machine.execCsCreate s
  | .csDecode => Sys2Proof.Machine.execCsDecode s
  | .csEncode => Sys2Proof.Machine.execCsEncode s
  | .afDecode => Sys2Proof.Machine.execAfDecode s
  | .afEncode => Sys2Proof.Machine.execAfEncode s
  | .acDecode => Sys2Proof.Machine.execAcDecode s
  | .acEncode => Sys2Proof.Machine.execAcEncode s
  | .acDerive => Sys2Proof.Machine.execAcDerive s
  | .ctlDecode => Sys2Proof.Machine.execCtlDecode s
  | .ctlEncode => Sys2Proof.Machine.execCtlEncode s
  | .plCheck => Sys2Proof.Machine.execPlCheck s
  | .frameDecode => Sys2Proof.Machine.execFrameDecode s
  | .frameEncode => Sys2Proof.Machine.execFrameEncode s
  | .addrChar code => Sys2Proof.Machine.execAddrChar code s
  | .addrSsid f ssid e => Sys2Proof.Machine.execAddrSsid f ssid e s
  | .iM8 ns nr p => Sys2Proof.Machine.execIM8 ns nr p s
  | .iM128 ns nr p => Sys2Proof.Machine.execIM128 ns nr p s
  | .rrM8 nr p => Sys2Proof.Machine.execRrM8 nr p s
  | .rnrM8 nr p => Sys2Proof.Machine.execRnrM8 nr p s
  | .rejM8 nr p => Sys2Proof.Machine.execRejM8 nr p s
  | .srejM8 nr p => Sys2Proof.Machine.execSrejM8 nr p s
  | .rrM128 nr p => Sys2Proof.Machine.execRrM128 nr p s
  | .rnrM128 nr p => Sys2Proof.Machine.execRnrM128 nr p s
  | .rejM128 nr p => Sys2Proof.Machine.execRejM128 nr p s
  | .srejM128 nr p => Sys2Proof.Machine.execSrejM128 nr p s
  | .sabm p => Sys2Proof.Machine.execSabm p s
  | .sabme p => Sys2Proof.Machine.execSabme p s
  | .disc p => Sys2Proof.Machine.execDisc p s
  | .dm p => Sys2Proof.Machine.execDm p s
  | .ua p => Sys2Proof.Machine.execUa p s
  | .frmr p => Sys2Proof.Machine.execFrmr p s
  | .ui p => Sys2Proof.Machine.execUi p s
  | .xid p => Sys2Proof.Machine.execXid p s
  | .test p => Sys2Proof.Machine.execTest p s
  | .unassigned04 p => Sys2Proof.Machine.execUnassigned04 p s
  | .unassigned08 p => Sys2Proof.Machine.execUnassigned08 p s
  | .unassigned20 p => Sys2Proof.Machine.execUnassigned20 p s
  | .unassigned24 p => Sys2Proof.Machine.execUnassigned24 p s
  | .unassigned28 p => Sys2Proof.Machine.execUnassigned28 p s
  | .unassigned44 p => Sys2Proof.Machine.execUnassigned44 p s
  | .unassigned48 p => Sys2Proof.Machine.execUnassigned48 p s
  | .unassigned4C p => Sys2Proof.Machine.execUnassigned4C p s
  | .unassigned64 p => Sys2Proof.Machine.execUnassigned64 p s
  | .unassigned68 p => Sys2Proof.Machine.execUnassigned68 p s
  | .unassigned80 p => Sys2Proof.Machine.execUnassigned80 p s
  | .unassigned88 p => Sys2Proof.Machine.execUnassigned88 p s
  | .unassigned8C p => Sys2Proof.Machine.execUnassigned8C p s
  | .unassignedA0 p => Sys2Proof.Machine.execUnassignedA0 p s
  | .unassignedA4 p => Sys2Proof.Machine.execUnassignedA4 p s
  | .unassignedA8 p => Sys2Proof.Machine.execUnassignedA8 p s
  | .unassignedC0 p => Sys2Proof.Machine.execUnassignedC0 p s
  | .unassignedC4 p => Sys2Proof.Machine.execUnassignedC4 p s
  | .unassignedC8 p => Sys2Proof.Machine.execUnassignedC8 p s
  | .unassignedCC p => Sys2Proof.Machine.execUnassignedCC p s
  | .unassignedE4 p => Sys2Proof.Machine.execUnassignedE4 p s
  | .unassignedE8 p => Sys2Proof.Machine.execUnassignedE8 p s
  | .unassignedEC p => Sys2Proof.Machine.execUnassignedEC p s

end Sys2Proof.Machine
end

