-- ==== Sys2Proof/Machine/HostPort.lean ====
section
/-! DEFINITION. What the host does to the block between operations (R11, R44, R201, R212): it writes operand
registers, and it may reset the block. Starting an operation is a step. -/

namespace Sys2Proof.Machine

/-- The host writes `OP` (R11, R16). -/
def hostWriteOp (code : BitVec 4) (s : State) : State :=
  { s with op := code, written := { s.written with op := true } }

/-- The host writes `MOD` (R11, R17). -/
def hostWriteMod (mo : Modulo) (s : State) : State :=
  { s with mod := mo, written := { s.written with mod := true } }

/-- The host writes `IBUF` and `ILEN` (R11, R18, R214): the octets, and nothing before or after them. -/
def hostWriteInput (b : List Byte) (s : State) : State :=
  { s with
    ibuf := Memory.writeOctets [] 0 b
    ilen := b.length
    written := { s.written with ibuf := true } }

/-! `IREC` is written field by field, by name (R30). -/

/-- The host writes a raw `CallSignSSID` (R12). -/
def hostWriteStation (v : Station) (s : State) : State :=
  { s with irec := { s.irec with station := v }, written := { s.written with station := true } }

/-- The host writes a raw `AddressField` (R13). -/
def hostWriteField (f : AddressField) (s : State) : State :=
  { s with
    irec := { s.irec with station := f.station, flagBit := f.flagBit, continuationBit := f.continuationBit }
    written := { s.written with station := true, flagBit := true, continuationBit := true } }

/-- The host writes an `AddressChain` (R13). -/
def hostWriteChain (c : AddressChain) (s : State) : State :=
  { s with irec := { s.irec with addresses := c }, written := { s.written with addresses := true } }

/-- The host writes a `FrameKind` (R13). -/
def hostWriteKind (k : FrameKind) (s : State) : State :=
  { s with irec := { s.irec with kind := k }, written := { s.written with kind := true } }

/-- The host writes a `Frame`, the operand of `FRAME.ENCODE` (R13, R164). -/
def hostWriteFrame (f : Frame) (s : State) : State :=
  { s with
    irec := { s.irec with addresses := f.addresses, kind := f.kind, payload := f.payload }
    written := { s.written with addresses := true, kind := true, payload := true } }

/-- The host writes every home of `IREC` (R11, R16). -/
def hostWriteRecord (r : IRec) (s : State) : State :=
  { s with
    irec := r
    written := { Written.everything with op := s.written.op, mod := s.written.mod, ibuf := s.written.ibuf } }

/-- Reset by the host (R210): `STATUS` is `IDLE`, and every other register and buffer is unspecified, each a
free value; no operand is written (R212). -/
def hostReset (s : State) : State :=
  { op := Config.freeOp s.freeCount
    mod := Config.freeModulo s.freeCount
    ibuf := Memory.writeOctets [] 0 (Config.freeInput s.freeCount)
    ilen := Config.freeILen s.freeCount
    irec := Config.freeIRec s.freeCount
    status := .idle
    orec := Config.freeORec s.freeCount
    obuf := Memory.writeOctets [] 0 (Config.freeOctets s.freeCount)
    olen := Config.freeOLen s.freeCount
    consumed := Config.freeConsumed s.freeCount
    written := Written.nothing
    freeCount := s.freeCount + 1 }

end Sys2Proof.Machine
end

