-- ==== Sys2Proof/Machine/Step.lean ====
section
/-! DEFINITION. One step is one operation (R217): the block reads `OP`, runs the operation it selects on one
snapshot of the operands, and delivers the results. -/

namespace Sys2Proof.Machine

/-- The result of an operation, if the implementation's parameters can hold it (U11). -/
def boundResult (lim : Config.Limits) (i : Instr) (o : Host.Outcome State Fault Refusal) :
    Host.Outcome State Fault Refusal :=
  match o with
  | .next t => if resultFits lim i t then .next t else .refused .notPresentable
  | .fault f => .fault f
  | .refused r => .refused r

/-- The selected operation under the parameters `lim` (R217, U11). -/
def runOperation (lim : Config.Limits) (i : Instr) (s : State) : Host.Outcome State Fault Refusal :=
  if presentable lim i s then boundResult lim i (exec i s) else .refused .notPresentable

/-- One operation of an implementation with the parameters `lim` (R16, R217; U9, U11). The operation runs on the
values its operand registers hold, whether or not the host has written them (R212, U14; notes entry 7). -/
def stepWith (lim : Config.Limits) (s : State) : Host.Outcome State Fault Refusal :=
  match selectOp s.op with
  | .error _ => .refused (.unassignedOp s.op)
  | .ok i => runOperation lim i s

/-- One operation, with the spec's default parameters. -/
def step (s : State) : Host.Outcome State Fault Refusal := stepWith Config.limits s

/-- The host's word where the next step runs it (notes entry 8): an operation's code goes into `OP`; the octets
of a control field go to the start of `IBUF`, with their modulo in `MOD` and `CTL.DECODE` in `OP`. -/
def State.withFetchWord (s : State) (nbits w : Nat) : State :=
  match decodeTableWord nbits w with
  | none => s
  | some i =>
    match i.opCode with
    | some code => hostWriteOp code s
    | none =>
      if nbits ≤ 8 then
        hostWriteOp 0x9 (hostWriteMod .m8 (hostWriteInput [BitVec.ofNat 8 w] s))
      else
        hostWriteOp 0x9 (hostWriteMod .m128
          (hostWriteInput [BitVec.ofNat 8 w, BitVec.ofNat 8 (w / 256)] s))

end Sys2Proof.Machine
end

