-- ==== Sys2Proof/Safety.lean ====
section
/-! DEFINITION. The valid values (R12, R13, R104, R166), the machine's invariant, and the operations grouped by
the registers they read and write (R11), in the terms claims use. -/

namespace Sys2Proof

open Sys2Proof.Machine

/-! ## Valid values -/

/-- A valid `CallSignSSID` (R12): 1 to 6 characters, each `A` to `Z` or `0` to `9`, and an SSID of 0 to 15. -/
abbrev Station.Valid (v : Station) : Prop :=
  1 ≤ v.callSign.length ∧ v.callSign.length ≤ 6 ∧ v.callSign.all legal = true ∧ v.ssid ≤ 15

/-- A raw station the gate accepts (R80): after case folding its characters are legal. -/
abbrev Station.Acceptable (v : Station) : Prop :=
  v.ssid ≤ 15 ∧ 1 ≤ v.callSign.length ∧ v.callSign.length ≤ 6 ∧
    ∀ c ∈ v.callSign, legal (upcase c) = true

/-- Every station of a chain is valid. -/
abbrev AddressChain.StationsValid (c : AddressChain) : Prop := ∀ f ∈ c.entries, f.station.Valid

/-- The continuation bit is set on the last entry and only the last (R104 (c)). -/
def continuationMarksLast : List AddressField → Bool
  | [] => false
  | [f] => f.continuationBit
  | f :: g :: fs => !f.continuationBit && continuationMarksLast (g :: fs)

/-- A valid chain (R104). -/
abbrev AddressChain.Valid (c : AddressChain) : Prop :=
  c.StationsValid ∧ continuationMarksLast c.entries = true

/-- A frame kind whose sequence numbers are in range for a modulo (R13, R122). -/
def FrameKind.inRange (mo : Modulo) : FrameKind → Bool
  | .i ns nr _ => decide (ns ≤ seqBound mo) && decide (nr ≤ seqBound mo)
  | .s _ nr _ => decide (nr ≤ seqBound mo)
  | .u _ _ => true

/-- A payload whose length the frame kind allows (R66, R161). -/
def payloadFits (k : FrameKind) (p : List Byte) : Bool :=
  match payloadClass k with
  | .pidInfo => decide (1 ≤ p.length)
  | .none => decide (p.length = 0)
  | .raw => true
  | .fixed3 => decide (p.length = 3)

/-- A valid frame under a modulo (R166). -/
abbrev Frame.Valid (mo : Modulo) (f : Frame) : Prop :=
  f.addresses.Valid ∧ f.kind.inRange mo = true ∧ payloadFits f.kind f.payload = true

/-! ## What stands in a buffer -/

/-- The characters of a callsign stand in the six octets from an offset, each shifted left by one and padded
with spaces, in either case (R52, R81, R83); bit 0 of each octet is not looked at. -/
abbrev charsAt (m : Memory) (off : Nat) (call : List Byte) : Prop :=
  ∀ i < 6, upcase (Memory.read m (off + i) >>> 1) = call.getD i 0x20#8

/-- An address field stands in the seven octets from an offset (R51 to R53); bit 0 of the character octets and
bits 6:5 of the SSID octet are not looked at. -/
abbrev fieldAt (m : Memory) (off : Nat) (f : AddressField) : Prop :=
  charsAt m off f.station.callSign ∧
    ((Memory.read m (off + 6)).extractLsb' 1 4).toNat = f.station.ssid ∧
    (Memory.read m (off + 6)).getLsbD 7 = f.flagBit ∧
    (Memory.read m (off + 6)).getLsbD 0 = f.continuationBit

/-- The address fields of a list stand one after another from offset 0 (R34, R39). -/
abbrev fieldsAt (m : Memory) (fs : List AddressField) : Prop :=
  ∀ (j : Fin fs.length), fieldAt m (7 * j.val) fs[j]

/-- The seven octets an encode stores for a field: characters shifted and padded with 0x40, and the SSID octet
with its reserved bits 0 (R52, R53, R63). -/
abbrev storedField (m : Memory) (off : Nat) (call : List Byte) (ssid : Nat) (flag cont : Bool) : Prop :=
  (∀ i < 6, Memory.read m (off + i) = (call.map (fun (c : Byte) => c <<< 1)).getD i 0x40#8) ∧
    Memory.read m (off + 6) = BitVec.ofNat 8 (boolNat flag * 128 + ssid * 2 + boolNat cont)

/-- The six character octets from an offset hold no callsign the gate accepts (R82, R83): six spaces, or a
character that is not legal after case folding and is no trailing space. -/
abbrev illegalAt (m : Memory) (off : Nat) : Prop :=
  (∀ i < 6, Memory.read m (off + i) >>> 1 = 0x20#8) ∨
    ∃ i j, i ≤ j ∧ j < 6 ∧ legal (upcase (Memory.read m (off + i) >>> 1)) = false ∧
      Memory.read m (off + j) >>> 1 ≠ 0x20#8

/-! ## The rows of the control-field table -/

/-- The row of a frame kind under a modulo (R123 to R141). -/
def rowOf (mo : Modulo) : FrameKind → Instr
  | .i ns nr p => match mo with
    | .m8 => .iM8 ns nr p
    | .m128 => .iM128 ns nr p
  | .s fn nr p => match mo, fn with
    | .m8, .rr => .rrM8 nr p
    | .m8, .rnr => .rnrM8 nr p
    | .m8, .rej => .rejM8 nr p
    | .m8, .srej => .srejM8 nr p
    | .m128, .rr => .rrM128 nr p
    | .m128, .rnr => .rnrM128 nr p
    | .m128, .rej => .rejM128 nr p
    | .m128, .srej => .srejM128 nr p
  | .u m p => match m with
    | .sabm => .sabm p
    | .sabme => .sabme p
    | .disc => .disc p
    | .dm => .dm p
    | .ua => .ua p
    | .frmr => .frmr p
    | .ui => .ui p
    | .xid => .xid p
    | .test => .test p

/-- The rows of the unassigned U patterns (R63, R142), with their bit 4. -/
def unassignedRows (p : Bool) : List Instr :=
  [.unassigned04 p, .unassigned08 p, .unassigned20 p, .unassigned24 p, .unassigned28 p, .unassigned44 p,
    .unassigned48 p, .unassigned4C p, .unassigned64 p, .unassigned68 p, .unassigned80 p, .unassigned88 p] ++
  [.unassigned8C p, .unassignedA0 p, .unassignedA4 p, .unassignedA8 p, .unassignedC0 p, .unassignedC4 p,
    .unassignedC8 p, .unassignedCC p, .unassignedE4 p, .unassignedE8 p, .unassignedEC p]

/-! ## The invariant -/

/-- The invariant every step keeps: both buffers are in canonical form, and `STATUS` never holds
`UnknownFunction`, the error nothing raises (R143, R188). -/
abbrev Machine.StateInv (s : State) : Prop :=
  Memory.wf s.ibuf = true ∧ Memory.wf s.obuf = true ∧ s.status ≠ .error .unknownFunction

/-! ## The operations by what they read and write -/

/-- The thirteen operations (R16). -/
def operations : List Instr :=
  [.csCreate, .csDecode, .csEncode, .afDecode, .afEncode, .acDecode, .acEncode, .acDerive, .ctlDecode,
    .ctlEncode, .plCheck, .frameDecode, .frameEncode]

/-- A row of R16's table: a select code, its operation, and the operands it reads. -/
structure OperationRow where
  code     : BitVec 4
  instr    : Instr
  operands : List Operand
  deriving DecidableEq, Repr

/-- The table of R16. -/
def operationTable : List OperationRow :=
  [⟨0x1, .csCreate, [.station]⟩,
    ⟨0x2, .csDecode, [.ibuf]⟩,
    ⟨0x3, .csEncode, [.station]⟩,
    ⟨0x4, .afDecode, [.ibuf]⟩,
    ⟨0x5, .afEncode, [.station, .flagBit, .continuationBit]⟩,
    ⟨0x6, .acDecode, [.ibuf]⟩,
    ⟨0x7, .acEncode, [.addresses]⟩,
    ⟨0x8, .acDerive, [.addresses]⟩,
    ⟨0x9, .ctlDecode, [.ibuf, .mod]⟩,
    ⟨0xA, .ctlEncode, [.kind, .mod]⟩,
    ⟨0xB, .plCheck, [.kind, .ibuf]⟩,
    ⟨0xC, .frameDecode, [.ibuf, .mod]⟩,
    ⟨0xD, .frameEncode, [.addresses, .kind, .payload, .mod]⟩]

/-- The operations that read `MOD` (R11, R17). -/
def modReaders : List Instr := [.ctlDecode, .ctlEncode, .frameDecode, .frameEncode]

/-- The operations that read the input buffer (R11, R30). -/
def inputReaders : List Instr := [.csDecode, .afDecode, .acDecode, .ctlDecode, .plCheck, .frameDecode]

/-- The operations that read the input record (R11). -/
def recordReaders : List Instr :=
  [.csCreate, .csEncode, .afEncode, .acEncode, .acDerive, .ctlEncode, .plCheck, .frameEncode]

/-- The operations whose input record is a station, or holds one beside two bits (R16). -/
def stationReaders : List Instr := [.csCreate, .csEncode, .afEncode]

/-- The operations whose input record is a chain, or holds one (R16). -/
def chainReaders : List Instr := [.acEncode, .acDerive, .frameEncode]

/-- The operations whose input record is a frame kind, or holds one (R16). -/
def kindReaders : List Instr := [.ctlEncode, .plCheck, .frameEncode]

/-- Two states agree on the operands an operation reads, and perhaps on nothing else (R10, R16); chains are
compared by R104, without their continuation bits (D16). -/
abbrev sameOperands (i : Instr) (s u : State) : Prop :=
  (i ∈ modReaders → s.mod = u.mod) ∧
  (i ∈ inputReaders → inputOctets s = inputOctets u) ∧
  (i ∈ stationReaders → s.irec.station = u.irec.station) ∧
  (i = .afEncode → s.irec.flagBit = u.irec.flagBit ∧ s.irec.continuationBit = u.irec.continuationBit) ∧
  (i ∈ chainReaders → sameChain s.irec.addresses u.irec.addresses = true) ∧
  (i ∈ kindReaders → s.irec.kind = u.irec.kind) ∧
  (i = .frameEncode → s.irec.payload = u.irec.payload)

/-- The operations that write the output record (R11). -/
def recordWriters : List Instr :=
  [.csCreate, .csDecode, .afDecode, .acDecode, .acDerive, .ctlDecode, .frameDecode]

/-- The operations that write the output buffer (R11, R30). -/
def bufferWriters : List Instr := [.csEncode, .afEncode, .acEncode, .ctlEncode, .plCheck, .frameEncode]

/-- The operations that write `CONSUMED` (R11). -/
def consumedWriters : List Instr := [.acDecode, .ctlDecode]

/-! ## What a bounded implementation cannot hold (D4, D5, U11) -/

/-- A number is above a bound, where there is one. -/
abbrev exceeds (bound : Option Nat) (n : Nat) : Prop := ∃ b, bound = some b ∧ b < n

/-- A number is too wide for a width in bits, where there is one. -/
abbrev overflows (bits : Option Nat) (n : Nat) : Prop := ∃ k, bits = some k ∧ 2 ^ k ≤ n

/-- The sequence numbers of a frame kind (R13). -/
def sequenceNumbers : FrameKind → List Nat
  | .i ns nr _ => [ns, nr]
  | .s _ nr _ => [nr]
  | .u _ _ => []

/-- Some operand an operation reads is beyond a parameter: the input or the payload beyond `MAX_FRAME_OCTETS`, a
chain beyond `MAX_ADDR_ENTRIES`, a station beyond `CALL_IN_MAX` or `SSID_IN_BITS`, or a sequence number of an
encode beyond `SEQ_IN_BITS`. -/
abbrev operandBeyond (lim : Config.Limits) (i : Instr) (s : State) : Prop :=
  (i ∈ inputReaders ∧ exceeds lim.maxFrameOctets s.ilen) ∨
  (i = .frameEncode ∧ exceeds lim.maxFrameOctets s.irec.payload.length) ∨
  (i ∈ chainReaders ∧ exceeds lim.maxAddrEntries s.irec.addresses.entries.length) ∨
  (∃ v : Station,
    ((i ∈ stationReaders ∧ v = s.irec.station) ∨
      (i ∈ chainReaders ∧ ∃ f ∈ s.irec.addresses.entries, v = f.station)) ∧
    (exceeds lim.callBound v.callSign.length ∨ overflows lim.ssidWidth v.ssid)) ∨
  (i ∈ [Instr.ctlEncode, .frameEncode] ∧ ∃ n ∈ sequenceNumbers s.irec.kind, overflows lim.seqWidth n)

/-- The result an operation would deliver is beyond a parameter: the output beyond `MAX_FRAME_OCTETS`, or a
decoded chain beyond `MAX_ADDR_ENTRIES`. -/
abbrev resultBeyond (lim : Config.Limits) (i : Instr) (t : State) : Prop :=
  t.status = .ok ∧
    ((i ∈ bufferWriters ∧ exceeds lim.maxFrameOctets t.olen) ∨
      (i = .acDecode ∧ ∃ c d, t.orec = .chain c d ∧ exceeds lim.maxAddrEntries c.entries.length) ∨
      (i = .frameDecode ∧ ∃ f d, t.orec = .frame f d ∧ exceeds lim.maxAddrEntries f.addresses.entries.length))

/-! ## The errors of the operations -/

/-- The errors an operation can return: the columns of R203's matrix. A row that is no operation is decoded by
`CTL.DECODE`, and an unassigned pattern's error is `UnknownModifier` (R142). -/
def errorColumn : Instr → List Err
  | .csCreate | .csEncode | .afEncode | .acEncode =>
    [.ssidOutOfRange, .callSignTooLong, .invalidCharacters]
  | .csDecode | .afDecode => [.invalidCharacters, .wrongFieldLength]
  | .acDecode => [.invalidCharacters, .truncatedAddressChain, .addressChainTooShort]
  | .acDerive => []
  | .ctlDecode => [.shortControlField, .unknownModifier]
  | .ctlEncode => [.sequenceNumberOutOfRange]
  | .plCheck => [.missingProtocolId, .invalidFrmrLength, .unexpectedTrailingData]
  | .frameDecode =>
    [.invalidCharacters, .truncatedAddressChain, .addressChainTooShort, .shortControlField, .unknownModifier,
      .missingProtocolId, .invalidFrmrLength, .unexpectedTrailingData, .frameTooShort]
  | .frameEncode =>
    [.ssidOutOfRange, .callSignTooLong, .invalidCharacters, .missingProtocolId, .invalidFrmrLength,
      .unexpectedTrailingData, .sequenceNumberOutOfRange]
  | .addrChar _ | .addrSsid _ _ _ => []
  | .iM8 _ _ _ | .rrM8 _ _ | .rnrM8 _ _ | .rejM8 _ _ | .srejM8 _ _ => []
  | .iM128 _ _ _ | .rrM128 _ _ | .rnrM128 _ _ | .rejM128 _ _ | .srejM128 _ _ => []
  | .sabm _ | .sabme _ | .disc _ | .dm _ | .ua _ | .frmr _ | .ui _ | .xid _ | .test _ => []
  | .unassigned04 _ | .unassigned08 _ | .unassigned20 _ | .unassigned24 _ | .unassigned28 _
  | .unassigned44 _ | .unassigned48 _ | .unassigned4C _ | .unassigned64 _ | .unassigned68 _
  | .unassigned80 _ | .unassigned88 _ | .unassigned8C _ | .unassignedA0 _ | .unassignedA4 _
  | .unassignedA8 _ | .unassignedC0 _ | .unassignedC4 _ | .unassignedC8 _ | .unassignedCC _
  | .unassignedE4 _ | .unassignedE8 _ | .unassignedEC _ => [.unknownModifier]

end Sys2Proof
end

