-- ==== Sys2Proof/Certificates/Slice0/Obligations.lean ====
section
/-! DEFINITION. The statements for the provers. Each docstring names the rules of the spec it formalises; a
clause that rests on a choice of the model names its notes entry. -/

open Sys2Proof Sys2Proof.Machine

/-! ## Reset, the host, and one step -/

/-- R20, R210, R212: after reset `STATUS` is `IDLE`, code 0xFF, and the host has written no operand. (The other
registers' values after reset are the model's choice, notes entry 4, and nothing is stated of them; the record of
what is written is the model's own, notes entry 7.) -/
def Obligations.ResetLeavesStatusIdle : Prop :=
  State.reset.status = .idle ∧ Status.code State.reset.status = 0xFF#8 ∧
    ∀ o : Operand, State.reset.written.has o = false

/-- The invariant holds at reset: the buffers are canonical and `STATUS` is not `UnknownFunction`. -/
def Obligations.ResetMeetsInvariant : Prop := StateInv State.reset

/-- R180, R20: the numeric codes of `STATUS`, and no two values share one. -/
def Obligations.StatusCodesAreTheTable : Prop :=
  Status.code .ok = 0x00 ∧ Status.code .idle = 0xFF ∧
  [Err.ssidOutOfRange, .callSignTooLong, .invalidCharacters, .wrongFieldLength, .truncatedAddressChain,
    .addressChainTooShort, .shortControlField, .unknownFunction, .unknownModifier, .missingProtocolId,
    .invalidFrmrLength, .unexpectedTrailingData, .frameTooShort, .sequenceNumberOutOfRange].map Err.code =
    [0x01, 0x02, 0x03, 0x04, 0x05, 0x06, 0x07, 0x08, 0x09, 0x0A, 0x0B, 0x0C, 0x0D, 0x0E] ∧
  ∀ x y : Status, Status.code x = Status.code y → x = y

/-- R16, R217: for each of the thirteen rows of R16's table, with the row's select code in `OP`, one step is the
row's operation, run on the state as it stands: every operation runs, in every state. (A run on an operand the host
has not written, which the spec gives no meaning, R212, runs on the value the register holds: the model's choice,
notes entry 7.) -/
def Obligations.StepRunsSelectedOperation : Prop :=
  ∀ row ∈ operationTable, ∀ s : State, s.op = row.code → step s = exec row.instr s

/-- U9, R16: the codes 0x0, 0xE and 0xF select nothing, and a step refuses there. That it refuses on no other
ground, so not because the host has not written `OP` or an operand, is the model's choice (notes entry 7, a DESIGN
CHOICE): R212 and U14 give such a run no meaning, and U14's treatment is `refuse`. -/
def Obligations.StepRefusesExactlyUnassignedCodes : Prop :=
  (∀ s : State, s.op = 0x0 ∨ s.op = 0xE ∨ s.op = 0xF → step s = .refused (.unassignedOp s.op)) ∧
  (∀ (s : State) (r : Refusal), step s = .refused r → s.op = 0x0 ∨ s.op = 0xE ∨ s.op = 0xF)

/-- R120, R123 to R142: with `CTL.DECODE` selected, a step runs the row of the opcode table that the control
field at the start of `IBUF` decodes to under `MOD`. This ties the table's masks and bit positions
(`Decode.lean`) to the masks and shifts of the operation (`Machine/Control.lean`). That running a row as an
instruction means this, and that the step runs also where the host has not written an operand (R212, U14), are the
model's choices (notes entries 1 and 7). -/
def Obligations.StepRunsTheControlRow : Prop :=
  ∀ (s : State) (i : Instr) (rest : List Byte), s.op = 0x9 →
    decode (.control s.mod) (inputOctets s) = .ok (i, rest) → step s = exec i s

/-- R8, R38, R143: every step keeps the buffers canonical and never leaves `UnknownFunction` in `STATUS`,
whatever the implementation's parameters. -/
def Obligations.EveryStepKeepsInvariant : Prop :=
  (∀ s t : State, StateInv s → step s = .next t → StateInv t) ∧
  (∀ (lim : Config.Limits) (s t : State), StateInv s → stepWith lim s = .next t → StateInv t)

/-- R11, R30, R44, R210, R212: what the host does between operations keeps the invariant; what it writes is what
the next operation reads, and is recorded as written; the order of the writes makes no difference; a reset leaves
`STATUS` `IDLE` and no operand written. The host has done its duty for a row of R16's table exactly when it has
written `OP` and each of the row's operands, and a step leaves that as it is. (The record of what is written is the
model's own, notes entry 7.) -/
def Obligations.HostActionsKeepInvariant : Prop :=
  (∀ s : State, StateInv s →
    (∀ code, StateInv (hostWriteOp code s) ∧ (hostWriteOp code s).op = code ∧
      (hostWriteOp code s).written = { s.written with op := true }) ∧
    (∀ mo, StateInv (hostWriteMod mo s) ∧ (hostWriteMod mo s).mod = mo ∧
      (hostWriteMod mo s).written = { s.written with mod := true }) ∧
    (∀ b, StateInv (hostWriteInput b s) ∧ inputOctets (hostWriteInput b s) = b ∧
      (hostWriteInput b s).written = { s.written with ibuf := true }) ∧
    (∀ v, StateInv (hostWriteStation v s) ∧ (hostWriteStation v s).irec = { s.irec with station := v } ∧
      (hostWriteStation v s).written = { s.written with station := true }) ∧
    (∀ f, StateInv (hostWriteField f s) ∧
      (hostWriteField f s).irec =
        { s.irec with station := f.station, flagBit := f.flagBit, continuationBit := f.continuationBit } ∧
      (hostWriteField f s).written =
        { s.written with station := true, flagBit := true, continuationBit := true }) ∧
    (∀ c, StateInv (hostWriteChain c s) ∧ (hostWriteChain c s).irec = { s.irec with addresses := c } ∧
      (hostWriteChain c s).written = { s.written with addresses := true }) ∧
    (∀ k, StateInv (hostWriteKind k s) ∧ (hostWriteKind k s).irec = { s.irec with kind := k } ∧
      (hostWriteKind k s).written = { s.written with kind := true }) ∧
    (∀ f, StateInv (hostWriteFrame f s) ∧ frameOperand (hostWriteFrame f s) = f ∧
      (hostWriteFrame f s).written = { s.written with addresses := true, kind := true, payload := true }) ∧
    (∀ r, StateInv (hostWriteRecord r s) ∧ (hostWriteRecord r s).irec = r ∧
      ∀ o, (hostWriteRecord r s).written.has o = (s.written.has o || decide (o ∉ [.op, .mod, .ibuf]))) ∧
    StateInv (hostReset s) ∧ (hostReset s).status = .idle ∧ ∀ o, (hostReset s).written.has o = false) ∧
  (∀ (s : State) (code : BitVec 4) (mo : Modulo) (b : List Byte) (r : IRec),
    hostWriteOp code (hostWriteMod mo s) = hostWriteMod mo (hostWriteOp code s) ∧
    hostWriteOp code (hostWriteInput b s) = hostWriteInput b (hostWriteOp code s) ∧
    hostWriteOp code (hostWriteRecord r s) = hostWriteRecord r (hostWriteOp code s) ∧
    hostWriteMod mo (hostWriteInput b s) = hostWriteInput b (hostWriteMod mo s) ∧
    hostWriteMod mo (hostWriteRecord r s) = hostWriteRecord r (hostWriteMod mo s) ∧
    hostWriteInput b (hostWriteRecord r s) = hostWriteRecord r (hostWriteInput b s)) ∧
  (∀ row ∈ operationTable, ∀ s : State,
    (operandsWritten row.instr s = true ↔ s.written.op = true ∧ ∀ o ∈ row.operands, s.written.has o = true) ∧
    operandsWritten row.instr State.reset = false ∧ operandsWritten row.instr (hostReset s) = false ∧
    ∀ t : State, step s = .next t → operandsWritten row.instr t = operandsWritten row.instr s)

/-- U11, R6, D4, D5: a selected operation, under any finite parameters. The step refuses
exactly where an operand the operation reads, or the result it would deliver, is beyond a parameter
(`operandBeyond`, `resultBeyond`: every one of the five parameters), and otherwise it is the operation; the default
parameters refuse nothing on this ground. Every implementation can be presented what its least widths are for: a
callsign of 7 characters and an SSID of 16 to `CS.CREATE`, and a sequence number of 128 to `CTL.ENCODE`, which it
refuses by the typed error. That a successful result beyond a bound is refused, that a decode which ends in an error
reports it whatever the length of the chain in the buffer, and that `AC.DERIVE`'s stations are held to the bounds of
a raw one, is the model's choice (notes entry 11); so is that the operation runs also where the host has not written
an operand (notes entry 7). -/
def Obligations.BoundedImplementationsRefuseWhatTheyCannotHold : Prop :=
  (∀ (lim : Config.Limits) (i : Instr) (s t : State), selectOp s.op = .ok i → exec i s = .next t →
    (operandBeyond lim i s ∨ resultBeyond lim i t → stepWith lim s = .refused .notPresentable) ∧
    (¬ (operandBeyond lim i s ∨ resultBeyond lim i t) → stepWith lim s = .next t)) ∧
  (∀ s : State, step s ≠ .refused .notPresentable) ∧
  (∀ (lim : Config.Limits) (s : State), s.op = 0x1 →
    s.irec.station.callSign.length ≤ 7 → s.irec.station.ssid ≤ 16 → stepWith lim s = exec .csCreate s) ∧
  (∀ (lim : Config.Limits) (s t : State), s.op = 0xA →
    (∀ n ∈ sequenceNumbers s.irec.kind, n ≤ 128) →
    exec .ctlEncode s = .next t → t.status ≠ .ok → stepWith lim s = .next t)

/-! ## Whole-machine rules -/

/-- R15: every instruction writes `STATUS`, with `OK` or one error and never `IDLE`, and none reads the
`STATUS` an earlier one left. -/
def Obligations.StatusIsWrittenByAllAndReadByNone : Prop :=
  ∀ (i : Instr) (s : State),
    (∃ t, exec i s = .next t ∧ (t.status = .ok ∨ ∃ e, t.status = .error e)) ∧
    (∀ st : Status, exec i { s with status := st } = exec i s)

/-- R8, R165: no step faults, whatever the implementation's parameters. -/
def Obligations.NoStepFaults : Prop :=
  ∀ (lim : Config.Limits) (s : State) (f : Fault), stepWith lim s ≠ .fault f

/-- R30, R33, R37, R195: no instruction writes an operand register, whether it succeeds or ends in an error:
`OP`, `MOD`, `ILEN`, `IREC` and every octet of `IBUF` are unchanged, and so is the model's own record of what the
host has written (notes entry 7). -/
def Obligations.NoInstructionWritesAnOperand : Prop :=
  ∀ (i : Instr) (s t : State), exec i s = .next t →
    t.op = s.op ∧ t.mod = s.mod ∧ t.ilen = s.ilen ∧ t.irec = s.irec ∧ t.written = s.written ∧
      ∀ a : Nat, Memory.read t.ibuf a = Memory.read s.ibuf a

/-- R11: the frame of the instructions that deliver a record alone (`CS.CREATE`, `CS.DECODE`, `AF.DECODE`,
`AC.DERIVE`, `FRAME.DECODE`, and the two address-octet rows): on success `OLEN`, `CONSUMED`, the model's
counter and every octet of `OBUF` are unchanged (notes entry 6). -/
def Obligations.RecordResultsLeaveTheRest : Prop :=
  ∀ (code ssid : Nat) (f e : Bool) (i : Instr) (s t : State),
    i ∈ [Instr.csCreate, .csDecode, .afDecode, .acDerive, .frameDecode, .addrChar code, .addrSsid f ssid e] →
    exec i s = .next t → t.status = .ok →
      t.olen = s.olen ∧ t.consumed = s.consumed ∧ t.freeCount = s.freeCount ∧
        ∀ a : Nat, Memory.read t.obuf a = Memory.read s.obuf a

/-- R11, R14: the frame of the instructions that deliver a record and `CONSUMED` (`AC.DECODE`, `CTL.DECODE`
and the nineteen frame types): on success `OLEN`, the model's counter and every octet of `OBUF` are unchanged
(notes entry 6). -/
def Obligations.ConsumedResultsLeaveTheRest : Prop :=
  ∀ (i : Instr) (s t : State), (i = .acDecode ∨ i = .ctlDecode ∨ ∃ mo k, i = rowOf mo k) →
    exec i s = .next t → t.status = .ok →
      t.olen = s.olen ∧ t.freeCount = s.freeCount ∧
        ∀ a : Nat, Memory.read t.obuf a = Memory.read s.obuf a

/-- R11, R45: the frame of the operations that deliver octets (`CS.ENCODE`, `AF.ENCODE`, `AC.ENCODE`,
`CTL.ENCODE`, `PL.CHECK`, `FRAME.ENCODE`): on success `OREC`, `CONSUMED`, the model's counter and every octet
of `OBUF` outside offsets 0 to `OLEN - 1` are unchanged (notes entries 6 and 12). -/
def Obligations.OctetResultsLeaveTheRest : Prop :=
  ∀ (i : Instr) (s t : State), i ∈ bufferWriters → exec i s = .next t → t.status = .ok →
    t.orec = s.orec ∧ t.consumed = s.consumed ∧ t.freeCount = s.freeCount ∧
      ∀ a : Nat, t.olen ≤ a → Memory.read t.obuf a = Memory.read s.obuf a

/-- R203: which operation can return which error. A filled cell of the matrix is an error some operands give,
a blank cell one that no operands give. -/
def Obligations.ErrorMatrixIsExact : Prop :=
  ∀ i ∈ operations, ∀ e : Err,
    e ∈ errorColumn i ↔ ∃ s t : State, exec i s = .next t ∧ t.status = .error e

/-- R143: no input to any operation yields `UnknownFunction`, which keeps its code 0x08 in the table. -/
def Obligations.UnknownFunctionIsNeverReturned : Prop :=
  (∀ (i : Instr) (s t : State), exec i s = .next t → t.status ≠ .error .unknownFunction) ∧
  Err.code .unknownFunction = 0x08

/-- R10, R167: the result of an operation is a function of that operation's own operands alone. Two states that
agree on the operands the operation reads (`sameOperands`: `MOD`, the input octets, and the homes of the input
record, each only for the operations that read it), and perhaps on nothing else, give the same `STATUS`, and the
same results where it is `OK`. -/
def Obligations.ResultsDependOnOperandsAlone : Prop :=
  ∀ i ∈ operations, ∀ s u t v : State, StateInv s → StateInv u → sameOperands i s u →
    exec i s = .next t → exec i u = .next v →
      t.status = v.status ∧
      (t.status = .ok →
        (i ∈ recordWriters → t.orec = v.orec) ∧
        (i ∈ bufferWriters → t.olen = v.olen ∧ outputOctets t = outputOctets v) ∧
        (i ∈ consumedWriters → t.consumed = v.consumed))

/-- R11, R17, D16: an operation ignores the operands it does not read: `MOD` is ignored by nine operations,
the input buffer by every operation but six, the input record by every operation but eight. -/
def Obligations.UnreadOperandsAreIgnored : Prop :=
  ∀ i ∈ operations, ∀ s t : State, exec i s = .next t →
    (i ∉ modReaders → ∀ mo, exec i { s with mod := mo } = .next { t with mod := mo }) ∧
    (i ∉ inputReaders → ∀ m n,
      exec i { s with ibuf := m, ilen := n } = .next { t with ibuf := m, ilen := n }) ∧
    (i ∉ recordReaders → ∀ r, exec i { s with irec := r } = .next { t with irec := r })

/-! ## The control field -/

/-- R54: the kind is decided by the low bits of the first control octet and by nothing else: for every buffer
that holds the control field, under either modulo. -/
def Obligations.KindIsDecidedByTheLowBits : Prop :=
  ∀ s : State, 1 ≤ s.ilen →
    (s.mod = .m128 → Memory.read s.ibuf 0 &&& 0b11#8 ≠ 0b11#8 → 2 ≤ s.ilen) →
    ∃ t, exec .ctlDecode s = .next t ∧
      (Memory.read s.ibuf 0 &&& 0b1#8 = 0b0#8 →
        t.status = .ok ∧ ∃ ns nr p, t.orec = .kind (.i ns nr p)) ∧
      (Memory.read s.ibuf 0 &&& 0b11#8 = 0b01#8 →
        t.status = .ok ∧ ∃ fn nr p, t.orec = .kind (.s fn nr p)) ∧
      (Memory.read s.ibuf 0 &&& 0b11#8 = 0b11#8 →
        (t.status = .ok ∧ ∃ m p, t.orec = .kind (.u m p)) ∨ t.status = .error .unknownModifier)

/-- R55, R56, R123, R124: `CTL.DECODE` of an I control field, under either modulo, in octet terms. -/
def Obligations.InformationControlFieldsDecode : Prop :=
  (∀ s : State, s.mod = .m8 → 1 ≤ s.ilen → (Memory.read s.ibuf 0).getLsbD 0 = false →
    exec .ctlDecode s = .next { s with
      status := .ok
      orec := .kind (.i ((Memory.read s.ibuf 0).extractLsb' 1 3).toNat
        ((Memory.read s.ibuf 0).extractLsb' 5 3).toNat ((Memory.read s.ibuf 0).getLsbD 4))
      consumed := 1 }) ∧
  (∀ s : State, s.mod = .m128 → 2 ≤ s.ilen → (Memory.read s.ibuf 0).getLsbD 0 = false →
    exec .ctlDecode s = .next { s with
      status := .ok
      orec := .kind (.i (Memory.read s.ibuf 0 >>> 1).toNat (Memory.read s.ibuf 1 >>> 1).toNat
        ((Memory.read s.ibuf 1).getLsbD 0))
      consumed := 2 })

/-- R57, R58, R61, R125 to R132: `CTL.DECODE` of an S control field, under either modulo, in octet terms; under
modulo-128 bits 7:4 of the first octet are not looked at. -/
def Obligations.SupervisoryControlFieldsDecode : Prop :=
  ∀ (fn : SFunction) (func : Nat), (func, fn) ∈ [(0, SFunction.rr), (1, .rnr), (2, .rej), (3, .srej)] →
  (∀ s : State, s.mod = .m8 → 1 ≤ s.ilen →
    Memory.read s.ibuf 0 &&& 0b0000_1111#8 = BitVec.ofNat 8 (func * 4 + 1) →
    exec .ctlDecode s = .next { s with
      status := .ok
      orec := .kind (.s fn ((Memory.read s.ibuf 0).extractLsb' 5 3).toNat ((Memory.read s.ibuf 0).getLsbD 4))
      consumed := 1 }) ∧
  (∀ s : State, s.mod = .m128 → 2 ≤ s.ilen →
    Memory.read s.ibuf 0 &&& 0b0000_1111#8 = BitVec.ofNat 8 (func * 4 + 1) →
    exec .ctlDecode s = .next { s with
      status := .ok
      orec := .kind (.s fn (Memory.read s.ibuf 1 >>> 1).toNat ((Memory.read s.ibuf 1).getLsbD 0))
      consumed := 2 })

/-- R60, R133 to R141, R147: `CTL.DECODE` of the eighteen U octets, the same under either modulo. -/
def Obligations.UnnumberedControlFieldsDecode : Prop :=
  ∀ (m : UModifier) (p0 p1 : Byte),
    (m, p0, p1) ∈ [(UModifier.sabme, 0x6F#8, 0x7F#8), (.sabm, 0x2F#8, 0x3F#8), (.disc, 0x43#8, 0x53#8),
      (.dm, 0x0F#8, 0x1F#8), (.ua, 0x63#8, 0x73#8), (.frmr, 0x87#8, 0x97#8), (.ui, 0x03#8, 0x13#8),
      (.xid, 0xAF#8, 0xBF#8), (.test, 0xE3#8, 0xF3#8)] →
    ∀ (p : Bool) (s : State), 1 ≤ s.ilen → Memory.read s.ibuf 0 = (if p then p1 else p0) →
      exec .ctlDecode s = .next { s with status := .ok, orec := .kind (.u m p), consumed := 1 }

/-- R189, R142: `CTL.DECODE` ends with `UnknownModifier` exactly when the first control octet has low bits 11
and its modifier bits match none of the nine patterns; 46 of the 256 octet values do. -/
def Obligations.UnknownModifierExactly : Prop :=
  (∀ s t : State, exec .ctlDecode s = .next t →
    (t.status = .error .unknownModifier ↔
      1 ≤ s.ilen ∧ Memory.read s.ibuf 0 &&& 0b11#8 = 0b11#8 ∧
        Memory.read s.ibuf 0 &&& 0b1110_1100#8 ∉
          [0x6C#8, 0x2C#8, 0x40#8, 0x0C#8, 0x60#8, 0x84#8, 0x00#8, 0xAC#8, 0xE0#8])) ∧
  (List.range 256).countP (fun n => BitVec.ofNat 8 n &&& 0b11#8 == 0b11#8 &&
    !([0x6C#8, 0x2C#8, 0x40#8, 0x0C#8, 0x60#8, 0x84#8, 0x00#8, 0xAC#8, 0xE0#8].contains
      (BitVec.ofNat 8 n &&& 0b1110_1100#8))) = 46

/-- R187: `CTL.DECODE` ends with `ShortControlField` exactly when no octet is there, or only the first octet
of a modulo-128 I or S control field is. That the empty control field and the modulo-128 S field end so is the
spec's decision D10 (notes entry 16). -/
def Obligations.ShortControlFieldExactly : Prop :=
  ∀ s t : State, exec .ctlDecode s = .next t →
    (t.status = .error .shortControlField ↔
      s.ilen = 0 ∨ (s.ilen = 1 ∧ s.mod = .m128 ∧ Memory.read s.ibuf 0 &&& 0b11#8 ≠ 0b11#8))

/-- R122, R194: an encode refuses a sequence number above 7 under modulo-8 and above 127 under modulo-128.
`FRAME.ENCODE` does so once every station has passed the gate: that order is R164's and R197's, by the spec's
decision D14 (notes entry 16). -/
def Obligations.SequenceNumberOutOfRangeExactly : Prop :=
  (∀ s t : State, exec .ctlEncode s = .next t →
    (t.status = .error .sequenceNumberOutOfRange ↔
      ∃ v, ((∃ nr p, s.irec.kind = .i v nr p) ∨ (∃ ns p, s.irec.kind = .i ns v p) ∨
          (∃ fn p, s.irec.kind = .s fn v p)) ∧
        ((s.mod = .m8 ∧ 7 < v) ∨ (s.mod = .m128 ∧ 127 < v)))) ∧
  (∀ s t : State, exec .frameEncode s = .next t →
    (t.status = .error .sequenceNumberOutOfRange ↔
      (∀ f ∈ s.irec.addresses.entries, f.station.Acceptable) ∧
      ∃ v, ((∃ nr p, s.irec.kind = .i v nr p) ∨ (∃ ns p, s.irec.kind = .i ns v p) ∨
          (∃ fn p, s.irec.kind = .s fn v p)) ∧
        ((s.mod = .m8 ∧ 7 < v) ∨ (s.mod = .m128 ∧ 127 < v))))

/-- R121, R123 to R141: `CTL.ENCODE` of a frame kind in range completes and stores the octets that the opcode
table's row of that kind encodes to. -/
def Obligations.ControlEncodeStoresTheRow : Prop :=
  ∀ s : State, StateInv s → s.irec.kind.inRange s.mod = true →
    ∃ t, exec .ctlEncode s = .next t ∧ t.status = .ok ∧
      t.olen = (encode (rowOf s.mod s.irec.kind)).length ∧
      outputOctets t = encode (rowOf s.mod s.irec.kind)

/-- R145: decoding an encoded frame kind gives it back with `CONSUMED = OLEN`; encoding a decoded one gives the
consumed octets back, except for a modulo-128 S control field whose first octet has a bit of 7:4 set. -/
def Obligations.ControlFieldRoundTrip : Prop :=
  (∀ s : State, StateInv s → s.irec.kind.inRange s.mod = true →
    ∃ t, exec .ctlEncode s = .next t ∧ t.status = .ok ∧
      ∀ u : State, u.mod = s.mod → inputOctets u = outputOctets t →
        exec .ctlDecode u = .next { u with status := .ok, orec := .kind s.irec.kind, consumed := t.olen }) ∧
  (∀ (s t u : State) (k : FrameKind), exec .ctlDecode s = .next t → t.status = .ok → t.orec = .kind k →
    StateInv u → u.mod = s.mod → u.irec.kind = k →
    ∃ v, exec .ctlEncode u = .next v ∧ v.status = .ok ∧
      (outputOctets v = (inputOctets s).take t.consumed ↔
        ¬ (s.mod = .m128 ∧ (∃ fn nr p, k = .s fn nr p) ∧ Memory.read s.ibuf 0 &&& 0b1111_0000#8 ≠ 0#8)))

/-- R144, R147: `MOD` changes nothing for a U control field, decoded or encoded. -/
def Obligations.UnnumberedControlFieldsIgnoreModulo : Prop :=
  (∀ s t : State, 1 ≤ s.ilen → Memory.read s.ibuf 0 &&& 0b11#8 = 0b11#8 →
    exec .ctlDecode { s with mod := .m8 } = .next t →
    exec .ctlDecode { s with mod := .m128 } = .next { t with mod := .m128 }) ∧
  (∀ (s t : State) (m : UModifier) (p : Bool), s.irec.kind = .u m p →
    exec .ctlEncode { s with mod := .m8 } = .next t →
    exec .ctlEncode { s with mod := .m128 } = .next { t with mod := .m128 })

/-! ## Callsigns and address fields -/

/-- R81, R82: the case folding and the legal characters, as the rules' ranges of codes. That the folding is of the
ASCII letters alone is the spec's decision D6 (notes entry 16). -/
def Obligations.CharacterTables : Prop :=
  (∀ c : Byte, legal c = true ↔ (0x41 ≤ c.toNat ∧ c.toNat ≤ 0x5A) ∨ (0x30 ≤ c.toNat ∧ c.toNat ≤ 0x39)) ∧
  (∀ c : Byte, (upcase c).toNat =
    if 0x61 ≤ c.toNat ∧ c.toNat ≤ 0x7A then c.toNat - 0x20 else c.toNat)

/-- R80: the gate. It accepts exactly an SSID of at most 15 with 1 to 6 characters that are legal after case
folding, and gives the folded value; otherwise it reports the first of `SsidOutOfRange`, `CallSignTooLong` and
`InvalidCharacters` that applies, in this order. The order of the checks is the spec's decision D7, and the name
of the empty callsign's error its decision D8 (notes entry 16). -/
def Obligations.GateAcceptsOrReportsInOrder : Prop :=
  ∀ s : State,
    (s.irec.station.Acceptable →
      exec .csCreate s = .next { s with
        status := .ok
        orec := .station ⟨s.irec.station.callSign.map upcase, s.irec.station.ssid⟩ }) ∧
    (∀ t, exec .csCreate s = .next t →
      (t.status = .error .ssidOutOfRange ↔ 15 < s.irec.station.ssid) ∧
      (t.status = .error .callSignTooLong ↔
        s.irec.station.ssid ≤ 15 ∧ 6 < s.irec.station.callSign.length) ∧
      (t.status = .error .invalidCharacters ↔
        s.irec.station.ssid ≤ 15 ∧ s.irec.station.callSign.length ≤ 6 ∧
          (s.irec.station.callSign = [] ∨ ∃ c ∈ s.irec.station.callSign, legal (upcase c) = false)))

/-- R83, R81, R63: `CS.DECODE` of seven octets that hold a valid station, its letters in either case, completes
with that station, whatever bit 0 of any octet and bits 7:5 of the last one are. -/
def Obligations.StationDecodeIgnoresUnreadBits : Prop :=
  ∀ (s : State) (v : Station), v.Valid → s.ilen = 7 → charsAt s.ibuf 0 v.callSign →
    ((Memory.read s.ibuf 6).extractLsb' 1 4).toNat = v.ssid →
    exec .csDecode s = .next { s with status := .ok, orec := .station v }

/-- R83, R100, R102, R183: `CS.DECODE` and `AF.DECODE` end with `InvalidCharacters` exactly on seven octets whose six
characters are all spaces, or among which some character is not legal after case folding and is no trailing space;
and `AC.DECODE` exactly when the first group that is no good field with its continuation bit clear is a whole group
that fails so. That a decoded station is checked, and how an empty one is named, are the spec's decisions D9 and D8
(notes entry 16). -/
def Obligations.DecodesRejectIllegalCharactersExactly : Prop :=
  (∀ (i : Instr) (s t : State), i = .csDecode ∨ i = .afDecode → exec i s = .next t →
    (t.status = .error .invalidCharacters ↔ s.ilen = 7 ∧ illegalAt s.ibuf 0)) ∧
  (∀ s t : State, exec .acDecode s = .next t →
    (t.status = .error .invalidCharacters ↔
      ∃ n, 7 * n + 7 ≤ s.ilen ∧ illegalAt s.ibuf (7 * n) ∧
        ∀ j < n, ¬ illegalAt s.ibuf (7 * j) ∧ (Memory.read s.ibuf (7 * j + 6)).getLsbD 0 = false))

/-- R100, R81: `AF.DECODE` of seven octets that hold an address field with a valid station, its letters in either
case, completes with that field, whatever the ignored bits are. -/
def Obligations.FieldDecodeReadsTheField : Prop :=
  ∀ (s : State) (f : AddressField), f.station.Valid → s.ilen = 7 → fieldAt s.ibuf 0 f →
    exec .afDecode s = .next { s with status := .ok, orec := .field f }

/-- R184: `WrongFieldLength` comes from `CS.DECODE` and `AF.DECODE` exactly when the slice is not seven octets,
and from no other instruction. -/
def Obligations.WrongFieldLengthExactly : Prop :=
  (∀ (i : Instr) (s t : State), i = .csDecode ∨ i = .afDecode → exec i s = .next t →
    (t.status = .error .wrongFieldLength ↔ s.ilen ≠ 7)) ∧
  (∀ (i : Instr) (s t : State), i ≠ .csDecode → i ≠ .afDecode → exec i s = .next t →
    t.status ≠ .error .wrongFieldLength)

/-- R84, R52, R53, R65: `CS.ENCODE` of a station the gate accepts completes and stores its seven octets: the folded
characters shifted by one, pads of 0x40, and the SSID octet with every other bit 0. It ends with an error exactly
when `CS.CREATE` of the same operand does, and with the same one: nothing is masked or truncated. -/
def Obligations.StationEncodeStoresSevenOctets : Prop :=
  (∀ s : State, StateInv s → s.irec.station.Acceptable →
    ∃ t, exec .csEncode s = .next t ∧ t.status = .ok ∧ t.olen = 7 ∧
      storedField t.obuf 0 (s.irec.station.callSign.map upcase) s.irec.station.ssid false false) ∧
  (∀ (s u t v : State) (e : Err), u.irec.station = s.irec.station →
    exec .csEncode s = .next t → exec .csCreate u = .next v →
      (t.status = .error e ↔ v.status = .error e) ∧ (t.status = .error e ↔ csCreate s.irec.station = .error e))

/-- R101, R65: `AF.ENCODE` of a station the gate accepts completes and stores its seven octets, with the flag and
continuation bits as given. It ends with an error exactly when `CS.CREATE` of the same station does, and with the
same one, whatever the two bits are. -/
def Obligations.FieldEncodeStoresSevenOctets : Prop :=
  (∀ s : State, StateInv s → s.irec.station.Acceptable →
    ∃ t, exec .afEncode s = .next t ∧ t.status = .ok ∧ t.olen = 7 ∧
      storedField t.obuf 0 (s.irec.station.callSign.map upcase) s.irec.station.ssid s.irec.flagBit
        s.irec.continuationBit) ∧
  (∀ (s u t v : State) (e : Err), u.irec.station = s.irec.station →
    exec .afEncode s = .next t → exec .csCreate u = .next v →
      (t.status = .error e ↔ v.status = .error e) ∧ (t.status = .error e ↔ csCreate s.irec.station = .error e))

/-- R85: decoding an encoded valid station gives it back; encoding a decoded one gives the seven octets back
exactly when bit 0 of every octet and bits 7:5 of the last are clear and no character is a lower-case
letter. -/
def Obligations.StationRoundTrip : Prop :=
  (∀ s : State, StateInv s → s.irec.station.Valid →
    ∃ t, exec .csEncode s = .next t ∧ t.status = .ok ∧
      ∀ u : State, inputOctets u = outputOctets t →
        exec .csDecode u = .next { u with status := .ok, orec := .station s.irec.station }) ∧
  (∀ (s t u : State) (v : Station), exec .csDecode s = .next t → t.status = .ok → t.orec = .station v →
    StateInv u → u.irec.station = v →
    ∃ w, exec .csEncode u = .next w ∧ w.status = .ok ∧
      (outputOctets w = inputOctets s ↔
        (∀ i < 7, (Memory.read s.ibuf i).getLsbD 0 = false) ∧
        Memory.read s.ibuf 6 &&& 0b1110_0000#8 = 0#8 ∧
        ∀ i < 6, ¬ (0x61 ≤ (Memory.read s.ibuf i >>> 1).toNat ∧ (Memory.read s.ibuf i >>> 1).toNat ≤ 0x7A)))

/-- R52, R53, R100: the fields `AF.DECODE` delivers are those that the opcode table's rows for the address
octets give: the SSID row's three fields, and each callsign character the folded code of its character row. -/
def Obligations.FieldDecodeAgreesWithItsOctetRows : Prop :=
  ∀ (s t : State) (f : AddressField), exec .afDecode s = .next t → t.status = .ok → t.orec = .field f →
    decode .addrSsid [Memory.read s.ibuf 6] =
      .ok (.addrSsid f.flagBit f.station.ssid f.continuationBit, []) ∧
    ∀ (i : Nat) (c : Byte), f.station.callSign[i]? = some c →
      ∃ code, decode .addrChar [Memory.read s.ibuf i] = .ok (.addrChar code, []) ∧
        c = upcase (BitVec.ofNat 8 code)

/-! ## Address chains -/

/-- R105, R106, R107, R108: `AC.DERIVE` completes on every chain and copies the stations: destination, source,
the digipeaters in order, those of them whose flag bit is set in the same order, and `Command` exactly when
the destination's flag bit is set. -/
def Obligations.DeriveGivesTheDerivedValues : Prop :=
  ∀ s : State,
    exec .acDerive s = .next { s with
      status := .ok
      orec := .derived
        { destination := s.irec.addresses.destination.station
          source := s.irec.addresses.source.station
          digipeaters := s.irec.addresses.digipeaters.map (fun f => f.station)
          repeatedBy := s.irec.addresses.digipeaters.filterMap
            (fun f => if f.flagBit then some f.station else none)
          commandResponse :=
            if s.irec.addresses.destination.flagBit then .command else .response } }

/-- R102: `AC.DECODE` of a buffer that begins with the fields of a valid chain, letters in either case, completes
with that chain, its derived values and `CONSUMED = 7n`, whatever the ignored bits are and whatever follows the
chain. -/
def Obligations.ChainDecodeReadsTheChain : Prop :=
  ∀ (s : State) (c : AddressChain), c.Valid → 7 * c.entries.length ≤ s.ilen → fieldsAt s.ibuf c.entries →
    exec .acDecode s = .next { s with
      status := .ok
      orec := .chain c (deriveChain c)
      consumed := 7 * c.entries.length }

/-- R186: `AC.DECODE` ends with `AddressChainTooShort` exactly when the first address field decodes and has its
continuation bit set. -/
def Obligations.ChainTooShortExactly : Prop :=
  ∀ s t : State, exec .acDecode s = .next t →
    (t.status = .error .addressChainTooShort ↔
      7 ≤ s.ilen ∧ ∃ f, afDecode (Memory.octets s.ibuf 0 7) = .ok f ∧ f.continuationBit = true)

/-- R185: `AC.DECODE` ends with `TruncatedAddressChain` exactly when fewer than seven octets remain after some
number of groups, each of which decodes and has its continuation bit clear. -/
def Obligations.ChainTruncatedExactly : Prop :=
  ∀ s t : State, exec .acDecode s = .next t →
    (t.status = .error .truncatedAddressChain ↔
      ∃ n, 7 * n ≤ s.ilen ∧ s.ilen < 7 * n + 7 ∧
        ∀ j < n, ∃ f, afDecode (Memory.octets s.ibuf (7 * j) 7) = .ok f ∧ f.continuationBit = false)

/-- R103, R104, R220: `AC.ENCODE` of a chain whose stations the gate accepts completes and stores seven octets for
each entry in order, the flag bits as supplied and the continuation bits forced: 0 on every entry but the
last, 1 on the last, whatever the operand's continuation bits are. So chains that are equal by R104 (the same
number of entries, and at every index the same callsign, SSID and flag bit, the continuation bit not compared) end
with the same error or give the same octets. -/
def Obligations.ChainEncodeForcesContinuationBits : Prop :=
  (∀ s : State, StateInv s → (∀ f ∈ s.irec.addresses.entries, f.station.Acceptable) →
    ∃ t, exec .acEncode s = .next t ∧ t.status = .ok ∧ t.olen = 7 * s.irec.addresses.entries.length ∧
      ∀ (j : Nat) (f : AddressField), s.irec.addresses.entries[j]? = some f →
        storedField t.obuf (7 * j) (f.station.callSign.map upcase) f.station.ssid f.flagBit
          (decide (j + 1 = s.irec.addresses.entries.length))) ∧
  (∀ c d : AddressChain, sameChain c d = true ↔
    c.entries.length = d.entries.length ∧
      ∀ (j : Nat) (f g : AddressField), c.entries[j]? = some f → d.entries[j]? = some g →
        f.station.callSign = g.station.callSign ∧ f.station.ssid = g.station.ssid ∧ f.flagBit = g.flagBit) ∧
  (∀ s u t v : State, StateInv s → StateInv u → sameChain s.irec.addresses u.irec.addresses = true →
    exec .acEncode s = .next t → exec .acEncode u = .next v →
      t.status = v.status ∧ (t.status = .ok → outputOctets t = outputOctets v))

/-- R103, R197: `AC.ENCODE` ends with an error exactly when some entry fails the gate, and the error is the
gate's for the first entry in chain order that fails it. -/
def Obligations.ChainEncodeReportsTheFirstGateError : Prop :=
  ∀ (s t : State) (e : Err), exec .acEncode s = .next t →
    (t.status = .error e ↔
      ∃ (j : Nat) (f : AddressField), s.irec.addresses.entries[j]? = some f ∧
        csCreate f.station = .error e ∧
        ∀ k < j, ∀ g, s.irec.addresses.entries[k]? = some g → g.station.Acceptable)

/-! ## Payloads and whole frames -/

/-- R161, R66: `PL.CHECK` completes for a payload whose length suits the frame kind, and gives it back
unchanged: at least one octet for I and UI, any length for XID and TEST, three octets for FRMR, none for every
other kind. -/
def Obligations.PayloadCheckPassesWhatFits : Prop :=
  ∀ s : State, StateInv s →
    (((∃ ns nr p, s.irec.kind = .i ns nr p) ∨ (∃ p, s.irec.kind = .u .ui p)) ∧ 1 ≤ s.ilen) ∨
    (∃ p, s.irec.kind = .u .xid p ∨ s.irec.kind = .u .test p) ∨
    ((∃ p, s.irec.kind = .u .frmr p) ∧ s.ilen = 3) ∨
    (((∃ fn nr p, s.irec.kind = .s fn nr p) ∨
      (∃ m p, s.irec.kind = .u m p ∧ m ∈ [UModifier.sabm, .sabme, .disc, .dm, .ua])) ∧ s.ilen = 0) →
    ∃ t, exec .plCheck s = .next t ∧ t.status = .ok ∧ t.olen = s.ilen ∧ outputOctets t = inputOctets s

/-- R190, R191, R192: the three errors of `PL.CHECK`, and exactly when each is raised. -/
def Obligations.PayloadErrorsExactly : Prop :=
  ∀ s t : State, exec .plCheck s = .next t →
    (t.status = .error .missingProtocolId ↔
      ((∃ ns nr p, s.irec.kind = .i ns nr p) ∨ (∃ p, s.irec.kind = .u .ui p)) ∧ s.ilen = 0) ∧
    (t.status = .error .invalidFrmrLength ↔ (∃ p, s.irec.kind = .u .frmr p) ∧ s.ilen ≠ 3) ∧
    (t.status = .error .unexpectedTrailingData ↔
      ((∃ fn nr p, s.irec.kind = .s fn nr p) ∨
        (∃ m p, s.irec.kind = .u m p ∧ m ∈ [UModifier.sabm, .sabme, .disc, .dm, .ua])) ∧ 1 ≤ s.ilen)

/-- R193: `FRAME.DECODE` ends with `FrameTooShort` exactly when `ILEN < 15`, whatever the buffer holds. -/
def Obligations.FrameTooShortExactly : Prop :=
  ∀ s t : State, exec .frameDecode s = .next t →
    (t.status = .error .frameTooShort ↔ s.ilen < 15)

/-- R163, R165, R197: on 15 octets or more, `FRAME.DECODE` is `AC.DECODE`, then `CTL.DECODE` on what follows
the chain, then `PL.CHECK` on what follows the control field, done by hand: the first stage that ends in an
error gives its error, and otherwise the frame is put together from the three results. -/
def Obligations.FrameDecodeIsItsStages : Prop :=
  ∀ s a : State, 15 ≤ s.ilen → exec .acDecode s = .next a →
    ∃ v, exec .frameDecode s = .next v ∧
      (a.status ≠ .ok → v.status = a.status) ∧
      (∀ (c : AddressChain) (d : Derived), a.status = .ok → a.orec = .chain c d →
        ∀ u b : State, u.mod = s.mod → inputOctets u = (inputOctets s).drop a.consumed →
          exec .ctlDecode u = .next b →
          (b.status ≠ .ok → v.status = b.status) ∧
          (∀ k : FrameKind, b.status = .ok → b.orec = .kind k →
            ∀ w p : State, StateInv w → w.irec.kind = k → inputOctets w = (inputOctets u).drop b.consumed →
              exec .plCheck w = .next p →
              (p.status ≠ .ok → v.status = p.status) ∧
              (p.status = .ok →
                v = { s with status := .ok, orec := .frame ⟨c, k, outputOctets p⟩ d })))

/-- R164, R45, D14: `FRAME.ENCODE` is `AC.ENCODE`, `CTL.ENCODE` and `PL.CHECK` of the payload, done by hand on
the same operands: the first that ends in an error gives its error, and otherwise the output is their outputs
one after another, 15 octets or more. -/
def Obligations.FrameEncodeIsItsStages : Prop :=
  ∀ s a b w p : State, StateInv s → StateInv w → exec .acEncode s = .next a → exec .ctlEncode s = .next b →
    w.irec.kind = s.irec.kind → inputOctets w = s.irec.payload → exec .plCheck w = .next p →
    ∃ v, exec .frameEncode s = .next v ∧
      (a.status ≠ .ok → v.status = a.status) ∧
      (a.status = .ok → b.status ≠ .ok → v.status = b.status) ∧
      (a.status = .ok → b.status = .ok → p.status ≠ .ok → v.status = p.status) ∧
      (a.status = .ok → b.status = .ok → p.status = .ok →
        v.status = .ok ∧ v.olen = a.olen + b.olen + p.olen ∧ 15 ≤ v.olen ∧
          outputOctets v = outputOctets a ++ outputOctets b ++ outputOctets p)

/-- R163, R39: `FRAME.DECODE` completes with the frame that stands in the buffer: the fields of a valid chain
from offset 0 (ignored bits as they come, letters in either case), the control field of a kind in range, and a
payload whose length suits the kind. -/
def Obligations.FrameDecodeReadsTheFrame : Prop :=
  ∀ (s : State) (f : Frame), f.Valid s.mod → fieldsAt s.ibuf f.addresses.entries →
    s.ilen = 7 * f.addresses.entries.length + (encode (rowOf s.mod f.kind)).length + f.payload.length →
    (inputOctets s).drop (7 * f.addresses.entries.length) = encode (rowOf s.mod f.kind) ++ f.payload →
    exec .frameDecode s = .next { s with
      status := .ok
      orec := .frame f (deriveChain f.addresses) }

/-- R166, R104: for every valid frame under a fixed modulo, encoding it completes, with 15 octets or more, and
decoding what was encoded gives the frame back. For a frame the host builds, valid but for its continuation bits,
which are ignored, it gives a valid frame that is equal by R166 (`addresses` by R104, `kind` and `payload` by
value). -/
def Obligations.FrameRoundTrip : Prop :=
  (∀ (s : State) (f : Frame), StateInv s → frameOperand s = f → f.Valid s.mod →
    ∃ t, exec .frameEncode s = .next t ∧ t.status = .ok ∧ 15 ≤ t.olen ∧
      ∀ u : State, u.mod = s.mod → inputOctets u = outputOctets t →
        exec .frameDecode u = .next { u with
          status := .ok
          orec := .frame f (deriveChain f.addresses) }) ∧
  (∀ (s : State) (f : Frame), StateInv s → frameOperand s = f → f.addresses.StationsValid →
    f.kind.inRange s.mod = true → payloadFits f.kind f.payload = true →
    ∃ t g, exec .frameEncode s = .next t ∧ t.status = .ok ∧ g.Valid s.mod ∧ sameFrame f g = true ∧
      ∀ u : State, u.mod = s.mod → inputOctets u = outputOctets t →
        exec .frameDecode u = .next { u with
          status := .ok
          orec := .frame g (deriveChain g.addresses) }) ∧
  (∀ f g : Frame, sameFrame f g = true ↔
    sameChain f.addresses g.addresses = true ∧ f.kind = g.kind ∧ f.payload = g.payload)

/-- R218, R144: `FRAME.DECODE` of a frame whose control octet has low bits 11 gives the same under either
modulo: a U frame is immune to a wrong modulo. -/
def Obligations.UnnumberedFramesAreImmuneToModulo : Prop :=
  ∀ s a t : State, exec .acDecode s = .next a → a.status = .ok → a.consumed < s.ilen →
    Memory.read s.ibuf a.consumed &&& 0b11#8 = 0b11#8 →
    exec .frameDecode { s with mod := .m8 } = .next t →
    exec .frameDecode { s with mod := .m128 } = .next { t with mod := .m128 }

/-! ## The opcode table's words -/

/-- R51 to R62: in every place where a well-formed instruction's word stands, decoding its encoding, whatever
follows it, gives the instruction back with the octets that follow. -/
def Obligations.DecodeOfEncodeIsTheInstruction : Prop :=
  ∀ i : Instr, i.wellFormed = true → ∀ sp ∈ i.spaces, ∀ rest : List Byte,
    decode sp (encode i ++ rest) = .ok (i, rest)

/-- R64: whatever the octets, a decoded instruction is well formed and belongs to the place it was read from;
a field decoded is never out of its bound. -/
def Obligations.DecodedInstructionsAreWellFormed : Prop :=
  ∀ (sp : Space) (bs rest : List Byte) (i : Instr), decode sp bs = .ok (i, rest) →
    i.wellFormed = true ∧ sp ∈ i.spaces

/-- R54, R60, R63, R142: under each modulo every octet matches exactly one row of the control-field table. -/
def Obligations.EveryControlOctetMatchesOneRow : Prop :=
  ∀ (mo : Modulo) (c0 : Byte),
    ((controlRows mo).filter (fun r => c0 &&& r.mask == r.pattern)).length = 1

/-- Words written out from the spec's encodings (the thirteen select codes of R16; R52, R53, R55, R56, R57, R58,
R60, R142) decode to the instructions they stand for. -/
def Obligations.WrittenWordsDecode : Prop :=
  decode .op [0b0000_0001#8] = .ok (.csCreate, []) ∧
  decode .op [0b0000_0010#8] = .ok (.csDecode, []) ∧
  decode .op [0b0000_0011#8] = .ok (.csEncode, []) ∧
  decode .op [0b0000_0100#8] = .ok (.afDecode, []) ∧
  decode .op [0b0000_0101#8] = .ok (.afEncode, []) ∧
  decode .op [0b0000_0110#8] = .ok (.acDecode, []) ∧
  decode .op [0b0000_0111#8] = .ok (.acEncode, []) ∧
  decode .op [0b0000_1000#8] = .ok (.acDerive, []) ∧
  decode .op [0b0000_1001#8] = .ok (.ctlDecode, []) ∧
  decode .op [0b0000_1010#8] = .ok (.ctlEncode, []) ∧
  decode .op [0b0000_1011#8] = .ok (.plCheck, []) ∧
  decode .op [0b0000_1100#8] = .ok (.frameDecode, []) ∧
  decode .op [0b0000_1101#8] = .ok (.frameEncode, []) ∧
  decode .addrChar [0b1000_0100#8] = .ok (.addrChar 0x42, []) ∧
  decode .addrSsid [0b1111_0100#8] = .ok (.addrSsid true 10 false, []) ∧
  decode (.control .m8) [0b0101_1010#8] = .ok (.iM8 5 2 true, []) ∧
  decode (.control .m128) [0b1100_1000#8, 0b0000_1011#8] = .ok (.iM128 100 5 true, []) ∧
  decode (.control .m8) [0b1011_0101#8] = .ok (.rnrM8 5 true, []) ∧
  decode (.control .m128) [0b1111_0101#8, 0b1100_1001#8] = .ok (.rnrM128 100 true, []) ∧
  decode (.control .m8) [0b0011_1111#8] = .ok (.sabm true, []) ∧
  decode (.control .m128) [0b0000_0011#8] = .ok (.ui false, []) ∧
  decode (.control .m8) [0b1111_1111#8] = .ok (.unassignedEC true, [])

/-- R123 to R141: each of the nineteen frame-type rows (`I`, `RR`, `RNR`, `REJ`, `SREJ` of each modulo, and
`SABM`, `SABME`, `DISC`, `DM`, `UA`, `FRMR`, `UI`, `XID`, `TEST`) completes in every state: it delivers its
frame kind, with `CONSUMED` the octets of its control field. That a row is run as an instruction is the model's
choice (notes entry 1). -/
def Obligations.FrameTypeRowsDeliverTheirKind : Prop :=
  ∀ (mo : Modulo) (k : FrameKind) (s : State),
    exec (rowOf mo k) s = .next { s with
      status := .ok
      orec := .kind k
      consumed := match mo, k with
        | _, .u _ _ => 1
        | .m8, _ => 1
        | .m128, _ => 2 }

/-- R142: each of the twenty-three unassigned U patterns, with either value of bit 4, ends in `UnknownModifier`
in every state. That a row is run as an instruction is the model's choice (notes entry 1). -/
def Obligations.UnassignedRowsEndInUnknownModifier : Prop :=
  ∀ (p : Bool) (i : Instr), i ∈ unassignedRows p → ∀ s : State,
    ∃ t, exec i s = .next t ∧ t.status = .error .unknownModifier

/-- R52, R53: the two address-octet rows complete in every state and deliver the fields of their octet. That
these data formats are run as instructions, and the two records they deliver, are the model's choice (notes
entries 1 and 2). -/
def Obligations.AddressOctetRowsDeliverTheirFields : Prop :=
  ∀ s : State,
    (∀ code : Nat, exec (.addrChar code) s = .next { s with status := .ok, orec := .charOctet code }) ∧
    (∀ (f e : Bool) (n : Nat),
      exec (.addrSsid f n e) s = .next { s with status := .ok, orec := .ssidOctet f n e })
end

