-- ==== Sys2Proof/Laws/Memory.lean ====
section
/-! SUPPORT. What the buffer operations do: a read after a write, the canonical form they keep, and the octets
read back from a buffer that octets were stored in. -/

namespace Sys2Proof.Machine

/-! ## The canonical form -/

theorem Memory.wfFrom_mono {lo lo' : Nat} (h : lo' ≤ lo) :
    ∀ {m : Memory}, Memory.wfFrom lo m = true → Memory.wfFrom lo' m = true
  | [], _ => rfl
  | (a, b) :: m, hm => by
    simp only [Memory.wfFrom, Bool.and_eq_true, decide_eq_true_eq] at hm ⊢
    exact ⟨⟨h.trans hm.1.1, hm.1.2⟩, hm.2⟩

/-- Below its least offset a canonical buffer reads as unlisted. -/
theorem Memory.read_below {lo x : Nat} (hx : x < lo) :
    ∀ {m : Memory}, Memory.wfFrom lo m = true → Memory.read m x = Config.unlistedOctet
  | [], _ => rfl
  | (a, b) :: m, hm => by
    simp only [Memory.wfFrom, Bool.and_eq_true, decide_eq_true_eq] at hm
    rw [Memory.read, if_neg (by omega)]
    exact Memory.read_below (by omega) hm.2

theorem Memory.wfFrom_write {lo x : Nat} {v : Byte} (hx : lo ≤ x) :
    ∀ {m : Memory}, Memory.wfFrom lo m = true → Memory.wfFrom lo (Memory.write m x v) = true
  | [], _ => by
    by_cases hv : v = Config.unlistedOctet <;> simp [Memory.write, Memory.wfFrom, hv, hx]
  | (a, b) :: m, hm => by
    simp only [Memory.wfFrom, Bool.and_eq_true, decide_eq_true_eq] at hm
    obtain ⟨⟨ha, hb⟩, hm'⟩ := hm
    by_cases hv : v = Config.unlistedOctet
    · rcases Nat.lt_trichotomy x a with h | h | h
      · simp [Memory.write, Memory.wfFrom, hv, h, ha, hb, hm']
      · subst h
        simpa [Memory.write, hv] using Memory.wfFrom_mono (by omega) hm'
      · have := Memory.wfFrom_write (v := v) (by omega : a + 1 ≤ x) hm'
        simp [Memory.write, Memory.wfFrom, show ¬ x < a by omega, show x ≠ a by omega, ha, hb, this]
    · rcases Nat.lt_trichotomy x a with h | h | h
      · simp [Memory.write, Memory.wfFrom, hv, h, hx, hb, hm', show x + 1 ≤ a by omega]
      · subst h
        simp [Memory.write, Memory.wfFrom, hv, ha, hm']
      · have := Memory.wfFrom_write (v := v) (by omega : a + 1 ≤ x) hm'
        simp [Memory.write, Memory.wfFrom, show ¬ x < a by omega, show x ≠ a by omega, ha, hb, this]

/-- A write keeps the canonical form. -/
theorem Memory.wf_write {m : Memory} (x : Nat) (v : Byte) (h : Memory.wf m = true) :
    Memory.wf (Memory.write m x v) = true :=
  Memory.wfFrom_write (Nat.zero_le x) h

/-- Storing octets keeps the canonical form. -/
theorem Memory.wf_writeOctets : ∀ (bs : List Byte) {m : Memory} (base : Nat), Memory.wf m = true →
    Memory.wf (Memory.writeOctets m base bs) = true
  | [], _, _, h => h
  | b :: bs, _, base, h => Memory.wf_writeOctets bs (base + 1) (Memory.wf_write base b h)

theorem Memory.wf_nil : Memory.wf [] = true := rfl

/-! ## Reading after writing -/

theorem Memory.read_write_same_from {lo x : Nat} {v : Byte} :
    ∀ {m : Memory}, Memory.wfFrom lo m = true → Memory.read (Memory.write m x v) x = v
  | [], _ => by
    by_cases hv : v = Config.unlistedOctet <;> simp [Memory.write, Memory.read, hv]
  | (a, b) :: m, hm => by
    simp only [Memory.wfFrom, Bool.and_eq_true, decide_eq_true_eq] at hm
    rcases Nat.lt_trichotomy x a with h | h | h
    · by_cases hv : v = Config.unlistedOctet
      · have := Memory.read_below (x := x) (by omega : x < a + 1) hm.2
        simp [Memory.write, Memory.read, hv, h, show x ≠ a by omega, this]
      · simp [Memory.write, Memory.read, hv, h]
    · subst h
      by_cases hv : v = Config.unlistedOctet
      · have := Memory.read_below (x := x) (by omega) hm.2
        simp [Memory.write, hv, this]
      · simp [Memory.write, Memory.read, hv]
    · simp [Memory.write, Memory.read, show ¬ x < a by omega, show x ≠ a by omega,
        Memory.read_write_same_from hm.2]

/-- A read after a write to the same offset gives the octet written. -/
theorem Memory.read_write_same {m : Memory} (x : Nat) (v : Byte) (h : Memory.wf m = true) :
    Memory.read (Memory.write m x v) x = v :=
  Memory.read_write_same_from h

/-- A write leaves every other offset alone. -/
theorem Memory.read_write_other {x y : Nat} {v : Byte} (hxy : y ≠ x) :
    ∀ m : Memory, Memory.read (Memory.write m x v) y = Memory.read m y
  | [] => by by_cases hv : v = Config.unlistedOctet <;> simp [Memory.write, Memory.read, hv, hxy]
  | (a, b) :: m => by
    rcases Nat.lt_trichotomy x a with h | h | h
    · by_cases hv : v = Config.unlistedOctet <;> simp [Memory.write, Memory.read, hv, h, hxy]
    · subst h
      by_cases hv : v = Config.unlistedOctet <;> simp [Memory.write, Memory.read, hv, hxy]
    · simp [Memory.write, Memory.read, show ¬ x < a by omega, show x ≠ a by omega,
        Memory.read_write_other hxy m]

/-- Storing octets leaves every offset outside them alone. -/
theorem Memory.read_writeOctets_outside : ∀ (bs : List Byte) (m : Memory) (base x : Nat),
    (x < base ∨ base + bs.length ≤ x) → Memory.read (Memory.writeOctets m base bs) x = Memory.read m x
  | [], _, _, _, _ => rfl
  | b :: bs, m, base, x, h => by
    simp only [List.length_cons] at h
    rw [Memory.writeOctets, Memory.read_writeOctets_outside bs _ (base + 1) x (by omega),
      Memory.read_write_other (by omega)]

/-- Octets stored in a canonical buffer read back. -/
theorem Memory.read_writeOctets_inside : ∀ (bs : List Byte) {m : Memory} (base i : Nat)
    (hi : i < bs.length), Memory.wf m = true →
    Memory.read (Memory.writeOctets m base bs) (base + i) = bs[i]
  | b :: bs, m, base, 0, _, h => by
    rw [Memory.writeOctets, Memory.read_writeOctets_outside bs _ _ _ (by omega)]
    exact Memory.read_write_same base b h
  | b :: bs, m, base, i + 1, hi, h => by
    have := Memory.read_writeOctets_inside bs (m := Memory.write m base b) (base + 1) i
      (by simpa using hi) (Memory.wf_write base b h)
    rw [Memory.writeOctets, show base + (i + 1) = base + 1 + i by omega, this]
    rfl

/-! ## Reading a run of octets -/

@[simp] theorem Memory.octets_length (m : Memory) : ∀ (base n : Nat), (Memory.octets m base n).length = n
  | _, 0 => rfl
  | base, n + 1 => by simp [Memory.octets, Memory.octets_length m (base + 1) n]

theorem Memory.getElem_octets (m : Memory) : ∀ (base n i : Nat) (h : i < (Memory.octets m base n).length),
    (Memory.octets m base n)[i] = Memory.read m (base + i)
  | _, 0, _, h => absurd h (Nat.not_lt_zero _)
  | _, _ + 1, 0, _ => rfl
  | base, n + 1, i + 1, h => by
    have := Memory.getElem_octets m (base + 1) n i (by simpa [Memory.octets] using h)
    simp only [Memory.octets, List.getElem_cons_succ, this]
    congr 1
    omega

theorem Memory.drop_octets (m : Memory) : ∀ (k base n : Nat),
    (Memory.octets m base n).drop k = Memory.octets m (base + k) (n - k)
  | 0, _, _ => by simp
  | k + 1, base, 0 => by simp [Memory.octets]
  | k + 1, base, n + 1 => by
    rw [Memory.octets, List.drop_succ_cons, Memory.drop_octets m k, Nat.add_sub_add_right]
    congr 1
    omega

theorem Memory.take_octets (m : Memory) : ∀ (k base n : Nat), k ≤ n →
    (Memory.octets m base n).take k = Memory.octets m base k
  | 0, _, _, _ => by simp [Memory.octets]
  | k + 1, base, n + 1, h => by
    simp [Memory.octets, Memory.take_octets m k (base + 1) n (by omega)]

/-- The octets stored in a canonical buffer are the octets read back from it. -/
theorem Memory.octets_writeOctets {m : Memory} (base : Nat) (bs : List Byte) (h : Memory.wf m = true) :
    Memory.octets (Memory.writeOctets m base bs) base bs.length = bs := by
  apply List.ext_getElem (by simp)
  intro i h₁ h₂
  rw [Memory.getElem_octets, Memory.read_writeOctets_inside bs base i h₂ h]

/-! ## Equal canonical buffers -/

theorem Memory.eq_of_read_from : ∀ {lo : Nat} {m m' : Memory}, Memory.wfFrom lo m = true →
    Memory.wfFrom lo m' = true → (∀ x, Memory.read m x = Memory.read m' x) → m = m'
  | _, [], [], _, _, _ => rfl
  | _, [], (a, b) :: m', _, h', hr => by
    simp only [Memory.wfFrom, Bool.and_eq_true, decide_eq_true_eq] at h'
    have := hr a
    simp [Memory.read] at this
    exact absurd this.symm h'.1.2
  | _, (a, b) :: m, [], h, _, hr => by
    simp only [Memory.wfFrom, Bool.and_eq_true, decide_eq_true_eq] at h
    have := hr a
    simp [Memory.read] at this
    exact absurd this h.1.2
  | _, (a, b) :: m, (a', b') :: m', h, h', hr => by
    simp only [Memory.wfFrom, Bool.and_eq_true, decide_eq_true_eq] at h h'
    have haa : a = a' := by
      rcases Nat.lt_trichotomy a a' with hlt | heq | hgt
      · have h₁ := hr a
        have h₂ := Memory.read_below (x := a) (by omega : a < a' + 1) h'.2
        simp only [Memory.read, if_pos, if_neg (show a ≠ a' by omega), h₂] at h₁
        exact absurd h₁ h.1.2
      · exact heq
      · have h₁ := hr a'
        have h₂ := Memory.read_below (x := a') (by omega : a' < a + 1) h.2
        simp only [Memory.read, if_pos, if_neg (show a' ≠ a by omega), h₂] at h₁
        exact absurd h₁.symm h'.1.2
    subst haa
    have hbb : b = b' := by simpa [Memory.read] using hr a
    subst hbb
    have hmm : m = m' := by
      refine Memory.eq_of_read_from h.2 h'.2 (fun x => ?_)
      by_cases hx : x = a
      · rw [Memory.read_below (by omega) h.2, Memory.read_below (by omega) h'.2]
      · simpa [Memory.read, hx] using hr x
    rw [hmm]

/-- Two canonical buffers that read the same everywhere are the same data. -/
theorem Memory.eq_of_read {m m' : Memory} (h : Memory.wf m = true) (h' : Memory.wf m' = true)
    (hr : ∀ x, Memory.read m x = Memory.read m' x) : m = m' :=
  Memory.eq_of_read_from h h' hr

end Sys2Proof.Machine
end

