-- ==== Sys2Proof/Laws/State.lean ====
section
/-! SUPPORT. One lemma per field per named update of the state, each true by `rfl`. -/

namespace Sys2Proof.Machine

/-! ## `beginOutput` -/

@[simp] theorem beginOutput_op (s : State) : (beginOutput s).op = s.op := rfl
@[simp] theorem beginOutput_mod (s : State) : (beginOutput s).mod = s.mod := rfl
@[simp] theorem beginOutput_ibuf (s : State) : (beginOutput s).ibuf = s.ibuf := rfl
@[simp] theorem beginOutput_ilen (s : State) : (beginOutput s).ilen = s.ilen := rfl
@[simp] theorem beginOutput_irec (s : State) : (beginOutput s).irec = s.irec := rfl
@[simp] theorem beginOutput_status (s : State) : (beginOutput s).status = s.status := rfl
@[simp] theorem beginOutput_orec (s : State) : (beginOutput s).orec = s.orec := rfl
@[simp] theorem beginOutput_obuf (s : State) : (beginOutput s).obuf = s.obuf := rfl
@[simp] theorem beginOutput_olen (s : State) : (beginOutput s).olen = 0 := rfl
@[simp] theorem beginOutput_consumed (s : State) : (beginOutput s).consumed = s.consumed := rfl
@[simp] theorem beginOutput_written (s : State) : (beginOutput s).written = s.written := rfl
@[simp] theorem beginOutput_freeCount (s : State) : (beginOutput s).freeCount = s.freeCount := rfl

/-! ## `emit` -/

@[simp] theorem emit_op (v : List Byte) (s : State) : (emit v s).op = s.op := rfl
@[simp] theorem emit_mod (v : List Byte) (s : State) : (emit v s).mod = s.mod := rfl
@[simp] theorem emit_ibuf (v : List Byte) (s : State) : (emit v s).ibuf = s.ibuf := rfl
@[simp] theorem emit_ilen (v : List Byte) (s : State) : (emit v s).ilen = s.ilen := rfl
@[simp] theorem emit_irec (v : List Byte) (s : State) : (emit v s).irec = s.irec := rfl
@[simp] theorem emit_status (v : List Byte) (s : State) : (emit v s).status = s.status := rfl
@[simp] theorem emit_orec (v : List Byte) (s : State) : (emit v s).orec = s.orec := rfl
@[simp] theorem emit_obuf (v : List Byte) (s : State) : (emit v s).obuf = Memory.writeOctets s.obuf s.olen v :=
  rfl
@[simp] theorem emit_olen (v : List Byte) (s : State) : (emit v s).olen = s.olen + v.length := rfl
@[simp] theorem emit_consumed (v : List Byte) (s : State) : (emit v s).consumed = s.consumed := rfl
@[simp] theorem emit_written (v : List Byte) (s : State) : (emit v s).written = s.written := rfl
@[simp] theorem emit_freeCount (v : List Byte) (s : State) : (emit v s).freeCount = s.freeCount := rfl

/-! ## `succeed` -/

@[simp] theorem succeed_op (s : State) : (succeed s).op = s.op := rfl
@[simp] theorem succeed_mod (s : State) : (succeed s).mod = s.mod := rfl
@[simp] theorem succeed_ibuf (s : State) : (succeed s).ibuf = s.ibuf := rfl
@[simp] theorem succeed_ilen (s : State) : (succeed s).ilen = s.ilen := rfl
@[simp] theorem succeed_irec (s : State) : (succeed s).irec = s.irec := rfl
@[simp] theorem succeed_status (s : State) : (succeed s).status = .ok := rfl
@[simp] theorem succeed_orec (s : State) : (succeed s).orec = s.orec := rfl
@[simp] theorem succeed_obuf (s : State) : (succeed s).obuf = s.obuf := rfl
@[simp] theorem succeed_olen (s : State) : (succeed s).olen = s.olen := rfl
@[simp] theorem succeed_consumed (s : State) : (succeed s).consumed = s.consumed := rfl
@[simp] theorem succeed_written (s : State) : (succeed s).written = s.written := rfl
@[simp] theorem succeed_freeCount (s : State) : (succeed s).freeCount = s.freeCount := rfl

/-! ## `raise` -/

@[simp] theorem raise_op (e : Err) (s : State) : (raise e s).op = s.op := rfl
@[simp] theorem raise_mod (e : Err) (s : State) : (raise e s).mod = s.mod := rfl
@[simp] theorem raise_ibuf (e : Err) (s : State) : (raise e s).ibuf = s.ibuf := rfl
@[simp] theorem raise_ilen (e : Err) (s : State) : (raise e s).ilen = s.ilen := rfl
@[simp] theorem raise_irec (e : Err) (s : State) : (raise e s).irec = s.irec := rfl
@[simp] theorem raise_status (e : Err) (s : State) : (raise e s).status = .error e := rfl
@[simp] theorem raise_orec (e : Err) (s : State) : (raise e s).orec = Config.freeORec s.freeCount := rfl
@[simp] theorem raise_obuf (e : Err) (s : State) :
    (raise e s).obuf = Memory.writeOctets [] 0 (Config.freeOctets s.freeCount) := rfl
@[simp] theorem raise_olen (e : Err) (s : State) : (raise e s).olen = Config.freeOLen s.freeCount := rfl
@[simp] theorem raise_consumed (e : Err) (s : State) : (raise e s).consumed = Config.freeConsumed s.freeCount :=
  rfl
@[simp] theorem raise_written (e : Err) (s : State) : (raise e s).written = s.written := rfl
@[simp] theorem raise_freeCount (e : Err) (s : State) : (raise e s).freeCount = s.freeCount + 1 := rfl

/-! ## `deliverRecord` -/

@[simp] theorem deliverRecord_op (r : ORec) (s : State) : (deliverRecord r s).op = s.op := rfl
@[simp] theorem deliverRecord_mod (r : ORec) (s : State) : (deliverRecord r s).mod = s.mod := rfl
@[simp] theorem deliverRecord_ibuf (r : ORec) (s : State) : (deliverRecord r s).ibuf = s.ibuf := rfl
@[simp] theorem deliverRecord_ilen (r : ORec) (s : State) : (deliverRecord r s).ilen = s.ilen := rfl
@[simp] theorem deliverRecord_irec (r : ORec) (s : State) : (deliverRecord r s).irec = s.irec := rfl
@[simp] theorem deliverRecord_status (r : ORec) (s : State) : (deliverRecord r s).status = .ok := rfl
@[simp] theorem deliverRecord_orec (r : ORec) (s : State) : (deliverRecord r s).orec = r := rfl
@[simp] theorem deliverRecord_obuf (r : ORec) (s : State) : (deliverRecord r s).obuf = s.obuf := rfl
@[simp] theorem deliverRecord_olen (r : ORec) (s : State) : (deliverRecord r s).olen = s.olen := rfl
@[simp] theorem deliverRecord_consumed (r : ORec) (s : State) : (deliverRecord r s).consumed = s.consumed := rfl
@[simp] theorem deliverRecord_written (r : ORec) (s : State) : (deliverRecord r s).written = s.written := rfl
@[simp] theorem deliverRecord_freeCount (r : ORec) (s : State) : (deliverRecord r s).freeCount = s.freeCount :=
  rfl

/-! ## `deliverConsumed` -/

@[simp] theorem deliverConsumed_op (r : ORec) (n : Nat) (s : State) : (deliverConsumed r n s).op = s.op := rfl
@[simp] theorem deliverConsumed_mod (r : ORec) (n : Nat) (s : State) : (deliverConsumed r n s).mod = s.mod :=
  rfl
@[simp] theorem deliverConsumed_ibuf (r : ORec) (n : Nat) (s : State) : (deliverConsumed r n s).ibuf = s.ibuf :=
  rfl
@[simp] theorem deliverConsumed_ilen (r : ORec) (n : Nat) (s : State) : (deliverConsumed r n s).ilen = s.ilen :=
  rfl
@[simp] theorem deliverConsumed_irec (r : ORec) (n : Nat) (s : State) : (deliverConsumed r n s).irec = s.irec :=
  rfl
@[simp] theorem deliverConsumed_status (r : ORec) (n : Nat) (s : State) : (deliverConsumed r n s).status = .ok :=
  rfl
@[simp] theorem deliverConsumed_orec (r : ORec) (n : Nat) (s : State) : (deliverConsumed r n s).orec = r := rfl
@[simp] theorem deliverConsumed_obuf (r : ORec) (n : Nat) (s : State) : (deliverConsumed r n s).obuf = s.obuf :=
  rfl
@[simp] theorem deliverConsumed_olen (r : ORec) (n : Nat) (s : State) : (deliverConsumed r n s).olen = s.olen :=
  rfl
@[simp] theorem deliverConsumed_consumed (r : ORec) (n : Nat) (s : State) : (deliverConsumed r n s).consumed = n :=
  rfl
@[simp] theorem deliverConsumed_written (r : ORec) (n : Nat) (s : State) :
    (deliverConsumed r n s).written = s.written := rfl
@[simp] theorem deliverConsumed_freeCount (r : ORec) (n : Nat) (s : State) :
    (deliverConsumed r n s).freeCount = s.freeCount := rfl

/-! ## `deliverOctets` -/

@[simp] theorem deliverOctets_op (v : List Byte) (s : State) : (deliverOctets v s).op = s.op := rfl
@[simp] theorem deliverOctets_mod (v : List Byte) (s : State) : (deliverOctets v s).mod = s.mod := rfl
@[simp] theorem deliverOctets_ibuf (v : List Byte) (s : State) : (deliverOctets v s).ibuf = s.ibuf := rfl
@[simp] theorem deliverOctets_ilen (v : List Byte) (s : State) : (deliverOctets v s).ilen = s.ilen := rfl
@[simp] theorem deliverOctets_irec (v : List Byte) (s : State) : (deliverOctets v s).irec = s.irec := rfl
@[simp] theorem deliverOctets_status (v : List Byte) (s : State) : (deliverOctets v s).status = .ok := rfl
@[simp] theorem deliverOctets_orec (v : List Byte) (s : State) : (deliverOctets v s).orec = s.orec := rfl
@[simp] theorem deliverOctets_obuf (v : List Byte) (s : State) :
    (deliverOctets v s).obuf = Memory.writeOctets s.obuf 0 v := rfl
@[simp] theorem deliverOctets_olen (v : List Byte) (s : State) : (deliverOctets v s).olen = v.length :=
  Nat.zero_add v.length
@[simp] theorem deliverOctets_consumed (v : List Byte) (s : State) : (deliverOctets v s).consumed = s.consumed :=
  rfl
@[simp] theorem deliverOctets_written (v : List Byte) (s : State) : (deliverOctets v s).written = s.written := rfl
@[simp] theorem deliverOctets_freeCount (v : List Byte) (s : State) :
    (deliverOctets v s).freeCount = s.freeCount := rfl

/-! ## `hostWriteOp` -/

@[simp] theorem hostWriteOp_op (c : BitVec 4) (s : State) : (hostWriteOp c s).op = c := rfl
@[simp] theorem hostWriteOp_mod (c : BitVec 4) (s : State) : (hostWriteOp c s).mod = s.mod := rfl
@[simp] theorem hostWriteOp_ibuf (c : BitVec 4) (s : State) : (hostWriteOp c s).ibuf = s.ibuf := rfl
@[simp] theorem hostWriteOp_ilen (c : BitVec 4) (s : State) : (hostWriteOp c s).ilen = s.ilen := rfl
@[simp] theorem hostWriteOp_irec (c : BitVec 4) (s : State) : (hostWriteOp c s).irec = s.irec := rfl
@[simp] theorem hostWriteOp_status (c : BitVec 4) (s : State) : (hostWriteOp c s).status = s.status := rfl
@[simp] theorem hostWriteOp_orec (c : BitVec 4) (s : State) : (hostWriteOp c s).orec = s.orec := rfl
@[simp] theorem hostWriteOp_obuf (c : BitVec 4) (s : State) : (hostWriteOp c s).obuf = s.obuf := rfl
@[simp] theorem hostWriteOp_olen (c : BitVec 4) (s : State) : (hostWriteOp c s).olen = s.olen := rfl
@[simp] theorem hostWriteOp_consumed (c : BitVec 4) (s : State) : (hostWriteOp c s).consumed = s.consumed := rfl
@[simp] theorem hostWriteOp_written (c : BitVec 4) (s : State) :
    (hostWriteOp c s).written =
      { s.written with op := true } := rfl
@[simp] theorem hostWriteOp_freeCount (c : BitVec 4) (s : State) :
    (hostWriteOp c s).freeCount =
      s.freeCount := rfl

/-! ## `hostWriteMod` -/

@[simp] theorem hostWriteMod_op (mo : Modulo) (s : State) : (hostWriteMod mo s).op = s.op := rfl
@[simp] theorem hostWriteMod_mod (mo : Modulo) (s : State) : (hostWriteMod mo s).mod = mo := rfl
@[simp] theorem hostWriteMod_ibuf (mo : Modulo) (s : State) : (hostWriteMod mo s).ibuf = s.ibuf := rfl
@[simp] theorem hostWriteMod_ilen (mo : Modulo) (s : State) : (hostWriteMod mo s).ilen = s.ilen := rfl
@[simp] theorem hostWriteMod_irec (mo : Modulo) (s : State) : (hostWriteMod mo s).irec = s.irec := rfl
@[simp] theorem hostWriteMod_status (mo : Modulo) (s : State) : (hostWriteMod mo s).status = s.status := rfl
@[simp] theorem hostWriteMod_orec (mo : Modulo) (s : State) : (hostWriteMod mo s).orec = s.orec := rfl
@[simp] theorem hostWriteMod_obuf (mo : Modulo) (s : State) : (hostWriteMod mo s).obuf = s.obuf := rfl
@[simp] theorem hostWriteMod_olen (mo : Modulo) (s : State) : (hostWriteMod mo s).olen = s.olen := rfl
@[simp] theorem hostWriteMod_consumed (mo : Modulo) (s : State) :
    (hostWriteMod mo s).consumed =
      s.consumed := rfl
@[simp] theorem hostWriteMod_written (mo : Modulo) (s : State) :
    (hostWriteMod mo s).written =
      { s.written with mod := true } := rfl
@[simp] theorem hostWriteMod_freeCount (mo : Modulo) (s : State) :
    (hostWriteMod mo s).freeCount =
      s.freeCount := rfl

/-! ## `hostWriteInput` -/

@[simp] theorem hostWriteInput_op (b : List Byte) (s : State) : (hostWriteInput b s).op = s.op := rfl
@[simp] theorem hostWriteInput_mod (b : List Byte) (s : State) : (hostWriteInput b s).mod = s.mod := rfl
@[simp] theorem hostWriteInput_ibuf (b : List Byte) (s : State) :
    (hostWriteInput b s).ibuf =
      Memory.writeOctets [] 0 b := rfl
@[simp] theorem hostWriteInput_ilen (b : List Byte) (s : State) : (hostWriteInput b s).ilen = b.length := rfl
@[simp] theorem hostWriteInput_irec (b : List Byte) (s : State) : (hostWriteInput b s).irec = s.irec := rfl
@[simp] theorem hostWriteInput_status (b : List Byte) (s : State) :
    (hostWriteInput b s).status =
      s.status := rfl
@[simp] theorem hostWriteInput_orec (b : List Byte) (s : State) : (hostWriteInput b s).orec = s.orec := rfl
@[simp] theorem hostWriteInput_obuf (b : List Byte) (s : State) : (hostWriteInput b s).obuf = s.obuf := rfl
@[simp] theorem hostWriteInput_olen (b : List Byte) (s : State) : (hostWriteInput b s).olen = s.olen := rfl
@[simp] theorem hostWriteInput_consumed (b : List Byte) (s : State) :
    (hostWriteInput b s).consumed =
      s.consumed := rfl
@[simp] theorem hostWriteInput_written (b : List Byte) (s : State) :
    (hostWriteInput b s).written =
      { s.written with ibuf := true } := rfl
@[simp] theorem hostWriteInput_freeCount (b : List Byte) (s : State) :
    (hostWriteInput b s).freeCount =
      s.freeCount := rfl

/-! ## `hostWriteStation` -/

@[simp] theorem hostWriteStation_op (v : Station) (s : State) : (hostWriteStation v s).op = s.op := rfl
@[simp] theorem hostWriteStation_mod (v : Station) (s : State) : (hostWriteStation v s).mod = s.mod := rfl
@[simp] theorem hostWriteStation_ibuf (v : Station) (s : State) : (hostWriteStation v s).ibuf = s.ibuf := rfl
@[simp] theorem hostWriteStation_ilen (v : Station) (s : State) : (hostWriteStation v s).ilen = s.ilen := rfl
@[simp] theorem hostWriteStation_irec (v : Station) (s : State) :
    (hostWriteStation v s).irec =
      { s.irec with station := v } := rfl
@[simp] theorem hostWriteStation_status (v : Station) (s : State) :
    (hostWriteStation v s).status =
      s.status := rfl
@[simp] theorem hostWriteStation_orec (v : Station) (s : State) : (hostWriteStation v s).orec = s.orec := rfl
@[simp] theorem hostWriteStation_obuf (v : Station) (s : State) : (hostWriteStation v s).obuf = s.obuf := rfl
@[simp] theorem hostWriteStation_olen (v : Station) (s : State) : (hostWriteStation v s).olen = s.olen := rfl
@[simp] theorem hostWriteStation_consumed (v : Station) (s : State) :
    (hostWriteStation v s).consumed =
      s.consumed := rfl
@[simp] theorem hostWriteStation_written (v : Station) (s : State) :
    (hostWriteStation v s).written =
      { s.written with station := true } := rfl
@[simp] theorem hostWriteStation_freeCount (v : Station) (s : State) :
    (hostWriteStation v s).freeCount =
      s.freeCount := rfl

/-! ## `hostWriteField` -/

@[simp] theorem hostWriteField_op (f : AddressField) (s : State) : (hostWriteField f s).op = s.op := rfl
@[simp] theorem hostWriteField_mod (f : AddressField) (s : State) : (hostWriteField f s).mod = s.mod := rfl
@[simp] theorem hostWriteField_ibuf (f : AddressField) (s : State) : (hostWriteField f s).ibuf = s.ibuf := rfl
@[simp] theorem hostWriteField_ilen (f : AddressField) (s : State) : (hostWriteField f s).ilen = s.ilen := rfl
@[simp] theorem hostWriteField_irec (f : AddressField) (s : State) :
    (hostWriteField f s).irec =
      { s.irec with station := f.station, flagBit := f.flagBit, continuationBit := f.continuationBit } := rfl
@[simp] theorem hostWriteField_status (f : AddressField) (s : State) :
    (hostWriteField f s).status =
      s.status := rfl
@[simp] theorem hostWriteField_orec (f : AddressField) (s : State) : (hostWriteField f s).orec = s.orec := rfl
@[simp] theorem hostWriteField_obuf (f : AddressField) (s : State) : (hostWriteField f s).obuf = s.obuf := rfl
@[simp] theorem hostWriteField_olen (f : AddressField) (s : State) : (hostWriteField f s).olen = s.olen := rfl
@[simp] theorem hostWriteField_consumed (f : AddressField) (s : State) :
    (hostWriteField f s).consumed =
      s.consumed := rfl
@[simp] theorem hostWriteField_written (f : AddressField) (s : State) :
    (hostWriteField f s).written =
      { s.written with station := true, flagBit := true, continuationBit := true } := rfl
@[simp] theorem hostWriteField_freeCount (f : AddressField) (s : State) :
    (hostWriteField f s).freeCount =
      s.freeCount := rfl

/-! ## `hostWriteChain` -/

@[simp] theorem hostWriteChain_op (c : AddressChain) (s : State) : (hostWriteChain c s).op = s.op := rfl
@[simp] theorem hostWriteChain_mod (c : AddressChain) (s : State) : (hostWriteChain c s).mod = s.mod := rfl
@[simp] theorem hostWriteChain_ibuf (c : AddressChain) (s : State) : (hostWriteChain c s).ibuf = s.ibuf := rfl
@[simp] theorem hostWriteChain_ilen (c : AddressChain) (s : State) : (hostWriteChain c s).ilen = s.ilen := rfl
@[simp] theorem hostWriteChain_irec (c : AddressChain) (s : State) :
    (hostWriteChain c s).irec =
      { s.irec with addresses := c } := rfl
@[simp] theorem hostWriteChain_status (c : AddressChain) (s : State) :
    (hostWriteChain c s).status =
      s.status := rfl
@[simp] theorem hostWriteChain_orec (c : AddressChain) (s : State) : (hostWriteChain c s).orec = s.orec := rfl
@[simp] theorem hostWriteChain_obuf (c : AddressChain) (s : State) : (hostWriteChain c s).obuf = s.obuf := rfl
@[simp] theorem hostWriteChain_olen (c : AddressChain) (s : State) : (hostWriteChain c s).olen = s.olen := rfl
@[simp] theorem hostWriteChain_consumed (c : AddressChain) (s : State) :
    (hostWriteChain c s).consumed =
      s.consumed := rfl
@[simp] theorem hostWriteChain_written (c : AddressChain) (s : State) :
    (hostWriteChain c s).written =
      { s.written with addresses := true } := rfl
@[simp] theorem hostWriteChain_freeCount (c : AddressChain) (s : State) :
    (hostWriteChain c s).freeCount =
      s.freeCount := rfl

/-! ## `hostWriteKind` -/

@[simp] theorem hostWriteKind_op (k : FrameKind) (s : State) : (hostWriteKind k s).op = s.op := rfl
@[simp] theorem hostWriteKind_mod (k : FrameKind) (s : State) : (hostWriteKind k s).mod = s.mod := rfl
@[simp] theorem hostWriteKind_ibuf (k : FrameKind) (s : State) : (hostWriteKind k s).ibuf = s.ibuf := rfl
@[simp] theorem hostWriteKind_ilen (k : FrameKind) (s : State) : (hostWriteKind k s).ilen = s.ilen := rfl
@[simp] theorem hostWriteKind_irec (k : FrameKind) (s : State) :
    (hostWriteKind k s).irec =
      { s.irec with kind := k } := rfl
@[simp] theorem hostWriteKind_status (k : FrameKind) (s : State) : (hostWriteKind k s).status = s.status := rfl
@[simp] theorem hostWriteKind_orec (k : FrameKind) (s : State) : (hostWriteKind k s).orec = s.orec := rfl
@[simp] theorem hostWriteKind_obuf (k : FrameKind) (s : State) : (hostWriteKind k s).obuf = s.obuf := rfl
@[simp] theorem hostWriteKind_olen (k : FrameKind) (s : State) : (hostWriteKind k s).olen = s.olen := rfl
@[simp] theorem hostWriteKind_consumed (k : FrameKind) (s : State) :
    (hostWriteKind k s).consumed =
      s.consumed := rfl
@[simp] theorem hostWriteKind_written (k : FrameKind) (s : State) :
    (hostWriteKind k s).written =
      { s.written with kind := true } := rfl
@[simp] theorem hostWriteKind_freeCount (k : FrameKind) (s : State) :
    (hostWriteKind k s).freeCount =
      s.freeCount := rfl

/-! ## `hostWriteFrame` -/

@[simp] theorem hostWriteFrame_op (f : Frame) (s : State) : (hostWriteFrame f s).op = s.op := rfl
@[simp] theorem hostWriteFrame_mod (f : Frame) (s : State) : (hostWriteFrame f s).mod = s.mod := rfl
@[simp] theorem hostWriteFrame_ibuf (f : Frame) (s : State) : (hostWriteFrame f s).ibuf = s.ibuf := rfl
@[simp] theorem hostWriteFrame_ilen (f : Frame) (s : State) : (hostWriteFrame f s).ilen = s.ilen := rfl
@[simp] theorem hostWriteFrame_irec (f : Frame) (s : State) :
    (hostWriteFrame f s).irec =
      { s.irec with addresses := f.addresses, kind := f.kind, payload := f.payload } := rfl
@[simp] theorem hostWriteFrame_status (f : Frame) (s : State) : (hostWriteFrame f s).status = s.status := rfl
@[simp] theorem hostWriteFrame_orec (f : Frame) (s : State) : (hostWriteFrame f s).orec = s.orec := rfl
@[simp] theorem hostWriteFrame_obuf (f : Frame) (s : State) : (hostWriteFrame f s).obuf = s.obuf := rfl
@[simp] theorem hostWriteFrame_olen (f : Frame) (s : State) : (hostWriteFrame f s).olen = s.olen := rfl
@[simp] theorem hostWriteFrame_consumed (f : Frame) (s : State) :
    (hostWriteFrame f s).consumed =
      s.consumed := rfl
@[simp] theorem hostWriteFrame_written (f : Frame) (s : State) :
    (hostWriteFrame f s).written =
      { s.written with addresses := true, kind := true, payload := true } := rfl
@[simp] theorem hostWriteFrame_freeCount (f : Frame) (s : State) :
    (hostWriteFrame f s).freeCount =
      s.freeCount := rfl

/-! ## `hostWriteRecord` -/

@[simp] theorem hostWriteRecord_op (r : IRec) (s : State) : (hostWriteRecord r s).op = s.op := rfl
@[simp] theorem hostWriteRecord_mod (r : IRec) (s : State) : (hostWriteRecord r s).mod = s.mod := rfl
@[simp] theorem hostWriteRecord_ibuf (r : IRec) (s : State) : (hostWriteRecord r s).ibuf = s.ibuf := rfl
@[simp] theorem hostWriteRecord_ilen (r : IRec) (s : State) : (hostWriteRecord r s).ilen = s.ilen := rfl
@[simp] theorem hostWriteRecord_irec (r : IRec) (s : State) : (hostWriteRecord r s).irec = r := rfl
@[simp] theorem hostWriteRecord_status (r : IRec) (s : State) : (hostWriteRecord r s).status = s.status := rfl
@[simp] theorem hostWriteRecord_orec (r : IRec) (s : State) : (hostWriteRecord r s).orec = s.orec := rfl
@[simp] theorem hostWriteRecord_obuf (r : IRec) (s : State) : (hostWriteRecord r s).obuf = s.obuf := rfl
@[simp] theorem hostWriteRecord_olen (r : IRec) (s : State) : (hostWriteRecord r s).olen = s.olen := rfl
@[simp] theorem hostWriteRecord_consumed (r : IRec) (s : State) :
    (hostWriteRecord r s).consumed =
      s.consumed := rfl
@[simp] theorem hostWriteRecord_written (r : IRec) (s : State) :
    (hostWriteRecord r s).written =
      { Written.everything with op := s.written.op, mod := s.written.mod, ibuf := s.written.ibuf } := rfl
@[simp] theorem hostWriteRecord_freeCount (r : IRec) (s : State) :
    (hostWriteRecord r s).freeCount =
      s.freeCount := rfl

/-! ## `hostReset` -/

@[simp] theorem hostReset_written (s : State) : (hostReset s).written = Written.nothing := rfl
@[simp] theorem hostReset_status (s : State) : (hostReset s).status = .idle := rfl
@[simp] theorem hostReset_ibuf (s : State) :
    (hostReset s).ibuf = Memory.writeOctets [] 0 (Config.freeInput s.freeCount) := rfl
@[simp] theorem hostReset_obuf (s : State) :
    (hostReset s).obuf = Memory.writeOctets [] 0 (Config.freeOctets s.freeCount) := rfl

end Sys2Proof.Machine
end

