-- ==== Sys2Proof/Laws/Ops.lean ====
section
/-! SUPPORT. What ending an operation can do, said once: `finish` either delivers or raises. -/

namespace Sys2Proof.Machine

@[simp] theorem finish_ok {α : Type} (v : α) (deliver : α → State → State) (s : State) :
    finish (.ok v) deliver s = .next (deliver v s) := rfl

@[simp] theorem finish_error {α : Type} (e : Err) (deliver : α → State → State) (s : State) :
    finish (.error e) deliver s = .next (raise e s) := rfl

/-- Everything `finish` can do. -/
theorem finish_cases {α : Type} {r : Except Err α} {deliver : α → State → State} {s t : State}
    (h : finish r deliver s = .next t) :
    (∃ v, r = .ok v ∧ t = deliver v s) ∨ (∃ e, r = .error e ∧ t = raise e s) := by
  cases r with
  | ok v => exact .inl ⟨v, rfl, by simpa using h.symm⟩
  | error e => exact .inr ⟨e, rfl, by simpa using h.symm⟩

/-- An operation always ends. -/
theorem finish_next {α : Type} (r : Except Err α) (deliver : α → State → State) (s : State) :
    ∃ t, finish r deliver s = .next t := by
  cases r <;> exact ⟨_, rfl⟩

/-- The octets an encode delivers are the octets the host reads. -/
theorem outputOctets_deliverOctets (v : List Byte) {s : State} (h : Memory.wf s.obuf = true) :
    outputOctets (deliverOctets v s) = v := by
  simp [outputOctets, Memory.octets_writeOctets 0 v h]

/-- The input the host writes is the input the block reads. -/
@[simp] theorem inputOctets_hostWriteInput (b : List Byte) (s : State) :
    inputOctets (hostWriteInput b s) = b := by
  simp [inputOctets, Memory.octets_writeOctets 0 b Memory.wf_nil]

@[simp] theorem inputOctets_length (s : State) : (inputOctets s).length = s.ilen := by
  simp [inputOctets]

/-- Raising an error keeps the buffers canonical. -/
theorem raise_buffers_wf (e : Err) {s : State} (h : Memory.wf s.ibuf = true) :
    Memory.wf (raise e s).ibuf = true ∧ Memory.wf (raise e s).obuf = true :=
  ⟨h, Memory.wf_writeOctets _ 0 Memory.wf_nil⟩

/-- Delivering octets keeps the output buffer canonical. -/
theorem deliverOctets_obuf_wf (v : List Byte) {s : State} (h : Memory.wf s.obuf = true) :
    Memory.wf (deliverOctets v s).obuf = true :=
  Memory.wf_writeOctets v 0 h

end Sys2Proof.Machine
end

