-- ==== Sys2Proof/Laws/CallSign.lean ====
section
/-! SUPPORT. The gate and the station codec: when the gate accepts, what it gives, which errors it has, and
that decoding a packed station gives it back whatever the ignored bits are. -/

namespace Sys2Proof.Machine

/-! ## Characters -/

theorem upcase_of_legal : ∀ {c : Byte}, legal c = true → upcase c = c := by decide

theorem legal_ne_padChar : ∀ {c : Byte}, legal c = true → c ≠ padChar := by decide

/-- Every legal code is below 0x80, so the shift loses no bit (R52). -/
theorem charOf_shiftLeft_of_legal : ∀ {c : Byte}, legal c = true → charOf (c <<< 1) = c := by decide

theorem charOf_pad : charOf (padChar <<< 1) = padChar := by decide

theorem map_upcase_of_legal {l : List Byte} (h : l.all legal = true) : l.map upcase = l := by
  rw [List.all_eq_true] at h
  exact (List.map_congr_left fun c hc => upcase_of_legal (h c hc)).trans (List.map_id' l)

/-! ## The gate (R80) -/

/-- When the gate accepts, and the value it gives. -/
theorem csCreate_ok_iff {v w : Station} :
    csCreate v = .ok w ↔
      v.ssid ≤ 15 ∧ 1 ≤ v.callSign.length ∧ v.callSign.length ≤ 6 ∧
        (v.callSign.map upcase).all legal = true ∧ w = ⟨v.callSign.map upcase, v.ssid⟩ := by
  have hlen : 1 ≤ v.callSign.length ↔ v.callSign ≠ [] := by
    cases v.callSign <;> simp
  rw [hlen, csCreate]
  split_ifs with h₁ h₂ h₃ h₄
  · exact ⟨nofun, fun h => absurd h.1 (by omega)⟩
  · exact ⟨nofun, fun h => absurd h.2.2.1 (by omega)⟩
  · exact ⟨nofun, fun h => absurd h₃ h.2.1⟩
  · simp only [Except.ok.injEq]
    exact ⟨fun h => ⟨by omega, h₃, by omega, h₄, h.symm⟩, fun h => h.2.2.2.2.symm⟩
  · exact ⟨nofun, fun h => absurd h.2.2.2.1 h₄⟩

/-- The errors of the gate (R181 to R183). -/
theorem csCreate_error {v : Station} {e : Err} (h : csCreate v = .error e) :
    e = .ssidOutOfRange ∨ e = .callSignTooLong ∨ e = .invalidCharacters := by
  rw [csCreate] at h
  split_ifs at h <;> simp_all

/-- No invalid instance comes out of the gate (R12). -/
theorem csCreate_valid {v w : Station} (h : csCreate v = .ok w) : w.Valid := by
  obtain ⟨h₁, h₂, h₃, h₄, rfl⟩ := csCreate_ok_iff.mp h
  exact ⟨by simpa using h₂, by simpa using h₃, h₄, h₁⟩

/-- The gate gives a valid value back unchanged. -/
theorem csCreate_of_valid {v : Station} (h : v.Valid) : csCreate v = .ok v := by
  obtain ⟨h₁, h₂, h₃, h₄⟩ := h
  rw [csCreate_ok_iff, map_upcase_of_legal h₃]
  exact ⟨h₄, h₁, h₂, h₃, rfl⟩

/-! ## Padding (R52, R83) -/

theorem trimPad_eq_nil_of_pad : ∀ n : Nat, trimPad (List.replicate n padChar) = []
  | 0 => rfl
  | n + 1 => by simp [List.replicate_succ, trimPad, trimPad_eq_nil_of_pad n]

/-- Trimming drops the padding after legal characters, and nothing else. -/
theorem trimPad_padding (n : Nat) : ∀ {l : List Byte}, l.all legal = true →
    trimPad (l ++ List.replicate n padChar) = l
  | [], _ => trimPad_eq_nil_of_pad n
  | c :: cs, h => by
    simp only [List.all_cons, Bool.and_eq_true] at h
    rw [List.cons_append, trimPad, trimPad_padding n h.2]
    cases cs with
    | nil => simp [legal_ne_padChar h.1]
    | cons d ds => rfl

theorem padded_length {call : List Byte} (h : call.length ≤ 6) : (padded call).length = 6 := by
  simp [padded]
  omega

/-! ## The station codec -/

/-- Decoding seven octets that hold a valid station gives that station, whatever the bits that are not looked
at (R83). -/
theorem csDecode_of_fields {v : Station} (hv : v.Valid) {b : List Byte} (hb : b.length = 7)
    (hc : (b.take 6).map charOf = padded v.callSign) (hs : (ssidOf (b.getD 6 0)).toNat = v.ssid) :
    csDecode b = .ok v := by
  rw [csDecode, if_neg (by simp [hb]), hc, hs, padded, trimPad_padding _ hv.2.2.1]
  exact csCreate_of_valid hv

theorem upcase_eq_padChar : ∀ c : Byte, upcase c = padChar ↔ c = padChar := by decide +kernel

/-- Folding neither makes nor removes a space, so it commutes with trimming. -/
theorem map_upcase_trimPad : ∀ l : List Byte, (trimPad l).map upcase = trimPad (l.map upcase)
  | [] => rfl
  | c :: cs => by
    have ih := map_upcase_trimPad cs
    rw [List.map_cons, trimPad, trimPad, ← ih]
    cases trimPad cs with
    | nil => by_cases h : c = padChar <;> simp [h, (upcase_eq_padChar c), (upcase_eq_padChar padChar)]
    | cons d ds => rfl

/-- Decoding seven octets that hold a valid station, in either case, gives that station, whatever the bits that
are not looked at (R81, R83). -/
theorem csDecode_of_folded_fields {v : Station} (hv : v.Valid) {b : List Byte} (hb : b.length = 7)
    (hc : ((b.take 6).map charOf).map upcase = padded v.callSign)
    (hs : (ssidOf (b.getD 6 0)).toNat = v.ssid) : csDecode b = .ok v := by
  have ht : (trimPad ((b.take 6).map charOf)).map upcase = v.callSign := by
    rw [map_upcase_trimPad, hc, padded, trimPad_padding _ hv.2.2.1]
  have hl : (trimPad ((b.take 6).map charOf)).length = v.callSign.length := by rw [← ht, List.length_map]
  rw [csDecode, if_neg (by simp [hb]), csCreate_ok_iff]
  rw [ht, hl, hs]
  exact ⟨hv.2.2.2, hv.1, hv.2.1, hv.2.2.1, rfl⟩

theorem packStation_length {v : Station} (h : v.callSign.length ≤ 6) : (packStation v).length = 7 := by
  simp [packStation, padded_length h]

theorem packStation_take {v : Station} (h : v.callSign.length ≤ 6) :
    (packStation v).take 6 = (padded v.callSign).map (fun (c : Byte) => c <<< 1) := by
  rw [packStation, List.take_append_of_le_length (by simp [padded_length h]),
    List.take_of_length_le (by simp [padded_length h])]

theorem packStation_getD {v : Station} (h : v.callSign.length ≤ 6) :
    (packStation v).getD 6 0 = BitVec.ofNat 8 v.ssid <<< 1 := by
  have : ((padded v.callSign).map (fun (c : Byte) => c <<< 1)).length = 6 := by simp [padded_length h]
  rw [packStation, List.getD_eq_getElem?_getD, List.getElem?_append_right (by omega), this]
  rfl

/-- The characters of a packed callsign are the padded callsign. -/
theorem padded_chars {call : List Byte} (h : call.all legal = true) :
    ((padded call).map (fun (c : Byte) => c <<< 1)).map charOf = padded call := by
  rw [List.all_eq_true] at h
  rw [List.map_map]
  refine (List.map_congr_left fun c hc => ?_).trans (List.map_id' _)
  rcases List.mem_append.mp hc with hc | hc
  · exact charOf_shiftLeft_of_legal (h c hc)
  · rw [List.eq_of_mem_replicate hc]
    exact charOf_pad

theorem ssidOf_shiftLeft : ∀ n : Fin 16, (ssidOf (BitVec.ofNat 8 n.val <<< 1)).toNat = n.val := by decide

/-- The errors of `CS.DECODE` (R83: no SSID and no length error of the gate). -/
theorem csDecode_error {b : List Byte} {e : Err} (h : csDecode b = .error e) :
    (e = .wrongFieldLength ∧ b.length ≠ 7) ∨ (e = .invalidCharacters ∧ b.length = 7) := by
  rw [csDecode] at h
  split_ifs at h with hb
  · exact .inl ⟨by simpa using h.symm, hb⟩
  · refine .inr ⟨?_, by simpa using hb⟩
    have hs : ∀ x : Byte, ¬ 15 < (ssidOf x).toNat := by decide
    have ht : ∀ l : List Byte, (trimPad l).length ≤ l.length := by
      intro l
      induction l with
      | nil => simp [trimPad]
      | cons c cs ih =>
        rw [trimPad]
        split
        · split <;> simp
        · rename_i d ds hd
          rw [hd] at ih
          simpa using ih
    have hl : ¬ 6 < (trimPad ((b.take 6).map charOf)).length := by
      have h₁ := ht ((b.take 6).map charOf)
      have h₂ : ((b.take 6).map charOf).length ≤ 6 := by simp
      omega
    rw [csCreate] at h
    rw [if_neg (hs _), if_neg hl] at h
    split_ifs at h <;> simpa using h.symm

/-- A decoded station is valid (R12, D9). -/
theorem csDecode_valid {b : List Byte} {v : Station} (h : csDecode b = .ok v) : v.Valid := by
  rw [csDecode] at h
  split_ifs at h
  exact csCreate_valid h

/-- When `CS.ENCODE` gives octets, and which (R84). -/
theorem csEncode_ok_iff {v : Station} {a : List Byte} :
    csEncode v = .ok a ↔ ∃ w, csCreate v = .ok w ∧ a = packStation w := by
  rw [csEncode]
  cases csCreate v <;> simp [eq_comm]

theorem csEncode_error {v : Station} {e : Err} : csEncode v = .error e ↔ csCreate v = .error e := by
  rw [csEncode]
  cases csCreate v <;> simp

end Sys2Proof.Machine
end

