-- ==== Sys2Proof/Laws/Address.lean ====
section
/-! SUPPORT. The address field and chain codec: what one field decodes to, what the chain loop can do, and that
encoding then decoding a chain gives it back. -/

namespace Sys2Proof.Machine

/-! ## Equality of chains (R104) -/

theorem sameEntry_iff {f g : AddressField} :
    sameEntry f g = true ↔ f.station = g.station ∧ f.flagBit = g.flagBit := by simp [sameEntry]

/-- Two lists of entries are equal when they are equally long and equal at every index (R104). -/
theorem sameEntries_iff : ∀ {fs gs : List AddressField},
    sameEntries fs gs = true ↔
      fs.length = gs.length ∧ ∀ (j : Nat) (f g : AddressField), fs[j]? = some f → gs[j]? = some g →
        f.station = g.station ∧ f.flagBit = g.flagBit
  | [], [] => by simp [sameEntries]
  | [], g :: gs => by simp [sameEntries]
  | f :: fs, [] => by simp [sameEntries]
  | f :: fs, g :: gs => by
    rw [sameEntries, Bool.and_eq_true, sameEntry_iff, sameEntries_iff]
    constructor
    · rintro ⟨h₀, hl, h⟩
      refine ⟨by simpa using hl, fun j => ?_⟩
      cases j with
      | zero => simpa using h₀
      | succ j => simpa using h j
    · rintro ⟨hl, h⟩
      exact ⟨h 0 f g rfl rfl, by simpa using hl, fun j => by simpa using h (j + 1)⟩

/-- The encode loop does not read the continuation bits (R103), so equal entries encode alike. -/
theorem acEntries_same : ∀ {fs gs : List AddressField}, sameEntries fs gs = true → acEntries fs = acEntries gs
  | [], [], _ => rfl
  | f :: fs, g :: gs, h => by
    rw [sameEntries, Bool.and_eq_true, sameEntry_iff] at h
    have he : fs.isEmpty = gs.isEmpty := by
      have := (sameEntries_iff.mp h.2).1
      cases fs <;> cases gs <;> simp_all
    rw [acEntries, acEntries, h.1.1, h.1.2, he, acEntries_same h.2]
  | [], _ :: _, h => by simp [sameEntries] at h
  | _ :: _, [], h => by simp [sameEntries] at h

/-- The views of equal entries that a derived value is made of are the same. -/
theorem derived_same : ∀ {fs gs : List AddressField}, sameEntries fs gs = true →
    fs.map (·.station) = gs.map (·.station) ∧
      (fs.filter (·.flagBit)).map (·.station) = (gs.filter (·.flagBit)).map (·.station)
  | [], [], _ => ⟨rfl, rfl⟩
  | f :: fs, g :: gs, h => by
    rw [sameEntries, Bool.and_eq_true, sameEntry_iff] at h
    obtain ⟨h₁, h₂⟩ := derived_same h.2
    refine ⟨by simp [h.1.1, h₁], ?_⟩
    rw [List.filter_cons, List.filter_cons, h.1.2]
    cases g.flagBit <;> simp [h.1.1, h₂]
  | [], _ :: _, h => by simp [sameEntries] at h
  | _ :: _, [], h => by simp [sameEntries] at h

/-- Equal chains have the same derived values (R105, R106, R108). -/
theorem deriveChain_same {c d : AddressChain} (h : sameChain c d = true) : deriveChain c = deriveChain d := by
  simp only [sameChain, AddressChain.entries, sameEntries, Bool.and_eq_true, sameEntry_iff] at h
  obtain ⟨⟨h₁, h₂⟩, ⟨h₃, h₄⟩, h₅⟩ := h
  have h₆ := derived_same h₅
  simp only [deriveChain, h₁, h₂, h₃, h₄, h₆.1, h₆.2]

/-! ## One field (R100, R101) -/

theorem ssidOf_masked : ∀ x : Byte, ssidOf (x &&& 0b0111_1110#8) = ssidOf x := by decide

/-- The masking of `AF.DECODE` changes no result (R100). -/
theorem csDecode_masked {b : List Byte} (hb : b.length = 7) :
    csDecode (b.take 6 ++ [b.getD 6 0 &&& 0b0111_1110#8]) = csDecode b := by
  have h6 : (b.take 6).length = 6 := by simp [hb]
  have h₁ : (b.take 6 ++ [b.getD 6 0 &&& 0b0111_1110#8]).length = 7 := by simp [hb]
  have h₂ : (b.take 6 ++ [b.getD 6 0 &&& 0b0111_1110#8]).take 6 = b.take 6 := by
    rw [List.take_append_of_le_length (by omega), List.take_of_length_le (by omega)]
  have h₃ : (b.take 6 ++ [b.getD 6 0 &&& 0b0111_1110#8]).getD 6 0 = b.getD 6 0 &&& 0b0111_1110#8 := by
    rw [List.getD_eq_getElem?_getD, List.getElem?_append_right (by omega), h6]
    rfl
  rw [csDecode, csDecode, h₁, h₂, h₃, ssidOf_masked, if_neg (by simp), if_neg (by simp [hb])]

/-- `AF.DECODE` is `CS.DECODE` with the two bits beside it (R100). -/
theorem afDecode_eq {b : List Byte} (hb : b.length = 7) :
    afDecode b =
      match csDecode b with
      | .error e => .error e
      | .ok v => .ok ⟨v, flagBitOf (b.getD 6 0), continuationBitOf (b.getD 6 0)⟩ := by
  cases h : csDecode b <;>
    simp only [afDecode, hb, csDecode_masked hb, h, ne_eq, not_true_eq_false, if_false]

theorem afDecode_ok_iff {b : List Byte} {f : AddressField} :
    afDecode b = .ok f ↔
      b.length = 7 ∧ csDecode b = .ok f.station ∧ f.flagBit = flagBitOf (b.getD 6 0) ∧
        f.continuationBit = continuationBitOf (b.getD 6 0) := by
  by_cases hb : b.length = 7
  · rw [afDecode_eq hb]
    cases h : csDecode b with
    | error e => simp
    | ok v => cases f; simp [hb, eq_comm]
  · simp [afDecode, hb]

/-- The errors of `AF.DECODE` (R184). -/
theorem afDecode_error {b : List Byte} {e : Err} (h : afDecode b = .error e) :
    (e = .wrongFieldLength ∧ b.length ≠ 7) ∨ (e = .invalidCharacters ∧ b.length = 7) := by
  by_cases hb : b.length = 7
  · rw [afDecode_eq hb] at h
    cases hc : csDecode b with
    | ok v => simp [hc] at h
    | error e' =>
      rw [hc] at h
      obtain rfl : e' = e := by simpa using h
      exact csDecode_error hc
  · exact .inl ⟨by simpa [afDecode, hb] using h.symm, hb⟩

/-- The seven octets of a field: six shifted characters and the SSID octet (R51). -/
theorem setFieldBits_packStation {v : Station} (h : v.callSign.length ≤ 6) (flag cont : Bool) :
    setFieldBits (packStation v) flag cont =
      (padded v.callSign).map (fun (c : Byte) => c <<< 1) ++
        [BitVec.ofNat 8 v.ssid <<< 1 ||| bitOctet flag <<< 7 ||| bitOctet cont <<< 0] := by
  rw [setFieldBits, packStation_take h, packStation_getD h]

theorem ssidOctet_fields : ∀ (n : Fin 16) (flag cont : Bool),
    let a6 := BitVec.ofNat 8 n.val <<< 1 ||| bitOctet flag <<< 7 ||| bitOctet cont <<< 0
    (ssidOf a6).toNat = n.val ∧ flagBitOf a6 = flag ∧ continuationBitOf a6 = cont := by decide

/-- Encoding then decoding a field gives it back (R101 corner cases). -/
theorem afDecode_setFieldBits {v : Station} (hv : v.Valid) (flag cont : Bool) :
    afDecode (setFieldBits (packStation v) flag cont) = .ok ⟨v, flag, cont⟩ := by
  have hc6 : ((padded v.callSign).map (fun (c : Byte) => c <<< 1)).length = 6 := by
    simp [padded_length hv.2.1]
  rw [setFieldBits_packStation hv.2.1, afDecode_ok_iff]
  have hg : ∀ x : Byte,
      ((padded v.callSign).map (fun (c : Byte) => c <<< 1) ++ [x]).getD 6 0 = x := by
    intro x
    rw [List.getD_eq_getElem?_getD, List.getElem?_append_right (by omega), hc6]
    rfl
  have hs := ssidOctet_fields ⟨v.ssid, by have := hv.2.2.2; omega⟩ flag cont
  simp only at hs
  refine ⟨by simp [padded_length hv.2.1], ?_, ?_, ?_⟩
  · refine csDecode_of_fields hv (by simp [padded_length hv.2.1]) ?_ ?_
    · rw [List.take_append_of_le_length (by omega), List.take_of_length_le (by omega)]
      exact padded_chars hv.2.2.1
    · rw [hg]
      exact hs.1
  · rw [hg]
    exact hs.2.1.symm
  · rw [hg]
    exact hs.2.2.symm

theorem setFieldBits_length {v : Station} (h : v.callSign.length ≤ 6) (flag cont : Bool) :
    (setFieldBits (packStation v) flag cont).length = 7 := by
  rw [setFieldBits_packStation h]
  simp [padded_length h]

/-- When `AF.ENCODE` gives octets, and which (R101). -/
theorem afEncode_ok_iff {f : AddressField} {a : List Byte} :
    afEncode f = .ok a ↔
      ∃ w, csCreate f.station = .ok w ∧ a = setFieldBits (packStation w) f.flagBit f.continuationBit := by
  rw [afEncode]
  cases h : csEncode f.station with
  | error e =>
    simp only [reduceCtorEq, false_iff, not_exists]
    rintro w ⟨hw, -⟩
    exact absurd (csEncode_error.mp h) (by simp [hw])
  | ok p =>
    obtain ⟨w, hw, rfl⟩ := csEncode_ok_iff.mp h
    simp [hw, eq_comm]

theorem afEncode_error {f : AddressField} {e : Err} :
    afEncode f = .error e ↔ csCreate f.station = .error e := by
  rw [← csEncode_error, afEncode]
  cases csEncode f.station <;> simp

/-! ## The chain loop (R102) -/

/-- One turn of the loop. -/
theorem acGroups_succ (fuel : Nat) (b : List Byte) :
    acGroups (fuel + 1) b =
      if b.length < 7 then .error .truncatedAddressChain
      else
        match afDecode (b.take 7) with
        | .error e => .error e
        | .ok f =>
          if f.continuationBit then .ok ([f], 7)
          else
            match acGroups fuel (b.drop 7) with
            | .error e => .error e
            | .ok (fs, n) => .ok (f :: fs, 7 + n) := rfl

/-- What the loop gives: the groups it decoded are the first octets of the buffer, every one but the last has
its continuation bit clear, and the octets they take are seven for each. -/
theorem acGroups_ok : ∀ {fuel : Nat} {b : List Byte} {fs : List AddressField} {n : Nat},
    acGroups fuel b = .ok (fs, n) →
      n = 7 * fs.length ∧ n ≤ b.length ∧ continuationMarksLast fs = true ∧
        ∀ (j : Nat) (hj : j < fs.length), afDecode ((b.drop (7 * j)).take 7) = .ok fs[j]
  | fuel + 1, b, fs, n, h => by
    rw [acGroups_succ] at h
    split_ifs at h with hb
    cases hf : afDecode (b.take 7) with
    | error e => simp [hf] at h
    | ok f =>
      simp only [hf] at h
      by_cases hc : f.continuationBit = true
      · simp only [hc, if_true, Except.ok.injEq, Prod.mk.injEq] at h
        obtain ⟨rfl, rfl⟩ := h
        refine ⟨rfl, by omega, by simpa [continuationMarksLast] using hc, ?_⟩
        intro j hj
        obtain rfl : j = 0 := by simpa using hj
        simpa using hf
      · simp only [hc, if_false, Bool.false_eq_true] at h
        cases hg : acGroups fuel (b.drop 7) with
        | error e => simp [hg] at h
        | ok r =>
          obtain ⟨gs, m⟩ := r
          simp only [hg, Except.ok.injEq, Prod.mk.injEq] at h
          obtain ⟨rfl, rfl⟩ := h
          obtain ⟨hm, hl, hmark, hall⟩ := acGroups_ok hg
          have hne : gs ≠ [] := by rintro rfl; simp [continuationMarksLast] at hmark
          refine ⟨by simp [hm]; omega, by simp at hl; omega, ?_, ?_⟩
          · cases gs with
            | nil => exact absurd rfl hne
            | cons g gs => simp [continuationMarksLast, hc, hmark]
          · intro j hj
            cases j with
            | zero => simpa using hf
            | succ j =>
              have := hall j (by simpa using hj)
              rw [List.drop_drop] at this
              simpa [show 7 * (j + 1) = 7 + 7 * j by omega] using this
  | 0, b, fs, n, h => by simp [acGroups] at h

/-- The loop decodes every chain whose groups stand in the buffer, whatever follows them. -/
theorem acGroups_of_groups : ∀ {fs : List AddressField} {fuel : Nat} {b : List Byte},
    continuationMarksLast fs = true → fs.length ≤ fuel → 7 * fs.length ≤ b.length →
    (∀ (j : Nat) (hj : j < fs.length), afDecode ((b.drop (7 * j)).take 7) = .ok fs[j]) →
    acGroups fuel b = .ok (fs, 7 * fs.length)
  | [], _, _, h, _, _, _ => by simp [continuationMarksLast] at h
  | [f], fuel + 1, b, h, _, hb, hall => by
    have hf := hall 0 (by simp)
    simp only [continuationMarksLast] at h
    simp only [Nat.mul_zero, List.drop_zero, List.getElem_cons_zero] at hf
    rw [acGroups_succ, if_neg (by simp at hb; omega), hf]
    simp [h]
  | f :: g :: fs, fuel + 1, b, h, hfu, hb, hall => by
    have hf := hall 0 (by simp)
    simp only [Nat.mul_zero, List.drop_zero, List.getElem_cons_zero] at hf
    simp only [continuationMarksLast, Bool.and_eq_true, Bool.not_eq_true'] at h
    have hrec := acGroups_of_groups (fs := g :: fs) (fuel := fuel) (b := b.drop 7) h.2
      (by simpa using hfu) (by simp at hb ⊢; omega) (by
        intro j hj
        have := hall (j + 1) (by simpa using hj)
        rw [List.drop_drop]
        simpa [show 7 * (j + 1) = 7 + 7 * j by omega] using this)
    rw [acGroups_succ, if_neg (by simp at hb; omega), hf]
    simp only [h.1, if_false, Bool.false_eq_true, hrec]
    simp
    omega

/-- When the loop fails, and why: the first group that is short, or that does not decode (R102, R197). -/
theorem acGroups_error : ∀ {fuel : Nat} {b : List Byte} {e : Err}, b.length < fuel →
    acGroups fuel b = .error e →
      ∃ n, (∀ j < n, ∃ f, afDecode ((b.drop (7 * j)).take 7) = .ok f ∧ f.continuationBit = false) ∧
        7 * n ≤ b.length ∧
        ((e = .truncatedAddressChain ∧ b.length < 7 * n + 7) ∨
          (7 * n + 7 ≤ b.length ∧ afDecode ((b.drop (7 * n)).take 7) = .error e))
  | fuel + 1, b, e, hfu, h => by
    rw [acGroups_succ] at h
    split_ifs at h with hb
    · exact ⟨0, by simp, by simp, .inl ⟨by simpa using h.symm, by omega⟩⟩
    · cases hf : afDecode (b.take 7) with
      | error e' =>
        simp only [hf, Except.error.injEq] at h
        exact ⟨0, by simp, by simp, .inr ⟨by omega, by simpa [h] using hf⟩⟩
      | ok f =>
        simp only [hf] at h
        by_cases hc : f.continuationBit = true
        · simp [hc] at h
        · simp only [hc, if_false, Bool.false_eq_true] at h
          cases hg : acGroups fuel (b.drop 7) with
          | ok r => simp [hg] at h
          | error e' =>
            simp only [hg, Except.error.injEq] at h
            subst h
            obtain ⟨n, hall, hn, hcase⟩ := acGroups_error (by simp; omega) hg
            simp only [List.length_drop, List.drop_drop] at hn hcase hall
            refine ⟨n + 1, ?_, by omega, ?_⟩
            · intro j hj
              cases j with
              | zero => exact ⟨f, by simpa using hf, by simpa using hc⟩
              | succ j =>
                rw [show 7 * (j + 1) = 7 + 7 * j by omega]
                exact hall j (by omega)
            · rw [show 7 * (n + 1) = 7 + 7 * n by omega]
              rcases hcase with ⟨h₁, h₂⟩ | ⟨h₁, h₂⟩
              · exact .inl ⟨h₁, by omega⟩
              · exact .inr ⟨by omega, h₂⟩

/-- Everything `AC.DECODE` can do (R102). -/
theorem acDecode_cases (b : List Byte) :
    (∃ c n, acDecode b = .ok (c, n) ∧ acGroups (b.length + 1) b = .ok (c.entries, n)) ∨
    (∃ f n, acDecode b = .error .addressChainTooShort ∧ acGroups (b.length + 1) b = .ok ([f], n)) ∨
    (∃ e, acDecode b = .error e ∧ acGroups (b.length + 1) b = .error e) := by
  rw [acDecode]
  cases h : acGroups (b.length + 1) b with
  | error e => exact .inr (.inr ⟨e, rfl, rfl⟩)
  | ok r =>
    obtain ⟨fs, n⟩ := r
    match fs with
    | [] => have := (acGroups_ok h).2.2.1; simp [continuationMarksLast] at this
    | [f] => exact .inr (.inl ⟨f, n, rfl, rfl⟩)
    | d :: s :: ds => exact .inl ⟨⟨d, s, ds⟩, n, rfl, rfl⟩

/-! ## The encode loop (R103) -/

/-- The octets of the entries of a chain whose stations are valid: the continuation bits are forced. -/
def forcedOctets : List AddressField → List Byte
  | [] => []
  | f :: fs => setFieldBits (packStation f.station) f.flagBit fs.isEmpty ++ forcedOctets fs

theorem acEntries_of_valid : ∀ {fs : List AddressField}, (∀ f ∈ fs, f.station.Valid) →
    acEntries fs = .ok (forcedOctets fs)
  | [], _ => rfl
  | f :: fs, h => by
    have hf : afEncode ⟨f.station, f.flagBit, fs.isEmpty⟩ =
        .ok (setFieldBits (packStation f.station) f.flagBit fs.isEmpty) :=
      afEncode_ok_iff.mpr ⟨f.station, csCreate_of_valid (h f (by simp)), rfl⟩
    rw [acEntries, hf, acEntries_of_valid (fun g hg => h g (by simp [hg]))]
    rfl

theorem forcedOctets_length : ∀ {fs : List AddressField}, (∀ f ∈ fs, f.station.Valid) →
    (forcedOctets fs).length = 7 * fs.length
  | [], _ => rfl
  | f :: fs, h => by
    rw [forcedOctets, List.length_append, setFieldBits_length (h f (by simp)).2.1,
      forcedOctets_length (fun g hg => h g (by simp [hg]))]
    simp
    omega

/-- The groups of an encoded chain decode to its entries, with the forced continuation bits. -/
theorem forcedOctets_groups : ∀ {fs : List AddressField} (rest : List Byte),
    (∀ f ∈ fs, f.station.Valid) → ∀ (j : Nat) (hj : j < fs.length),
    afDecode (((forcedOctets fs ++ rest).drop (7 * j)).take 7) =
      .ok ⟨fs[j].station, fs[j].flagBit, decide (j + 1 = fs.length)⟩
  | f :: fs, rest, h, j, hj => by
    have hf := (h f (by simp))
    have hl := setFieldBits_length hf.2.1 f.flagBit fs.isEmpty
    rw [forcedOctets, List.append_assoc]
    cases j with
    | zero =>
      rw [Nat.mul_zero, List.drop_zero, List.take_append_of_le_length (by omega),
        List.take_of_length_le (by omega), afDecode_setFieldBits hf]
      cases fs <;> simp
    | succ j =>
      have hd : (setFieldBits (packStation f.station) f.flagBit fs.isEmpty ++
          (forcedOctets fs ++ rest)).drop 7 = forcedOctets fs ++ rest := by
        rw [← hl, List.drop_left]
      rw [show 7 * (j + 1) = 7 + 7 * j by omega, ← List.drop_drop, hd]
      simpa using forcedOctets_groups rest (fun g hg => h g (by simp [hg])) j (by simpa using hj)

theorem continuationMarksLast_getElem : ∀ {fs : List AddressField}, continuationMarksLast fs = true →
    ∀ (j : Nat) (hj : j < fs.length), fs[j].continuationBit = decide (j + 1 = fs.length)
  | [f], h, 0, _ => by simpa [continuationMarksLast] using h
  | f :: g :: fs, h, j, hj => by
    simp only [continuationMarksLast, Bool.and_eq_true, Bool.not_eq_true'] at h
    cases j with
    | zero => simp [h.1]
    | succ j => simpa using continuationMarksLast_getElem h.2 j (by simpa using hj)

/-- Decoding an encoded valid chain gives the chain back, whatever follows it (R104, R166). -/
theorem acDecode_forcedOctets {c : AddressChain} (hc : c.Valid) (rest : List Byte) :
    acDecode (forcedOctets c.entries ++ rest) = .ok (c, 7 * c.entries.length) := by
  have hl := forcedOctets_length hc.1
  have hg : acGroups ((forcedOctets c.entries ++ rest).length + 1) (forcedOctets c.entries ++ rest) =
      .ok (c.entries, 7 * c.entries.length) := by
    refine acGroups_of_groups hc.2 (by simp [hl]; omega) (by simp [hl]) ?_
    intro j hj
    rw [forcedOctets_groups rest hc.1 j hj, ← continuationMarksLast_getElem hc.2 j hj]
  rw [acDecode, hg]
  rfl

/-- The entries of a list with the continuation bits that an encode forces (R103). -/
def forceMarks : List AddressField → List AddressField
  | [] => []
  | f :: fs => ⟨f.station, f.flagBit, fs.isEmpty⟩ :: forceMarks fs

theorem sameEntries_forceMarks : ∀ fs : List AddressField, sameEntries fs (forceMarks fs) = true
  | [] => rfl
  | f :: fs => by simp [forceMarks, sameEntries, sameEntry, sameEntries_forceMarks fs]

theorem continuationMarksLast_forceMarks : ∀ {fs : List AddressField}, fs ≠ [] →
    continuationMarksLast (forceMarks fs) = true
  | [f], _ => rfl
  | f :: g :: fs, _ => by
    have ih := continuationMarksLast_forceMarks (fs := g :: fs) (by simp)
    rw [forceMarks] at ih
    simp only [forceMarks, continuationMarksLast, List.isEmpty_cons, Bool.not_false, Bool.true_and]
    exact ih

theorem stations_forceMarks : ∀ {fs : List AddressField}, (∀ f ∈ fs, f.station.Valid) →
    ∀ f ∈ forceMarks fs, f.station.Valid
  | f :: fs, h, g, hg => by
    rw [forceMarks, List.mem_cons] at hg
    rcases hg with rfl | hg
    · exact h f (by simp)
    · exact stations_forceMarks (fun k hk => h k (by simp [hk])) g hg

/-- A chain the host builds, its continuation bits as they may be, is equal (R104) to a valid one. -/
theorem exists_valid_sameChain {c : AddressChain} (h : c.StationsValid) :
    ∃ d : AddressChain, d.Valid ∧ sameChain c d = true := by
  refine ⟨⟨⟨c.destination.station, c.destination.flagBit, false⟩,
    ⟨c.source.station, c.source.flagBit, c.digipeaters.isEmpty⟩, forceMarks c.digipeaters⟩, ⟨?_, ?_⟩, ?_⟩
  · exact stations_forceMarks h
  · exact continuationMarksLast_forceMarks (fs := c.entries) (by simp [AddressChain.entries])
  · exact sameEntries_forceMarks c.entries

/-- The errors of the encode loop are the gate's, for the first entry that fails it (R103). -/
theorem acEntries_error : ∀ {fs : List AddressField} {e : Err}, acEntries fs = .error e →
    ∃ (j : Nat) (hj : j < fs.length), csCreate fs[j].station = .error e ∧
      ∀ (k : Nat) (hk : k < j), ∃ w, csCreate (fs[k]'(hk.trans hj)).station = .ok w
  | [], e, h => by simp [acEntries] at h
  | f :: fs, e, h => by
    rw [acEntries] at h
    cases hf : afEncode ⟨f.station, f.flagBit, fs.isEmpty⟩ with
    | error e' =>
      simp only [hf, Except.error.injEq] at h
      subst h
      have he := afEncode_error.mp hf
      exact ⟨0, by simp, by simpa using he, fun k hk => absurd hk (by omega)⟩
    | ok a =>
      simp only [hf] at h
      cases hr : acEntries fs with
      | ok r => simp [hr] at h
      | error e' =>
        simp only [hr, Except.error.injEq] at h
        subst h
        obtain ⟨j, hj, h₁, h₂⟩ := acEntries_error hr
        obtain ⟨w, hw, -⟩ := afEncode_ok_iff.mp hf
        refine ⟨j + 1, by simpa using hj, by simpa using h₁, ?_⟩
        intro k hk
        cases k with
        | zero => exact ⟨w, by simpa using hw⟩
        | succ k => simpa using h₂ k (by omega)

end Sys2Proof.Machine
end

