-- ==== Sys2Proof/Laws/Control.lean ====
section
/-! SUPPORT. The control-field codec: the two octets of a control word, every case of `CTL.DECODE`, and that
encoding then decoding a frame kind gives it back. -/

namespace Sys2Proof.Machine

/-! ## The control word in octet terms (R32, R124) -/

theorem controlWord_sendSeq (c0 c1 : Byte) :
    (controlWord c0 c1).extractLsb' 1 7 = c0.extractLsb' 1 7 := by
  ext i hi
  interval_cases i <;> simp [controlWord]

theorem controlWord_func (c0 c1 : Byte) :
    (controlWord c0 c1).extractLsb' 2 2 = c0.extractLsb' 2 2 := by
  ext i hi
  interval_cases i <;> simp [controlWord]

theorem recvSeq128_controlWord (c0 c1 : Byte) :
    recvSeq128 (controlWord c0 c1) = (c1.extractLsb' 1 7).toNat := by
  rw [recvSeq128]
  congr 1
  ext i hi
  interval_cases i <;> simp [controlWord]

theorem pollFinal128_controlWord (c0 c1 : Byte) :
    pollFinal128 (controlWord c0 c1) = c1.getLsbD 0 := by
  simp [pollFinal128, controlWord]

/-- Disjoint fields OR-ed into a word are its two octets (R32). -/
theorem wordOctets_or (x y z : Byte) :
    wordOctets (y.setWidth 16 <<< 8 ||| z.setWidth 16 <<< 8 ||| x.setWidth 16) = [x, y ||| z] := by
  simp only [wordOctets, List.cons.injEq, and_true]
  constructor <;> ext i hi <;> interval_cases i <;> simp

theorem seq_shift_low : ∀ n : Fin 128, BitVec.ofNat 16 n.val <<< 1 =
    (BitVec.ofNat 8 n.val <<< 1).setWidth 16 := by decide +kernel

theorem seq_shift_high : ∀ n : Fin 128, BitVec.ofNat 16 n.val <<< 9 =
    (BitVec.ofNat 8 n.val <<< 1).setWidth 16 <<< 8 := by decide +kernel

/-- The octets of an `I.M128` control field (R124). -/
theorem encodeI128_octets {ns nr : Nat} (hns : ns ≤ 127) (hnr : nr ≤ 127) (p : Bool) :
    encodeI128 ns nr p = [BitVec.ofNat 8 ns <<< 1, BitVec.ofNat 8 nr <<< 1 ||| bitOctet p] := by
  have h₁ := seq_shift_low ⟨ns, by omega⟩
  have h₂ := seq_shift_high ⟨nr, by omega⟩
  simp only at h₁ h₂
  rw [encodeI128, h₁, h₂, wordOctets_or]

theorem sFunction_word : ∀ fn : SFunction,
    (sFunctionField fn).setWidth 16 <<< 2 ||| 0b01#16 = (sFunctionField fn <<< 2 ||| 0b01#8).setWidth 16 := by
  intro fn
  cases fn <;> decide

/-- The octets of a modulo-128 S control field (R129 to R132). -/
theorem encodeSFrame128_octets (fn : SFunction) {nr : Nat} (hnr : nr ≤ 127) (p : Bool) :
    encodeSFrame128 fn nr p =
      [sFunctionField fn <<< 2 ||| 0b01#8, BitVec.ofNat 8 nr <<< 1 ||| bitOctet p] := by
  have h := seq_shift_high ⟨nr, by omega⟩
  simp only at h
  rw [encodeSFrame128, BitVec.or_assoc, sFunction_word, h, wordOctets_or]

/-! ## Every octet has a kind (R54) -/

theorem lowBit_cases : ∀ c0 : Byte,
    (c0 &&& 0b01#8 = 0b00#8) ∨
    (¬ c0 &&& 0b01#8 = 0b00#8 ∧ c0 &&& 0b11#8 = 0b01#8) ∨
    (¬ c0 &&& 0b01#8 = 0b00#8 ∧ ¬ c0 &&& 0b11#8 = 0b01#8 ∧ c0 &&& 0b11#8 = 0b11#8) := by decide +kernel

/-- `checkSeq` tests the bound (R122). -/
theorem checkSeq_ok {v : Nat} {mo : Modulo} (h : v ≤ seqBound mo) : checkSeq v mo = .ok () := by
  cases mo <;> simp only [seqBound] at h <;> rw [checkSeq, if_neg (by omega)]

theorem checkSeq_error {v : Nat} {mo : Modulo} (h : ¬ v ≤ seqBound mo) :
    checkSeq v mo = .error .sequenceNumberOutOfRange := by
  cases mo <;> simp only [seqBound] at h <;> rw [checkSeq, if_pos (by omega)]

/-- The error of the U format (R142). -/
theorem decodeU_error {c0 : Byte} {e : Err} (h : decodeU c0 = .error e) : e = .unknownModifier := by
  rw [decodeU] at h
  split at h
  · simp at h
  · simpa using h.symm

/-- The errors of `CTL.DECODE` (R187, R189). -/
theorem ctlDecode_error {mo : Modulo} {b : List Byte} {e : Err} (h : ctlDecode mo b = .error e) :
    e = .shortControlField ∨ e = .unknownModifier := by
  cases b with
  | nil => exact .inl (by simpa [ctlDecode] using h.symm)
  | cons c0 rest =>
    simp only [ctlDecode] at h
    split_ifs at h
    · cases mo <;> cases rest <;> simp_all
    · cases mo <;> cases rest <;> simp_all
    · cases hu : decodeU c0 with
      | ok k => simp [hu] at h
      | error e' =>
        obtain rfl : e' = e := by simpa [hu] using h
        exact .inr (decodeU_error hu)

/-- The octets `CTL.DECODE` consumes are there (R36). -/
theorem ctlDecode_consumed {mo : Modulo} {b : List Byte} {k : FrameKind} {n : Nat}
    (h : ctlDecode mo b = .ok (k, n)) : 1 ≤ n ∧ n ≤ 2 ∧ n ≤ b.length := by
  cases b with
  | nil => simp [ctlDecode] at h
  | cons c0 rest =>
    simp only [ctlDecode] at h
    split_ifs at h
    · cases mo <;> cases rest <;> simp_all <;> omega
    · cases mo <;> cases rest <;> simp_all <;> omega
    · cases hu : decodeU c0 <;> simp [hu] at h
      simp; omega

/-- `CTL.ENCODE` refuses what is out of range, with one error (R121, R122). -/
theorem ctlEncode_error_iff {mo : Modulo} {k : FrameKind} {e : Err} :
    ctlEncode mo k = .error e ↔ e = .sequenceNumberOutOfRange ∧ k.inRange mo = false := by
  cases k with
  | i ns nr p =>
    by_cases h₁ : ns ≤ seqBound mo <;> by_cases h₂ : nr ≤ seqBound mo <;> cases mo <;>
      simp [ctlEncode, FrameKind.inRange, h₁, h₂, checkSeq_ok, checkSeq_error, eq_comm]
  | s fn nr p =>
    by_cases h₂ : nr ≤ seqBound mo <;> cases mo <;>
      simp [ctlEncode, FrameKind.inRange, h₂, checkSeq_ok, checkSeq_error, eq_comm]
  | u m p => simp [ctlEncode, FrameKind.inRange]

/-! ## Encode then decode (R145) -/

theorem i8_fields : ∀ (ns nr : Fin 8) (p : Bool),
    let c0 := BitVec.ofNat 8 nr.val <<< 5 ||| bitOctet p <<< 4 ||| BitVec.ofNat 8 ns.val <<< 1
    c0 &&& 0b01#8 = 0b00#8 ∧ decodeI8 c0 = .i ns.val nr.val p := by decide +kernel

theorem s8_fields : ∀ (fn : Fin 4) (nr : Fin 8) (p : Bool),
    let f := sFunctionOf (BitVec.ofNat 8 fn.val)
    let c0 := BitVec.ofNat 8 nr.val <<< 5 ||| bitOctet p <<< 4 ||| sFunctionField f <<< 2 ||| 0b01#8
    ¬ c0 &&& 0b01#8 = 0b00#8 ∧ c0 &&& 0b11#8 = 0b01#8 ∧ decodeS8 c0 = .s f nr.val p := by decide +kernel

theorem sFunctionOf_surj : ∀ fn : SFunction, ∃ n : Fin 4, fn = sFunctionOf (BitVec.ofNat 8 n.val) := by
  intro fn
  cases fn
  · exact ⟨0, by decide⟩
  · exact ⟨1, by decide⟩
  · exact ⟨2, by decide⟩
  · exact ⟨3, by decide⟩

theorem seq_low_octet : ∀ n : Fin 128,
    (BitVec.ofNat 8 n.val <<< 1) &&& 0b01#8 = 0b00#8 ∧
      ((BitVec.ofNat 8 n.val <<< 1).extractLsb' 1 7).toNat = n.val := by decide +kernel

theorem seq_high_octet : ∀ (n : Fin 128) (p : Bool),
    ((BitVec.ofNat 8 n.val <<< 1 ||| bitOctet p).extractLsb' 1 7).toNat = n.val ∧
      (BitVec.ofNat 8 n.val <<< 1 ||| bitOctet p).getLsbD 0 = p := by decide +kernel

theorem s128_low_octet : ∀ fn : SFunction,
    let c0 := sFunctionField fn <<< 2 ||| 0b01#8
    ¬ c0 &&& 0b01#8 = 0b00#8 ∧ c0 &&& 0b11#8 = 0b01#8 ∧
      sFunctionOf ((c0.extractLsb' 2 2).setWidth 8) = fn := by
  intro fn
  cases fn <;> decide

theorem u_fields : ∀ (m : UModifier) (p : Bool),
    let c0 := uPattern m ||| bitOctet p <<< 4 ||| 0b11#8
    ¬ c0 &&& 0b01#8 = 0b00#8 ∧ ¬ c0 &&& 0b11#8 = 0b01#8 ∧ decodeU c0 = .ok (.u m p) := by
  intro m p
  cases m <;> cases p <;> exact ⟨by decide, by decide, rfl⟩

/-- Encoding a frame kind in range, then decoding it, gives it back, whatever follows it. -/
theorem ctlDecode_ctlEncode {mo : Modulo} {k : FrameKind} (hk : k.inRange mo = true) :
    ∃ a, ctlEncode mo k = .ok a ∧ ∀ rest, ctlDecode mo (a ++ rest) = .ok (k, a.length) := by
  cases k with
  | i ns nr p =>
    simp only [FrameKind.inRange, Bool.and_eq_true, decide_eq_true_eq] at hk
    cases mo with
    | m8 =>
      have h := i8_fields ⟨ns, by have := hk.1; simp [seqBound] at this; omega⟩
        ⟨nr, by have := hk.2; simp [seqBound] at this; omega⟩ p
      simp only at h
      refine ⟨encodeI8 ns nr p, by simp [ctlEncode, checkSeq_ok, hk.1, hk.2], fun rest => ?_⟩
      rw [encodeI8, List.singleton_append, ctlDecode, if_pos h.1, h.2]
      rfl
    | m128 =>
      have h₁ : ns ≤ 127 := hk.1
      have h₂ : nr ≤ 127 := hk.2
      have hlo := seq_low_octet ⟨ns, by omega⟩
      have hhi := seq_high_octet ⟨nr, by omega⟩ p
      simp only at hlo hhi
      refine ⟨encodeI128 ns nr p, by simp [ctlEncode, checkSeq_ok, hk.1, hk.2], fun rest => ?_⟩
      rw [encodeI128_octets h₁ h₂]
      simp only [List.cons_append, List.nil_append, ctlDecode, hlo.1, if_true]
      rw [decodeI128, controlWord_sendSeq, recvSeq128_controlWord, pollFinal128_controlWord, hlo.2,
        hhi.1, hhi.2]
      rfl
  | s fn nr p =>
    simp only [FrameKind.inRange, decide_eq_true_eq] at hk
    cases mo with
    | m8 =>
      obtain ⟨n, rfl⟩ := sFunctionOf_surj fn
      have h := s8_fields n ⟨nr, by simp [seqBound] at hk; omega⟩ p
      simp only at h
      refine ⟨encodeSFrame8 (sFunctionOf (BitVec.ofNat 8 n.val)) nr p,
        by simp [ctlEncode, checkSeq_ok, hk], fun rest => ?_⟩
      rw [encodeSFrame8, List.singleton_append, ctlDecode, if_neg h.1, if_pos h.2.1, h.2.2]
      rfl
    | m128 =>
      have h₂ : nr ≤ 127 := hk
      have hlo := s128_low_octet fn
      have hhi := seq_high_octet ⟨nr, by omega⟩ p
      simp only at hlo hhi
      refine ⟨encodeSFrame128 fn nr p, by simp [ctlEncode, checkSeq_ok, hk], fun rest => ?_⟩
      rw [encodeSFrame128_octets fn h₂]
      simp only [List.cons_append, List.nil_append, ctlDecode, hlo.1, hlo.2.1, if_true, if_false]
      rw [decodeS128, controlWord_func, recvSeq128_controlWord, pollFinal128_controlWord, hlo.2.2,
        hhi.1, hhi.2]
      rfl
  | u m p =>
    have h := u_fields m p
    simp only at h
    refine ⟨encodeUFrame m p, rfl, fun rest => ?_⟩
    rw [encodeUFrame, List.singleton_append]
    simp only [ctlDecode, h.1, h.2.1, h.2.2, if_false]
    rfl

end Sys2Proof.Machine
end

