-- ==== Sys2Proof/Laws/Decode.lean ====
section
/-! SUPPORT. The table's decoder: which row an octet selects, in the terms of `CTL.DECODE`'s masks. -/

namespace Sys2Proof

open Sys2Proof.Machine

/-! ## Well-formed fields -/

theorem wellFormed_addrChar {c : Nat} : (Instr.addrChar c).wellFormed = true ↔ c ≤ 127 := by
  simp [Instr.wellFormed]

theorem wellFormed_addrSsid {f e : Bool} {n : Nat} : (Instr.addrSsid f n e).wellFormed = true ↔ n ≤ 15 := by
  simp [Instr.wellFormed]

theorem wellFormed_iM8 {ns nr : Nat} {p : Bool} :
    (Instr.iM8 ns nr p).wellFormed = true ↔ ns ≤ 7 ∧ nr ≤ 7 := by
  simp only [Instr.wellFormed, Bool.and_eq_true, decide_eq_true_eq]
  rfl

theorem wellFormed_iM128 {ns nr : Nat} {p : Bool} :
    (Instr.iM128 ns nr p).wellFormed = true ↔ ns ≤ 127 ∧ nr ≤ 127 := by
  simp only [Instr.wellFormed, Bool.and_eq_true, decide_eq_true_eq]
  rfl

/-! ## Rows -/

/-- A control field of one octet decodes the same whatever follows it. -/
theorem decode_control_append {m : Modulo} {c0 : Byte} {i : Instr}
    (h : decode (.control m) [c0] = .ok (i, [])) (rest : List Byte) :
    decode (.control m) (c0 :: rest) = .ok (i, rest) := by
  simp only [decode, decodeControl] at h ⊢
  cases hr : controlRowOf m c0 with
  | none => simp [hr] at h
  | some r =>
    rw [hr] at h
    simp only [] at h ⊢
    split at h
    · simp at h
    · simp_all
    · split <;> simp_all

/-- An octet with bit 0 clear selects the I row (R54). -/
theorem controlRowOf_i (m : Modulo) {c0 : Byte} (h : c0 &&& 0x01#8 = 0) :
    controlRowOf m c0 = (controlRows m).head? := by
  cases m <;> simp [controlRowOf, controlRows, isRows, h]

/-- An octet with low bits 01 has the low half of one of the four S rows (R57, R58, R61). -/
theorem supervisory_low_half : ∀ c0 : Byte, c0 &&& 0b11#8 = 0b01#8 →
    ∃ f : Fin 4, c0 &&& 0b0000_1111#8 = BitVec.ofNat 8 (f.val * 4 + 1) := by decide +kernel

theorem supervisory_fields : ∀ (f : Fin 4) (c : Byte), c &&& 0b0000_1111#8 = BitVec.ofNat 8 (f.val * 4 + 1) →
    ¬ c &&& 0b01#8 = 0b00#8 ∧ c &&& 0b11#8 = 0b01#8 ∧
      decodeS8 c =
        .s (sFunctionOf (BitVec.ofNat 8 f.val)) (c.extractLsb' 5 3).toNat (c.getLsbD 4) ∧
      (c.extractLsb' 2 2).setWidth 8 = BitVec.ofNat 8 f.val := by decide +kernel

theorem information_fields : ∀ c : Byte,
    decodeI8 c = .i (c.extractLsb' 1 3).toNat (c.extractLsb' 5 3).toNat (c.getLsbD 4) := by decide +kernel

/-- A low half of an S row selects that row (R125 to R132). -/
theorem controlRowOf_s (m : Modulo) {c0 : Byte} (f : Fin 4)
    (h : c0 &&& 0b0000_1111#8 = BitVec.ofNat 8 (f.val * 4 + 1)) :
    controlRowOf m c0 = ((controlRows m).drop (f.val + 1)).head? := by
  have h₀ : (c0 &&& 1#8 == 0#8) = false := by simpa using (supervisory_fields f c0 h).1
  cases m <;> rw [controlRowOf, controlRows, isRows] <;>
    simp only [List.cons_append, List.nil_append, List.find?] <;>
    match f, h with
    | 0, h => replace h : c0 &&& 15#8 = 1#8 := h; simp [h]; rw [h₀]
    | 1, h => replace h : c0 &&& 15#8 = 5#8 := h; simp [h]; rw [h₀]
    | 2, h => replace h : c0 &&& 15#8 = 9#8 := h; simp [h]; rw [h₀]
    | 3, h => replace h : c0 &&& 15#8 = 13#8 := h; simp [h]; rw [h₀]

/-! ## The octets of a row (R121) -/

theorem u_octets (m : UModifier) (p : Bool) (mo : Modulo) : encodeUFrame m p = encode (rowOf mo (.u m p)) := by
  cases m <;> cases p <;> rfl

theorem i8_octets : ∀ (ns nr : Fin 8) (p : Bool),
    encodeI8 ns.val nr.val p = encode (.iM8 ns.val nr.val p) := by decide +kernel

theorem s8_octets (fn : SFunction) : ∀ (nr : Fin 8) (p : Bool),
    encodeSFrame8 fn nr.val p = encode (rowOf .m8 (.s fn nr.val p)) := by
  cases fn <;> decide +kernel

theorem seq_octet : ∀ n : Fin 128, BitVec.ofNat 8 n.val <<< 1 = BitVec.ofNat 8 (n.val * 2) := by decide +kernel

theorem seq_poll_octet : ∀ (n : Fin 128) (p : Bool),
    BitVec.ofNat 8 n.val <<< 1 ||| bitOctet p = BitVec.ofNat 8 (n.val * 2 + boolNat p) := by decide +kernel

theorem i128_octets (ns nr : Fin 128) (p : Bool) :
    encodeI128 ns.val nr.val p = encode (.iM128 ns.val nr.val p) := by
  rw [encodeI128_octets (by omega) (by omega), seq_octet, seq_poll_octet]
  rfl

theorem s128_octets (fn : SFunction) (nr : Fin 128) (p : Bool) :
    encodeSFrame128 fn nr.val p = encode (rowOf .m128 (.s fn nr.val p)) := by
  rw [encodeSFrame128_octets fn (by omega), seq_poll_octet]
  cases fn <;> rfl

end Sys2Proof
end

