-- ==== Sys2Proof/Laws/Frame.lean ====
section
/-! SUPPORT. The payload check and the whole-frame codec. -/

namespace Sys2Proof.Machine

/-- `PL.CHECK` passes exactly the payloads whose length fits, unchanged (R161). -/
theorem plCheck_ok_iff {k : FrameKind} {p q : List Byte} :
    plCheck k p = .ok q ↔ payloadFits k p = true ∧ q = p := by
  rw [plCheck, payloadFits]
  cases payloadClass k with
  | pidInfo =>
    by_cases h : p.length < 1
    · simp [h]
    · simp [h, eq_comm]; omega
  | none => by_cases h : 0 < p.length <;> simp [h, eq_comm] <;> omega
  | raw => simp [eq_comm]
  | fixed3 => by_cases h : p.length = 3 <;> simp [h, eq_comm]

/-- The errors of `PL.CHECK` (R190 to R192). -/
theorem plCheck_error_iff {k : FrameKind} {p : List Byte} {e : Err} :
    plCheck k p = .error e ↔
      (e = .missingProtocolId ∧ payloadClass k = .pidInfo ∧ p.length = 0) ∨
      (e = .unexpectedTrailingData ∧ payloadClass k = .none ∧ p.length ≠ 0) ∨
      (e = .invalidFrmrLength ∧ payloadClass k = .fixed3 ∧ p.length ≠ 3) := by
  rw [plCheck]
  cases payloadClass k with
  | pidInfo => by_cases h : p.length < 1 <;> simp [h, eq_comm] <;> omega
  | none => by_cases h : 0 < p.length <;> simp [h, eq_comm] <;> omega
  | raw => simp
  | fixed3 => by_cases h : p.length = 3 <;> simp [h, eq_comm]

/-- Equal frames (R166) encode alike. -/
theorem frameEncode_same {mo : Modulo} {f g : Frame} (h : sameFrame f g = true) :
    frameEncode mo f = frameEncode mo g := by
  simp only [sameFrame, Bool.and_eq_true, decide_eq_true_eq] at h
  rw [frameEncode, frameEncode, h.2.1, h.2.2, acEncode, acEncode, acEntries_same h.1]

/-- The errors of `AC.DECODE` (R102, R203). -/
theorem acDecode_error {b : List Byte} {e : Err} (h : acDecode b = .error e) :
    e = .truncatedAddressChain ∨ e = .invalidCharacters ∨ e = .addressChainTooShort := by
  rcases acDecode_cases b with ⟨c, n, hd, -⟩ | ⟨f, n, hd, -⟩ | ⟨e', hd, hg⟩
  · simp [hd] at h
  · exact .inr (.inr (by simpa [hd] using h.symm))
  · obtain rfl : e' = e := by simpa [hd] using h
    obtain ⟨n, -, -, ⟨rfl, -⟩ | ⟨hl, he⟩⟩ := acGroups_error (by omega) hg
    · exact .inl rfl
    · rcases afDecode_error he with ⟨-, hne⟩ | ⟨rfl, -⟩
      · exact absurd (by simp; omega) hne
      · exact .inr (.inl rfl)

/-- Encoding a valid frame gives octets, at least fifteen of them, and decoding them gives it back (R164,
R166). -/
theorem frameDecode_frameEncode {mo : Modulo} {f : Frame} (hf : f.Valid mo) :
    ∃ a, frameEncode mo f = .ok a ∧ 15 ≤ a.length ∧ frameDecode mo a = .ok f := by
  obtain ⟨ha, hk, hp⟩ := hf
  obtain ⟨c, hc, hcd⟩ := ctlDecode_ctlEncode hk
  have hcn := (ctlDecode_consumed (hcd [])).1
  have he : acEncode f.addresses = .ok (forcedOctets f.addresses.entries) := acEntries_of_valid ha.1
  have hl := forcedOctets_length ha.1
  have hn : 2 ≤ f.addresses.entries.length := by simp [AddressChain.entries]
  refine ⟨forcedOctets f.addresses.entries ++ c ++ f.payload, ?_, ?_, ?_⟩
  · simp [frameEncode, he, hc, (plCheck_ok_iff (q := f.payload)).mpr ⟨hp, rfl⟩]
  · simp only [List.length_append, hl]
    omega
  · have h₁ := acDecode_forcedOctets ha (c ++ f.payload)
    have hd : (forcedOctets f.addresses.entries ++ (c ++ f.payload)).drop
        (7 * f.addresses.entries.length) = c ++ f.payload := by
      rw [← hl, List.drop_left]
    have hd' : (forcedOctets f.addresses.entries ++ (c ++ f.payload)).drop
        (7 * f.addresses.entries.length + c.length) = f.payload := by
      rw [← List.drop_drop, hd, List.drop_left]
    rw [List.append_assoc, frameDecode, if_neg (by simp only [List.length_append, hl]; omega), h₁]
    simp only [hd, hd', hcd f.payload, (plCheck_ok_iff (q := f.payload)).mpr ⟨hp, rfl⟩]

end Sys2Proof.Machine
end

