-- ==== Sys2Proof/Laws/Exec.lean ====
section
/-! SUPPORT. Everything an instruction can do, said once: `exec` always answers a next state, which is one of
the four ways an operation ends; and which errors it can end with. -/

namespace Sys2Proof.Machine

/-- The status an operation ends with is the error of its codec function, if that has one. -/
theorem finish_status_error_iff {α : Type} {r : Except Err α} {deliver : α → State → State} {s t : State}
    {e : Err} (hd : ∀ x, (deliver x s).status = .ok) (h : finish r deliver s = .next t) :
    t.status = .error e ↔ r = .error e := by
  cases r with
  | ok x => obtain rfl : deliver x s = t := by simpa using h
            simp [hd]
  | error x => obtain rfl : raise x s = t := by simpa using h
               simp

/-! ## The input buffer -/

theorem inputOctets_nil {s : State} (h : s.ilen = 0) : inputOctets s = [] := by rw [inputOctets, h]; rfl

theorem inputOctets_cons {s : State} (h : 1 ≤ s.ilen) :
    inputOctets s = Memory.read s.ibuf 0 :: Memory.octets s.ibuf 1 (s.ilen - 1) := by
  obtain ⟨n, hn⟩ : ∃ n, s.ilen = n + 1 := ⟨s.ilen - 1, by omega⟩
  rw [inputOctets, hn]
  rfl

theorem inputOctets_cons_cons {s : State} (h : 2 ≤ s.ilen) :
    inputOctets s = Memory.read s.ibuf 0 :: Memory.read s.ibuf 1 :: Memory.octets s.ibuf 2 (s.ilen - 2) := by
  obtain ⟨n, hn⟩ : ∃ n, s.ilen = n + 2 := ⟨s.ilen - 2, by omega⟩
  rw [inputOctets, hn]
  rfl

/-- The octets of the group at an offset (R39). -/
theorem inputOctets_group (s : State) (j : Nat) (h : 7 * j + 7 ≤ s.ilen) :
    ((inputOctets s).drop (7 * j)).take 7 = Memory.octets s.ibuf (7 * j) 7 := by
  rw [inputOctets, Memory.drop_octets, Nat.zero_add]
  apply List.ext_getElem
  · simp; omega
  · intro i h₁ h₂
    rw [List.getElem_take, Memory.getElem_octets, Memory.getElem_octets]

/-! ## The default parameters refuse nothing (D4, D5) -/

@[simp] theorem limits_callBound : Config.limits.callBound = none := rfl
@[simp] theorem limits_ssidWidth : Config.limits.ssidWidth = none := rfl
@[simp] theorem limits_seqWidth : Config.limits.seqWidth = none := rfl
@[simp] theorem limits_maxFrameOctets : Config.limits.maxFrameOctets = none := rfl
@[simp] theorem limits_maxAddrEntries : Config.limits.maxAddrEntries = none := rfl

/-- Every implementation can hold 7 characters, an SSID below 32 and a sequence number below 256 (R6, D4). -/
theorem callBound_ge {lim : Config.Limits} {b : Nat} (h : lim.callBound = some b) : 7 ≤ b := by
  obtain ⟨n, -, rfl⟩ := Option.map_eq_some_iff.mp h
  exact n.2

theorem ssidWidth_ge {lim : Config.Limits} {k : Nat} (h : lim.ssidWidth = some k) : 5 ≤ k := by
  obtain ⟨n, -, rfl⟩ := Option.map_eq_some_iff.mp h
  exact n.2

theorem seqWidth_ge {lim : Config.Limits} {k : Nat} (h : lim.seqWidth = some k) : 8 ≤ k := by
  obtain ⟨n, -, rfl⟩ := Option.map_eq_some_iff.mp h
  exact n.2

theorem stationFits_least {lim : Config.Limits} {v : Station} (hc : v.callSign.length ≤ 7) (hs : v.ssid < 32) :
    stationFits lim v = true := by
  rw [stationFits, Bool.and_eq_true]
  constructor
  · cases h : lim.callBound with
    | none => rfl
    | some b => simpa [withinBound] using hc.trans (callBound_ge h)
  · cases h : lim.ssidWidth with
    | none => rfl
    | some k =>
      simpa [fitsBits] using hs.trans_le (Nat.pow_le_pow_right (n := 2) (by omega) (ssidWidth_ge h))

theorem fitsBits_seqWidth {lim : Config.Limits} {n : Nat} (hn : n < 256) : fitsBits lim.seqWidth n = true := by
  cases h : lim.seqWidth with
  | none => rfl
  | some k => simpa [fitsBits] using hn.trans_le (Nat.pow_le_pow_right (n := 2) (by omega) (seqWidth_ge h))

theorem kindFits_least {lim : Config.Limits} {k : FrameKind} (h : ∀ n ∈ sequenceNumbers k, n < 256) :
    kindFits lim k = true := by
  cases k <;> simp_all [kindFits, sequenceNumbers, fitsBits_seqWidth]

theorem presentable_default (i : Instr) (s : State) : presentable Config.limits i s = true := by
  cases i <;> simp [presentable, stationFits, withinBound, fitsBits, chainFits] <;>
    cases s.irec.kind <;> simp [kindFits, fitsBits]

theorem resultFits_default (i : Instr) (t : State) : resultFits Config.limits i t = true := by
  unfold resultFits
  split <;> simp [withinBound]

/-! ## `exec` -/

/-- Every instruction answers a next state. -/
theorem exec_next (i : Instr) (s : State) : ∃ t, exec i s = .next t := by
  cases i <;> first | exact finish_next _ _ _ | exact ⟨_, rfl⟩

/-- The four ways an instruction ends. -/
theorem exec_cases {i : Instr} {s t : State} (h : exec i s = .next t) :
    (∃ r, t = deliverRecord r s) ∨ (∃ r n, t = deliverConsumed r n s) ∨ (∃ v, t = deliverOctets v s) ∨
      (∃ e, t = raise e s) := by
  cases i
  all_goals first
    | (rcases finish_cases h with ⟨v, -, rfl⟩ | ⟨e, -, rfl⟩
       · first
         | exact .inl ⟨_, rfl⟩
         | exact .inr (.inl ⟨_, _, rfl⟩)
         | exact .inr (.inr (.inl ⟨_, rfl⟩))
       · exact .inr (.inr (.inr ⟨_, rfl⟩)))
    | (obtain rfl := Host.Outcome.next.inj h
       first
       | exact .inl ⟨_, rfl⟩
       | exact .inr (.inl ⟨_, _, rfl⟩)
       | exact .inr (.inr (.inr ⟨_, rfl⟩)))

/-! ## Errors -/

theorem acEncode_error {c : AddressChain} {e : Err} (h : acEncode c = .error e) :
    e = .ssidOutOfRange ∨ e = .callSignTooLong ∨ e = .invalidCharacters := by
  obtain ⟨j, hj, he, -⟩ := acEntries_error h
  exact csCreate_error he

theorem plCheck_error {k : FrameKind} {p : List Byte} {e : Err} (h : plCheck k p = .error e) :
    e = .missingProtocolId ∨ e = .unexpectedTrailingData ∨ e = .invalidFrmrLength := by
  rcases plCheck_error_iff.mp h with ⟨rfl, -⟩ | ⟨rfl, -⟩ | ⟨rfl, -⟩ <;> simp

/-- Where an error of `FRAME.DECODE` comes from (R163). -/
theorem frameDecode_error {mo : Modulo} {b : List Byte} {e : Err} (h : frameDecode mo b = .error e) :
    e = .frameTooShort ∨ acDecode b = .error e ∨ (∃ b', ctlDecode mo b' = .error e) ∨
      ∃ k p, plCheck k p = .error e := by
  rw [frameDecode] at h
  split_ifs at h
  · exact .inl (by simpa using h.symm)
  · cases ha : acDecode b with
    | error x => exact .inr (.inl (by simpa [ha] using h))
    | ok r =>
      simp only [ha] at h
      cases hc : ctlDecode mo (b.drop r.2) with
      | error x => exact .inr (.inr (.inl ⟨_, by rw [hc]; simpa [hc] using h⟩))
      | ok q =>
        simp only [hc] at h
        cases hp : plCheck q.1 (b.drop (r.2 + q.2)) with
        | error x => exact .inr (.inr (.inr ⟨_, _, by rw [hp]; simpa [hp] using h⟩))
        | ok p => simp [hp] at h

/-- Where an error of `FRAME.ENCODE` comes from (R164). -/
theorem frameEncode_error {mo : Modulo} {f : Frame} {e : Err} (h : frameEncode mo f = .error e) :
    acEncode f.addresses = .error e ∨ ctlEncode mo f.kind = .error e ∨ plCheck f.kind f.payload = .error e := by
  rw [frameEncode] at h
  cases ha : acEncode f.addresses with
  | error x => exact .inl (by simpa [ha] using h)
  | ok a =>
    cases hc : ctlEncode mo f.kind with
    | error x => exact .inr (.inl (by simpa [ha, hc] using h))
    | ok c =>
      cases hp : plCheck f.kind f.payload with
      | error x => exact .inr (.inr (by simpa [ha, hc, hp] using h))
      | ok p => simp [ha, hc, hp] at h

end Sys2Proof.Machine
end

