-- ==== Sys2Proof/Laws/Fields.lean ====
section
/-! SUPPORT. Address fields as they stand in a buffer: what the decoder makes of seven octets that hold a field,
and the seven octets an encode stores. -/

namespace Sys2Proof.Machine

theorem octets_seven (m : Memory) (off : Nat) :
    Memory.octets m off 7 =
      [Memory.read m off, Memory.read m (off + 1), Memory.read m (off + 2), Memory.read m (off + 3),
        Memory.read m (off + 4), Memory.read m (off + 5), Memory.read m (off + 6)] := rfl

theorem padded_eq {call : List Byte} (hl : call.length ≤ 6) :
    padded call = [call.getD 0 0x20#8, call.getD 1 0x20#8, call.getD 2 0x20#8, call.getD 3 0x20#8,
      call.getD 4 0x20#8, call.getD 5 0x20#8] := by
  match call, hl with
  | [], _ => rfl
  | [_], _ => rfl
  | [_, _], _ => rfl
  | [_, _, _], _ => rfl
  | [_, _, _, _], _ => rfl
  | [_, _, _, _, _], _ => rfl
  | [_, _, _, _, _, _], _ => rfl

/-! ## The SSID octet in bit terms (R53) -/

theorem ssidOf_toNat : ∀ x : Byte, (ssidOf x).toNat = (x.extractLsb' 1 4).toNat := by decide +kernel
theorem flagBitOf_eq : ∀ x : Byte, flagBitOf x = x.getLsbD 7 := by decide +kernel
theorem continuationBitOf_eq : ∀ x : Byte, continuationBitOf x = x.getLsbD 0 := by decide +kernel

theorem ssidOctet_eq : ∀ (f : Bool) (n : Fin 16) (e : Bool),
    BitVec.ofNat 8 n.val <<< 1 ||| bitOctet f <<< 7 ||| bitOctet e <<< 0 =
      BitVec.ofNat 8 (boolNat f * 128 + n.val * 2 + boolNat e) := by decide +kernel

/-! ## Decoding what stands in a buffer -/

theorem csDecode_octets {m : Memory} {off : Nat} {v : Station} (hv : v.Valid) (hc : charsAt m off v.callSign)
    (hs : ((Memory.read m (off + 6)).extractLsb' 1 4).toNat = v.ssid) :
    csDecode (Memory.octets m off 7) = .ok v := by
  refine csDecode_of_folded_fields hv (by simp) ?_ ?_
  · rw [octets_seven, padded_eq hv.2.1]
    simp only [List.take, List.map, charOf, List.cons.injEq, and_true]
    exact ⟨hc 0 (by omega), hc 1 (by omega), hc 2 (by omega), hc 3 (by omega), hc 4 (by omega),
      hc 5 (by omega)⟩
  · rw [octets_seven]
    exact (ssidOf_toNat _).trans hs

theorem afDecode_octets {m : Memory} {off : Nat} {f : AddressField} (hv : f.station.Valid)
    (h : fieldAt m off f) : afDecode (Memory.octets m off 7) = .ok f := by
  obtain ⟨hc, hs, hf, he⟩ := h
  exact afDecode_ok_iff.mpr ⟨by simp, csDecode_octets hv hc hs,
    hf.symm.trans (flagBitOf_eq _).symm, he.symm.trans (continuationBitOf_eq _).symm⟩

/-! ## The octets an encode stores -/

theorem storedField_of_octets {m : Memory} {off : Nat} {v : Station} (hv : v.Valid) (flag cont : Bool)
    (h : Memory.octets m off 7 = setFieldBits (packStation v) flag cont) :
    storedField m off v.callSign v.ssid flag cont := by
  have hs := ssidOctet_eq flag ⟨v.ssid, by have := hv.2.2.2; omega⟩ cont
  simp only at hs
  rw [octets_seven, setFieldBits_packStation hv.2.1, padded_eq hv.2.1, hs] at h
  simp only [List.map, List.cons_append, List.nil_append, List.cons.injEq, and_true] at h
  obtain ⟨h0, h1, h2, h3, h4, h5, h6⟩ := h
  refine ⟨fun i hi => ?_, h6⟩
  have hg : (v.callSign.map (fun (c : Byte) => c <<< 1)).getD i 0x40#8 = v.callSign.getD i 0x20#8 <<< 1 := by
    by_cases hi : i < v.callSign.length <;> simp [hi]
  rw [hg]
  interval_cases i <;> assumption

/-- With both bits 0 an address field's octets are the station's (R84, R101). -/
theorem setFieldBits_false {v : Station} (hv : v.Valid) :
    setFieldBits (packStation v) false false = packStation v := by
  rw [setFieldBits_packStation hv.2.1, packStation]
  simp [bitOctet]

/-! ## Raw stations: the gate's fold -/

theorem csCreate_of_acceptable {v : Station} (h : v.Acceptable) :
    csCreate v = .ok ⟨v.callSign.map upcase, v.ssid⟩ :=
  csCreate_ok_iff.mpr ⟨h.1, h.2.1, h.2.2.1, by simpa [List.all_eq_true] using h.2.2.2, rfl⟩

theorem csCreate_ok_iff_acceptable (v : Station) : (∃ w, csCreate v = .ok w) ↔ v.Acceptable := by
  refine ⟨fun ⟨w, h⟩ => ?_, fun h => ⟨_, csCreate_of_acceptable h⟩⟩
  obtain ⟨h₁, h₂, h₃, h₄, -⟩ := csCreate_ok_iff.mp h
  exact ⟨h₁, h₂, h₃, by simpa [List.all_eq_true] using h₄⟩

/-- The encode loop succeeds exactly when the gate accepts every station (R103). -/
theorem acEntries_ok_iff (fs : List AddressField) :
    (∃ a, acEntries fs = .ok a) ↔ ∀ f ∈ fs, f.station.Acceptable := by
  induction fs with
  | nil => simp [acEntries]
  | cons f fs ih =>
    rw [acEntries, List.forall_mem_cons, ← ih, ← csCreate_ok_iff_acceptable]
    cases hf : afEncode ⟨f.station, f.flagBit, fs.isEmpty⟩ with
    | error e => simp [afEncode_error.mp hf]
    | ok a =>
      obtain ⟨w, hw, -⟩ := afEncode_ok_iff.mp hf
      simp only [] at hw
      cases hr : acEntries fs <;> simp [hw]

/-- The gate's value of each station of a list of fields. -/
def foldField (f : AddressField) : AddressField :=
  ⟨⟨f.station.callSign.map upcase, f.station.ssid⟩, f.flagBit, f.continuationBit⟩

/-- The octets of a chain whose stations the gate accepts (R103). -/
theorem acEntries_of_acceptable {fs : List AddressField} (h : ∀ f ∈ fs, f.station.Acceptable) :
    acEntries fs = .ok (forcedOctets (fs.map foldField)) ∧ ∀ f ∈ fs.map foldField, f.station.Valid := by
  induction fs with
  | nil => simp [acEntries, forcedOctets]
  | cons f fs ih =>
    obtain ⟨h₁, h₂⟩ := ih (fun g hg => h g (by simp [hg]))
    have hg := csCreate_of_acceptable (h f (by simp))
    have hf : afEncode ⟨f.station, f.flagBit, fs.isEmpty⟩ =
        .ok (setFieldBits (packStation (foldField f).station) (foldField f).flagBit
          (fs.map foldField).isEmpty) := by
      rw [(afEncode_ok_iff (f := ⟨f.station, f.flagBit, fs.isEmpty⟩)).mpr ⟨_, hg, rfl⟩]
      simp [foldField]
    rw [acEntries, hf, h₁]
    refine ⟨rfl, ?_⟩
    rw [List.map_cons, List.forall_mem_cons]
    exact ⟨csCreate_valid hg, h₂⟩

/-- The seven octets of the entry at a position of an encoded chain (R103, R220). -/
theorem forcedOctets_group : ∀ {fs : List AddressField}, (∀ f ∈ fs, f.station.Valid) →
    ∀ (j : Nat) (hj : j < fs.length), ((forcedOctets fs).drop (7 * j)).take 7 =
      setFieldBits (packStation fs[j].station) fs[j].flagBit (decide (j + 1 = fs.length))
  | f :: fs, h, j, hj => by
    have hl := setFieldBits_length (h f (by simp)).2.1 f.flagBit fs.isEmpty
    cases j with
    | zero =>
      rw [forcedOctets, Nat.mul_zero, List.drop_zero, List.take_append_of_le_length (by omega),
        List.take_of_length_le (by omega)]
      cases fs <;> simp
    | succ j =>
      rw [forcedOctets, show 7 * (j + 1) = 7 + 7 * j by omega, ← List.drop_drop, ← hl, List.drop_left, hl]
      simpa using forcedOctets_group (fun g hg => h g (by simp [hg])) j (by simpa using hj)

/-- The chain loop on groups that decode, none of which is the last, with fewer than seven octets after them
(R185). -/
theorem acGroups_truncated : ∀ (n fuel : Nat) (b : List Byte), n < fuel → 7 * n ≤ b.length →
    b.length < 7 * n + 7 →
    (∀ j < n, ∃ f, afDecode ((b.drop (7 * j)).take 7) = .ok f ∧ f.continuationBit = false) →
    acGroups fuel b = .error .truncatedAddressChain
  | 0, fuel + 1, b, _, _, hb, _ => by rw [acGroups_succ, if_pos (by omega)]
  | n + 1, fuel + 1, b, hf, hn, hb, hall => by
    obtain ⟨f, hd, hc⟩ := hall 0 (by omega)
    rw [Nat.mul_zero, List.drop_zero] at hd
    have hrec := acGroups_truncated n fuel (b.drop 7) (by omega) (by simp; omega) (by simp; omega) (by
      intro j hj
      have := hall (j + 1) (by omega)
      rw [List.drop_drop]
      simpa [show 7 * (j + 1) = 7 + 7 * j by omega] using this)
    rw [acGroups_succ, if_neg (by omega), hd]
    simp [hc, hrec]

/-! ## Trimming -/

theorem trimPad_eq_nil_iff : ∀ l : List Byte, trimPad l = [] ↔ ∀ c ∈ l, c = padChar
  | [] => by simp [trimPad]
  | c :: cs => by
    have ih := trimPad_eq_nil_iff cs
    rw [trimPad]
    cases h : trimPad cs with
    | nil =>
      have hp := ih.mp h
      by_cases hc : c = padChar
      · simpa [hc] using hp
      · simp [hc]
    | cons d ds =>
      rw [h] at ih
      simp at ih ⊢
      exact fun _ => ih

/-- After trimming and folding, some character is not legal exactly when one that is no trailing space is not. -/
theorem trimPad_illegal_iff : ∀ l : List Byte,
    ((trimPad l).map upcase).all legal = false ↔
      ∃ i j, i ≤ j ∧ j < l.length ∧ legal (upcase (l.getD i 0)) = false ∧ l.getD j 0 ≠ padChar
  | [] => by simp [trimPad]
  | c :: cs => by
    have hn := trimPad_eq_nil_iff cs
    have ih := trimPad_illegal_iff cs
    rw [trimPad]
    cases h : trimPad cs with
    | nil =>
      have hg : ∀ j < cs.length, cs.getD j 0 = padChar := by
        intro j hj
        rw [List.getD_eq_getElem?_getD, List.getElem?_eq_getElem hj]
        exact hn.mp h _ (List.getElem_mem hj)
      constructor
      · by_cases hc : c = padChar
        · simp [hc]
        · intro hl
          exact ⟨0, 0, le_refl _, by simp, by simpa [hc] using hl, by simpa using hc⟩
      · rintro ⟨i, j, hij, hj, h₁, h₂⟩
        cases j with
        | zero =>
          obtain rfl : i = 0 := by omega
          have hc : c ≠ padChar := by simpa using h₂
          simpa [hc] using h₁
        | succ j => exact absurd (hg j (by simpa using hj)) (by simpa using h₂)
    | cons d ds =>
      rw [h] at ih hn
      simp only [List.map_cons, List.all_cons] at ih ⊢
      rw [Bool.and_eq_false_iff, ih]
      constructor
      · rintro (hl | ⟨i, j, h₁, h₂, h₃, h₄⟩)
        · have hx : ¬ ∀ x ∈ cs, x = padChar := by rw [← hn]; simp
          simp only [not_forall] at hx
          obtain ⟨x, hx, hxp⟩ := hx
          obtain ⟨j, hj, rfl⟩ := List.getElem_of_mem hx
          exact ⟨0, j + 1, by omega, by simpa using hj, by simpa using hl, by simpa [hj] using hxp⟩
        · exact ⟨i + 1, j + 1, by omega, by simpa using h₂, by simpa using h₃, by simpa using h₄⟩
      · rintro ⟨i, j, h₁, h₂, h₃, h₄⟩
        cases i with
        | zero => exact .inl (by simpa using h₃)
        | succ i =>
          cases j with
          | zero => omega
          | succ j => exact .inr ⟨i, j, by omega, by simpa using h₂, by simpa using h₃, by simpa using h₄⟩

/-! ## When a decode rejects the characters (R183) -/

/-- The gate rejects the characters of a station whose SSID and length are in range exactly so. -/
theorem csCreate_invalid_iff {v : Station} (hs : v.ssid ≤ 15) (hl : v.callSign.length ≤ 6) :
    csCreate v = .error .invalidCharacters ↔
      v.callSign = [] ∨ (v.callSign.map upcase).all legal = false := by
  rw [csCreate, if_neg (by omega), if_neg (by omega)]
  by_cases hn : v.callSign = []
  · simp [hn]
  · cases ha : (v.callSign.map upcase).all legal <;> simp [hn]

theorem trimPad_length_le : ∀ l : List Byte, (trimPad l).length ≤ l.length
  | [] => by simp [trimPad]
  | c :: cs => by
    have ih := trimPad_length_le cs
    rw [trimPad]
    cases h : trimPad cs with
    | nil => by_cases hc : c = padChar <;> simp [hc]
    | cons d ds => rw [h] at ih; simpa using ih

theorem ssidOf_le : ∀ x : Byte, (ssidOf x).toNat ≤ 15 := by decide +kernel

theorem csDecode_invalid_iff {b : List Byte} :
    csDecode b = .error .invalidCharacters ↔
      b.length = 7 ∧ ((∀ c ∈ (b.take 6).map charOf, c = padChar) ∨
        ((trimPad ((b.take 6).map charOf)).map upcase).all legal = false) := by
  rw [← trimPad_eq_nil_iff, csDecode]
  by_cases hb : b.length = 7
  · have hl := trimPad_length_le ((b.take 6).map charOf)
    rw [if_neg (by simp [hb]),
      csCreate_invalid_iff (ssidOf_le _) (hl.trans (by simp)), eq_true hb, true_and]
  · simp [hb]

/-- Seven octets of a buffer, in octet terms. -/
theorem csDecode_octets_invalid_iff (m : Memory) (off : Nat) :
    csDecode (Memory.octets m off 7) = .error .invalidCharacters ↔ illegalAt m off := by
  have hg : ∀ i < 6, (((Memory.octets m off 7).take 6).map charOf).getD i 0 = Memory.read m (off + i) >>> 1 := by
    intro i hi
    rw [octets_seven]
    interval_cases i <;> rfl
  have hl : (((Memory.octets m off 7).take 6).map charOf).length = 6 := by simp
  rw [csDecode_invalid_iff, trimPad_illegal_iff, hl, Memory.octets_length, eq_self_iff_true, true_and]
  apply or_congr
  · constructor
    · intro h i hi
      rw [← hg i hi, List.getD_eq_getElem?_getD, List.getElem?_eq_getElem (by omega)]
      exact h _ (List.getElem_mem _)
    · intro h c hc
      obtain ⟨i, hi, rfl⟩ := List.getElem_of_mem hc
      have := hg i (by omega)
      rw [List.getD_eq_getElem?_getD, List.getElem?_eq_getElem hi] at this
      exact this.trans (h i (by omega))
  · constructor
    · rintro ⟨i, j, h₁, h₂, h₃, h₄⟩
      rw [hg i (by omega)] at h₃
      rw [hg j h₂] at h₄
      exact ⟨i, j, h₁, h₂, h₃, h₄⟩
    · rintro ⟨i, j, h₁, h₂, h₃, h₄⟩
      exact ⟨i, j, h₁, h₂, by rw [hg i (by omega)]; exact h₃, by rw [hg j h₂]; exact h₄⟩

/-- A field of seven octets is rejected exactly where its station is. -/
theorem afDecode_invalid_iff {b : List Byte} (hb : b.length = 7) :
    afDecode b = .error .invalidCharacters ↔ csDecode b = .error .invalidCharacters := by
  rw [afDecode_eq hb]
  cases csDecode b <;> simp

/-- A field whose characters are not rejected decodes, with the continuation bit of its octet. -/
theorem afDecode_octets_clear_iff (m : Memory) (off : Nat) :
    (∃ f, afDecode (Memory.octets m off 7) = .ok f ∧ f.continuationBit = false) ↔
      ¬ illegalAt m off ∧ (Memory.read m (off + 6)).getLsbD 0 = false := by
  rw [← csDecode_octets_invalid_iff, ← continuationBitOf_eq]
  have hr : (Memory.octets m off 7).getD 6 0 = Memory.read m (off + 6) := rfl
  constructor
  · rintro ⟨f, hf, hc⟩
    rw [afDecode_ok_iff, hr] at hf
    exact ⟨by simp [hf.2.1], by rw [← hf.2.2.2, hc]⟩
  · rintro ⟨hi, hc⟩
    cases hd : csDecode (Memory.octets m off 7) with
    | ok v =>
      exact ⟨⟨v, flagBitOf (Memory.read m (off + 6)), false⟩,
        afDecode_ok_iff.mpr ⟨by simp, hd, by rw [hr], by rw [hr, hc]⟩, rfl⟩
    | error e =>
      rcases csDecode_error hd with ⟨-, h⟩ | ⟨rfl, -⟩
      · simp at h
      · exact absurd hd hi

/-- The chain loop on groups that decode, none of which is the last, with a bad group after them (R102). -/
theorem acGroups_bad_group : ∀ (n fuel : Nat) (b : List Byte) (e : Err), n < fuel → 7 * n + 7 ≤ b.length →
    (∀ j < n, ∃ f, afDecode ((b.drop (7 * j)).take 7) = .ok f ∧ f.continuationBit = false) →
    afDecode ((b.drop (7 * n)).take 7) = .error e → acGroups fuel b = .error e
  | 0, fuel + 1, b, e, _, hb, _, he => by
    rw [Nat.mul_zero, List.drop_zero] at he
    rw [acGroups_succ, if_neg (by omega), he]
  | n + 1, fuel + 1, b, e, hf, hb, hall, he => by
    obtain ⟨f, hd, hc⟩ := hall 0 (by omega)
    rw [Nat.mul_zero, List.drop_zero] at hd
    have hrec := acGroups_bad_group n fuel (b.drop 7) e (by omega) (by simp; omega) (by
      intro j hj
      have := hall (j + 1) (by omega)
      rw [List.drop_drop]
      simpa [show 7 * (j + 1) = 7 + 7 * j by omega] using this)
      (by rw [List.drop_drop]; simpa [show 7 * (n + 1) = 7 + 7 * n by omega] using he)
    rw [acGroups_succ, if_neg (by omega), hd]
    simp [hc, hrec]

end Sys2Proof.Machine
end

