-- ==== Sys2Proof/Laws/PerInstr.lean ====
section
/-! SUPPORT. Statements made per instruction. `EncodedLength`: how many octets an instruction's word takes
(R62; the `octets` column of the opcode table). -/

namespace Sys2Proof.Laws.EncodedLength

/-- The octets of a word: 2 for the I and S control fields of modulo-128, and 1 for every other row (R62). -/
def octetsOf : Instr → Nat
  | .iM128 _ _ _ | .rrM128 _ _ | .rnrM128 _ _ | .rejM128 _ _ | .srejM128 _ _ => 2
  | _ => 1

/-- The encoder writes as many octets as the row takes. -/
def Statement (i : Instr) : Prop := (encode i).length = octetsOf i

theorem csCreate : Statement .csCreate := rfl
theorem csDecode : Statement .csDecode := rfl
theorem csEncode : Statement .csEncode := rfl
theorem afDecode : Statement .afDecode := rfl
theorem afEncode : Statement .afEncode := rfl
theorem acDecode : Statement .acDecode := rfl
theorem acEncode : Statement .acEncode := rfl
theorem acDerive : Statement .acDerive := rfl
theorem ctlDecode : Statement .ctlDecode := rfl
theorem ctlEncode : Statement .ctlEncode := rfl
theorem plCheck : Statement .plCheck := rfl
theorem frameDecode : Statement .frameDecode := rfl
theorem frameEncode : Statement .frameEncode := rfl
theorem addrChar (c : Nat) : Statement (.addrChar c) := rfl
theorem addrSsid (f : Bool) (n : Nat) (e : Bool) : Statement (.addrSsid f n e) := rfl
theorem iM8 (ns nr : Nat) (p : Bool) : Statement (.iM8 ns nr p) := rfl
theorem iM128 (ns nr : Nat) (p : Bool) : Statement (.iM128 ns nr p) := rfl
theorem rrM8 (nr : Nat) (p : Bool) : Statement (.rrM8 nr p) := rfl
theorem rnrM8 (nr : Nat) (p : Bool) : Statement (.rnrM8 nr p) := rfl
theorem rejM8 (nr : Nat) (p : Bool) : Statement (.rejM8 nr p) := rfl
theorem srejM8 (nr : Nat) (p : Bool) : Statement (.srejM8 nr p) := rfl
theorem rrM128 (nr : Nat) (p : Bool) : Statement (.rrM128 nr p) := rfl
theorem rnrM128 (nr : Nat) (p : Bool) : Statement (.rnrM128 nr p) := rfl
theorem rejM128 (nr : Nat) (p : Bool) : Statement (.rejM128 nr p) := rfl
theorem srejM128 (nr : Nat) (p : Bool) : Statement (.srejM128 nr p) := rfl
theorem sabm (p : Bool) : Statement (.sabm p) := rfl
theorem sabme (p : Bool) : Statement (.sabme p) := rfl
theorem disc (p : Bool) : Statement (.disc p) := rfl
theorem dm (p : Bool) : Statement (.dm p) := rfl
theorem ua (p : Bool) : Statement (.ua p) := rfl
theorem frmr (p : Bool) : Statement (.frmr p) := rfl
theorem ui (p : Bool) : Statement (.ui p) := rfl
theorem xid (p : Bool) : Statement (.xid p) := rfl
theorem test (p : Bool) : Statement (.test p) := rfl
theorem unassigned04 (p : Bool) : Statement (.unassigned04 p) := rfl
theorem unassigned08 (p : Bool) : Statement (.unassigned08 p) := rfl
theorem unassigned20 (p : Bool) : Statement (.unassigned20 p) := rfl
theorem unassigned24 (p : Bool) : Statement (.unassigned24 p) := rfl
theorem unassigned28 (p : Bool) : Statement (.unassigned28 p) := rfl
theorem unassigned44 (p : Bool) : Statement (.unassigned44 p) := rfl
theorem unassigned48 (p : Bool) : Statement (.unassigned48 p) := rfl
theorem unassigned4C (p : Bool) : Statement (.unassigned4C p) := rfl
theorem unassigned64 (p : Bool) : Statement (.unassigned64 p) := rfl
theorem unassigned68 (p : Bool) : Statement (.unassigned68 p) := rfl
theorem unassigned80 (p : Bool) : Statement (.unassigned80 p) := rfl
theorem unassigned88 (p : Bool) : Statement (.unassigned88 p) := rfl
theorem unassigned8C (p : Bool) : Statement (.unassigned8C p) := rfl
theorem unassignedA0 (p : Bool) : Statement (.unassignedA0 p) := rfl
theorem unassignedA4 (p : Bool) : Statement (.unassignedA4 p) := rfl
theorem unassignedA8 (p : Bool) : Statement (.unassignedA8 p) := rfl
theorem unassignedC0 (p : Bool) : Statement (.unassignedC0 p) := rfl
theorem unassignedC4 (p : Bool) : Statement (.unassignedC4 p) := rfl
theorem unassignedC8 (p : Bool) : Statement (.unassignedC8 p) := rfl
theorem unassignedCC (p : Bool) : Statement (.unassignedCC p) := rfl
theorem unassignedE4 (p : Bool) : Statement (.unassignedE4 p) := rfl
theorem unassignedE8 (p : Bool) : Statement (.unassignedE8 p) := rfl
theorem unassignedEC (p : Bool) : Statement (.unassignedEC p) := rfl

end Sys2Proof.Laws.EncodedLength
end

