-- ==== Sys2Proof/Laws/Step.lean ====
section
/-! SUPPORT. Everything a step can do, said once (`stepWith_cases`), and when it runs the selected operation. -/

namespace Sys2Proof.Machine

/-- The host's duty for an operation, operand by operand (R212). -/
theorem operandsWritten_iff {i : Instr} {s : State} :
    operandsWritten i s = true ↔ s.written.op = true ∧ ∀ o ∈ operandsOf i, s.written.has o = true := by
  simp [operandsWritten]

/-- No instruction changes what the host has written, so a run within the host's duty leaves the next one so. -/
theorem operandsWritten_exec {i j : Instr} {s t : State} (h : exec i s = .next t) :
    operandsWritten j t = operandsWritten j s := by
  rcases exec_cases h with ⟨r, rfl⟩ | ⟨r, n, rfl⟩ | ⟨v, rfl⟩ | ⟨e, rfl⟩ <;> rfl

/-- Everything the selected operation can do under an implementation's parameters. -/
theorem runOperation_cases (lim : Config.Limits) (i : Instr) (s : State) :
    ∃ t, exec i s = .next t ∧
      ((presentable lim i s = true ∧ resultFits lim i t = true ∧ runOperation lim i s = .next t) ∨
        ((presentable lim i s = false ∨ resultFits lim i t = false) ∧
          runOperation lim i s = .refused .notPresentable)) := by
  obtain ⟨t, ht⟩ := exec_next i s
  refine ⟨t, ht, ?_⟩
  rw [runOperation, ht]
  cases presentable lim i s <;> cases hr : resultFits lim i t <;> simp [boundResult, hr]

/-- The default parameters refuse nothing. -/
theorem runOperation_default (i : Instr) (s : State) : runOperation Config.limits i s = exec i s := by
  obtain ⟨t, ht⟩ := exec_next i s
  simp [runOperation, boundResult, presentable_default, ht, resultFits_default]

/-- Everything a step can do (U9, U11). -/
theorem stepWith_cases (lim : Config.Limits) (s : State) :
    ((∃ e, selectOp s.op = .error e) ∧ stepWith lim s = .refused (.unassignedOp s.op)) ∨
    (∃ i, selectOp s.op = .ok i ∧ stepWith lim s = runOperation lim i s) := by
  rw [stepWith]
  cases selectOp s.op <;> simp

/-- With an operation selected, a step is that operation. -/
theorem stepWith_of_selected {lim : Config.Limits} {s : State} {i : Instr} (hs : selectOp s.op = .ok i) :
    stepWith lim s = runOperation lim i s := by
  rw [stepWith, hs]

theorem step_of_selected {s : State} {i : Instr} (hs : selectOp s.op = .ok i) : step s = exec i s := by
  rw [step, stepWith_of_selected hs, runOperation_default]

/-- A step that goes on is the selected operation. -/
theorem stepWith_next {lim : Config.Limits} {s t : State} (h : stepWith lim s = .next t) :
    ∃ i, selectOp s.op = .ok i ∧ exec i s = .next t := by
  rcases stepWith_cases lim s with ⟨-, hr⟩ | ⟨i, hs, hr⟩
  · simp [hr] at h
  · obtain ⟨u, hu, ⟨-, -, hn⟩ | ⟨-, hn⟩⟩ := runOperation_cases lim i s
    · exact ⟨i, hs, by rw [hu, ← h, hr, hn]⟩
    · simp [hr, hn] at h

end Sys2Proof.Machine
end

