-- ==== Sys2Proof/Tests/Slice0.lean ====
section
/-! SUPPORT. The model's own tests. Expected results come from `spec/opcode_table.json` (words written out bit by
bit), from `spec/95_test_vectors.md` (the vector is named in each docstring) and from the rules. The last part
holds one witness for each statement of `Certificates/Slice0/Obligations.lean` that has hypotheses: a state and
operands that meet all of them together. -/

namespace Sys2Proof.Tests

open Sys2Proof Sys2Proof.Machine

/-! ## `WellFormed`: an ill-formed term for each check -/

theorem test_wellFormed_addrChar : (Instr.addrChar 128).wellFormed = false := by decide
theorem test_wellFormed_addrSsid : (Instr.addrSsid true 16 false).wellFormed = false := by decide
theorem test_wellFormed_iM8_sendSeq : (Instr.iM8 8 0 false).wellFormed = false := by decide
theorem test_wellFormed_iM8_recvSeq : (Instr.iM8 0 8 false).wellFormed = false := by decide
theorem test_wellFormed_iM128_sendSeq : (Instr.iM128 128 0 false).wellFormed = false := by decide
theorem test_wellFormed_iM128_recvSeq : (Instr.iM128 0 128 false).wellFormed = false := by decide
theorem test_wellFormed_sM8 : [Instr.rrM8 8 true, .rnrM8 8 true, .rejM8 8 true, .srejM8 8 true].map
    Instr.wellFormed = [false, false, false, false] := by decide
theorem test_wellFormed_sM128 : [Instr.rrM128 128 true, .rnrM128 128 true, .rejM128 128 true,
    .srejM128 128 true].map Instr.wellFormed = [false, false, false, false] := by decide
theorem test_wellFormed_limits : [Instr.addrChar 127, .addrSsid true 15 true, .iM8 7 7 true, .iM128 127 127 true,
    .srejM8 7 true, .srejM128 127 true].map Instr.wellFormed = [true, true, true, true, true, true] := by decide

/-! ## Decoding words written out from the table's `encoding` column -/

/-- What a space's decoder makes of some octets: the instruction, and how many octets are left. -/
def decoded (sp : Space) (bs : List Byte) : Option (Instr × Nat) :=
  match decode sp bs with
  | .ok (i, rest) => some (i, rest.length)
  | .error _ => none

/-- One octet of a space's decoder, with nothing left over. -/
def octet (sp : Space) (b : Byte) : Option Instr :=
  match decode sp [b] with
  | .ok (i, []) => some i
  | _ => none

theorem test_decode_operations :
    [0b0000_0001#8, 0b0000_0010#8, 0b0000_0011#8, 0b0000_0100#8, 0b0000_0101#8, 0b0000_0110#8, 0b0000_0111#8,
      0b0000_1000#8, 0b0000_1001#8, 0b0000_1010#8, 0b0000_1011#8, 0b0000_1100#8, 0b0000_1101#8].map (octet .op) =
    operations.map some := by decide
theorem test_decode_op_refused :
    [0b0000_0000#8, 0b0000_1110#8, 0b0000_1111#8, 0b0001_0001#8].map (octet .op) = [none, none, none, none] := by
  decide
/-- `cccccccz`: `z` is not looked at. -/
theorem test_decode_addrChar : [0b1000_0010#8, 0b1000_0011#8].map (octet .addrChar) =
    [some (.addrChar 0b100_0001), some (.addrChar 0b100_0001)] := by decide
/-- `FrrssssE`: `rr` is not looked at. -/
theorem test_decode_addrSsid : [0b1001_0100#8, 0b0111_1111#8].map (octet .addrSsid) =
    [some (.addrSsid true 10 false), some (.addrSsid false 15 true)] := by decide
/-- `rrrpsss0`. The second word has low bits 10 and is an I frame all the same (R219). -/
theorem test_decode_iM8 : [0b1100_0100#8, 0b0011_1010#8].map (octet (.control .m8)) =
    [some (.iM8 2 6 false), some (.iM8 5 1 true)] := by decide
/-- `rrrrrrrp sssssss0`, the low octet first. -/
theorem test_decode_iM128 : [decoded (.control .m128) [0b1100_1000#8, 0b0000_1011#8, 0xF0#8],
    decoded (.control .m128) [0b1100_1000#8]] = [some (.iM128 100 5 true, 1), none] := by decide
/-- `rrrp0001`, `rrrp0101`, `rrrp1001`, `rrrp1101`. -/
theorem test_decode_sM8 :
    [0b1010_0001#8, 0b1011_0101#8, 0b0010_1001#8, 0b1111_1101#8].map (octet (.control .m8)) =
    [some (.rrM8 5 false), some (.rnrM8 5 true), some (.rejM8 1 false), some (.srejM8 7 true)] := by decide
/-- `rrrrrrrp xxxx0001` and its three neighbours: `xxxx` is not looked at. -/
theorem test_decode_sM128 :
    [[0b0000_0001#8, 0b1100_1000#8], [0b1010_0101#8, 0b1100_1001#8], [0b1111_1001#8, 0b0000_1010#8],
      [0b0001_1101#8, 0b1111_1111#8]].map (decoded (.control .m128)) =
    [some (.rrM128 100 false, 0), some (.rnrM128 100 true, 0), some (.rejM128 5 false, 0),
      some (.srejM128 127 true, 0)] := by decide
/-- The nine U rows, alternately without and with bit 4. -/
theorem test_decode_u :
    [0b0010_1111#8, 0b0111_1111#8, 0b0100_0011#8, 0b0001_1111#8, 0b0110_0011#8, 0b1001_0111#8, 0b0000_0011#8,
      0b1011_1111#8, 0b1110_0011#8].map (octet (.control .m8)) =
    [some (.sabm false), some (.sabme true), some (.disc false), some (.dm true), some (.ua false),
      some (.frmr true), some (.ui false), some (.xid true), some (.test false)] := by decide
/-- The twenty-three unassigned patterns, without bit 4. -/
theorem test_decode_unassigned :
    [0b0000_0111#8, 0b0000_1011#8, 0b0010_0011#8, 0b0010_0111#8, 0b0010_1011#8, 0b0100_0111#8, 0b0100_1011#8,
      0b0100_1111#8, 0b0110_0111#8, 0b0110_1011#8, 0b1000_0011#8, 0b1000_1011#8, 0b1000_1111#8, 0b1010_0011#8,
      0b1010_0111#8, 0b1010_1011#8, 0b1100_0011#8, 0b1100_0111#8, 0b1100_1011#8, 0b1100_1111#8, 0b1110_0111#8,
      0b1110_1011#8, 0b1110_1111#8].map (octet (.control .m128)) =
    (unassignedRows false).map some := by decide
/-- The same with bit 4. -/
theorem test_decode_unassigned_bit4 :
    [0b0001_0111#8, 0b0001_1011#8, 0b0011_0011#8, 0b0011_0111#8, 0b0011_1011#8, 0b0101_0111#8, 0b0101_1011#8,
      0b0101_1111#8, 0b0111_0111#8, 0b0111_1011#8, 0b1001_0011#8, 0b1001_1011#8, 0b1001_1111#8, 0b1011_0011#8,
      0b1011_0111#8, 0b1011_1011#8, 0b1101_0011#8, 0b1101_0111#8, 0b1101_1011#8, 0b1101_1111#8, 0b1111_0111#8,
      0b1111_1011#8, 0b1111_1111#8].map (octet (.control .m8)) =
    (unassignedRows true).map some := by decide

/-! ## One step on small states -/

/-- The state with some octets in the input buffer. -/
def input (mo : Modulo) (b : List Byte) : State := hostWriteMod mo (hostWriteInput b State.reset)

/-- The state with an input record. -/
def record (mo : Modulo) (f : IRec → IRec) : State := hostWriteMod mo (hostWriteRecord (f State.reset.irec) State.reset)

/-- The state after one step with an operation selected; `State.reset` (whose `STATUS` is `IDLE`, which no
operation leaves) where there is none. -/
def after (code : BitVec 4) (s : State) : State :=
  match step (hostWriteOp code s) with
  | .next t => t
  | _ => State.reset

/-- `STATUS` after one step. -/
def status (code : BitVec 4) (s : State) : Status := (after code s).status

/-- `STATUS` and `OREC` after one step. -/
def result (code : BitVec 4) (s : State) : Status × ORec := ((after code s).status, (after code s).orec)

/-- `STATUS` and the output octets after one step. -/
def output (code : BitVec 4) (s : State) : Status × List Byte :=
  ((after code s).status, outputOctets (after code s))

/-- Stations as octets: `K1CHN`, `W7LT`, `A`, `B`. -/
def k1chn : List Byte := [0x4B, 0x31, 0x43, 0x48, 0x4E]
def w7lt : List Byte := [0x57, 0x37, 0x4C, 0x54]
def stationA : Station := ⟨[0x41], 0⟩
def stationB : Station := ⟨[0x42], 0⟩

/-- The chain `TO A FROM B` with its continuation bits as on the wire. -/
def chainAB : AddressChain := ⟨⟨stationA, false, false⟩, ⟨stationB, false, true⟩, []⟩

/-- Its fourteen octets. -/
def octetsAB : List Byte := [0x82, 0x40, 0x40, 0x40, 0x40, 0x40, 0x00, 0x84, 0x40, 0x40, 0x40, 0x40, 0x40, 0x01]

/-- The fifteen octets of D00's scenario 1 (S1). -/
def scenario1 : List Byte :=
  [0xAE, 0x6E, 0x98, 0xA8, 0x40, 0x40, 0xF4, 0x96, 0x62, 0x86, 0x90, 0x9C, 0x40, 0x61, 0x3F]

/-- The chain of scenario 1: `TO W7LT-10* FROM K1CHN`. -/
def chain1 : AddressChain := ⟨⟨⟨w7lt, 10⟩, true, false⟩, ⟨⟨k1chn, 0⟩, false, true⟩, []⟩

/-- B1.2: lower case is folded. -/
theorem test_csCreate_fold : result 0x1 (record .m8 fun r => { r with station := ⟨[0x77, 0x37, 0x6C, 0x74], 10⟩ }) =
    (.ok, .station ⟨w7lt, 10⟩) := by decide
/-- B1.6: the SSID is checked before the length. -/
theorem test_csCreate_order : status 0x1 (record .m8 fun r =>
    { r with station := ⟨[0x41, 0x42, 0x43, 0x44, 0x45, 0x46, 0x47], 16⟩ }) = .error .ssidOutOfRange := by decide
/-- B1.18: bit 0 of a character octet and bits 7:5 and 0 of the last octet are not read. -/
theorem test_csDecode_bits : result 0x2 (input .m8 [0x97, 0x63, 0x87, 0x91, 0x9D, 0x41, 0xFF]) =
    (.ok, .station ⟨k1chn, 15⟩) := by decide
/-- B1.29: an inner space stays. -/
theorem test_csDecode_space : status 0x2 (input .m8 [0x82, 0x84, 0x40, 0x86, 0x88, 0x40, 0x02]) =
    .error .invalidCharacters := by decide
/-- B1.14: five pads. -/
theorem test_csEncode : output 0x3 (record .m8 fun r => { r with station := ⟨[0x41], 15⟩ }) =
    (.ok, [0x82, 0x40, 0x40, 0x40, 0x40, 0x40, 0x1E]) := by decide
/-- B2.1. -/
theorem test_afDecode : result 0x4 (input .m8 [0xAE, 0x6E, 0x98, 0xA8, 0x40, 0x40, 0xF4]) =
    (.ok, .field ⟨⟨w7lt, 10⟩, true, false⟩) := by decide
/-- B2.4: six octets. -/
theorem test_afDecode_length : status 0x4 (input .m8 [0x82, 0x40, 0x40, 0x40, 0x40, 0x40]) =
    .error .wrongFieldLength := by decide
/-- B2.7: both bits on top of the SSID. -/
theorem test_afEncode : output 0x5 (record .m8 fun r =>
    { r with station := ⟨[0x41], 15⟩, flagBit := true, continuationBit := true }) =
    (.ok, [0x82, 0x40, 0x40, 0x40, 0x40, 0x40, 0x9F]) := by decide
/-- B2.16: the smallest chain. -/
theorem test_acDecode : result 0x6 (input .m8 octetsAB) = (.ok, .chain chainAB
    { destination := stationA, source := stationB, digipeaters := [], repeatedBy := [],
      commandResponse := .response }) := by decide
/-- B2.17: a group's bad character comes before the next group's truncation. -/
theorem test_acDecode_order : status 0x6 (input .m8 [0x82, 0x5A, 0x40, 0x40, 0x40, 0x40, 0x00, 0x84, 0x40, 0x40]) =
    .error .invalidCharacters := by decide
/-- B2.19: the operand's continuation bits are not read. -/
theorem test_acEncode_forces : output 0x7 (record .m8 fun r =>
    { r with addresses := ⟨⟨stationA, false, true⟩, ⟨stationB, false, false⟩, []⟩ }) = (.ok, octetsAB) := by decide
/-- B2.20, the second case: destination flag 1, source flag 0. -/
theorem test_acDerive : result 0x8 (record .m8 fun r =>
    { r with addresses := ⟨⟨stationA, true, false⟩, ⟨stationB, false, true⟩, [⟨⟨k1chn, 1⟩, true, false⟩,
      ⟨⟨w7lt, 2⟩, false, false⟩]⟩ }) = (.ok, .derived
    { destination := stationA, source := stationB, digipeaters := [⟨k1chn, 1⟩, ⟨w7lt, 2⟩],
      repeatedBy := [⟨k1chn, 1⟩], commandResponse := .command }) := by decide
/-- B3.2: `I ns=100 nr=5 P`, and `CONSUMED = 2`. -/
theorem test_ctlDecode : (result 0x9 (input .m128 [0xC8, 0x0B]), (after 0x9 (input .m128 [0xC8, 0x0B])).consumed) =
    ((.ok, .kind (.i 100 5 true)), 2) := by decide
/-- B3.2 the other way. -/
theorem test_ctlEncode : output 0xA (record .m128 fun r => { r with kind := .i 100 5 true }) = (.ok, [0xC8, 0x0B]) := by
  decide
/-- B3.3: `RR nr=100` is out of range under modulo-8. -/
theorem test_ctlEncode_range : status 0xA (record .m8 fun r => { r with kind := .s .rr 100 false }) =
    .error .sequenceNumberOutOfRange := by decide
/-- R161: a payload comes back unchanged. -/
theorem test_plCheck : output 0xB (hostWriteInput [0xF0, 0x01] (record .m8 fun r => { r with kind := .u .ui false })) =
    (.ok, [0xF0, 0x01]) := by decide
/-- R191: an FRMR payload is three octets. -/
theorem test_plCheck_frmr : status 0xB (hostWriteInput [0x00, 0x01] (record .m8 fun r =>
    { r with kind := .u .frmr false })) = .error .invalidFrmrLength := by decide
/-- S1, scenario 1 of D00: `TO W7LT-10* FROM K1CHN : SABM P`, `Command`. -/
theorem test_frameDecode : result 0xC (input .m8 scenario1) = (.ok, .frame ⟨chain1, .u .sabm true, []⟩
    { destination := ⟨w7lt, 10⟩, source := ⟨k1chn, 0⟩, digipeaters := [], repeatedBy := [],
      commandResponse := .command }) := by decide
/-- S4: fourteen octets. -/
theorem test_frameDecode_short : status 0xC (input .m8 (scenario1.take 14)) = .error .frameTooShort := by decide
/-- R221 on scenario 1: the SSID octets' bits 6:5 come back as 0, 0x94 and 0x01. -/
theorem test_frameEncode : output 0xD (record .m8 fun r =>
    { r with addresses := chain1, kind := .u .sabm true, payload := [] }) =
    (.ok, [0xAE, 0x6E, 0x98, 0xA8, 0x40, 0x40, 0x94, 0x96, 0x62, 0x86, 0x90, 0x9C, 0x40, 0x01, 0x3F]) := by decide
/-- R162: the protocol id and the information of an I frame, and of a frame whose kind has neither. -/
theorem test_frame_pid : (framePid ⟨chainAB, .i 0 0 false, [0xF0, 0x41]⟩,
    frameInformation ⟨chainAB, .i 0 0 false, [0xF0, 0x41]⟩, framePid ⟨chainAB, .s .rr 0 false, []⟩,
    frameInformation ⟨chainAB, .s .rr 0 false, []⟩) = (some 0xF0, some [0x41], none, none) := by decide

/-- R212: with a frame written and `MOD` not, the host's duty for `FRAME.ENCODE` is not done, and the operation runs
on the value `MOD` holds (notes entry 7). -/
theorem test_unwritten :
    operandsWritten .frameEncode (hostWriteOp 0xD (hostWriteFrame ⟨chain1, .u .sabm true, []⟩ State.reset)) =
      false ∧ status 0xD (hostWriteFrame ⟨chain1, .u .sabm true, []⟩ State.reset) = .ok := by decide
theorem test_written : operandsWritten .frameEncode
    (hostWriteOp 0xD (hostWriteMod .m8 (hostWriteFrame ⟨chain1, .u .sabm true, []⟩ State.reset))) = true := by
  decide

/-! ## The host's word (notes entry 8) -/

/-- Each row whose word is no operation's code decodes to itself, and the very next step runs it. -/
theorem test_withFetchWord : [(8, 0x0C), (8, 0xFE), (8, 0x2F), (8, 0xEF), (16, 0x0BC8), (16, 0xC905)].map
    (fun (n, w) => decodeTableWord n w) =
    [some .frameDecode, some (.iM8 7 7 true), some (.sabm false), some (.unassignedEC false),
      some (.iM128 100 5 true), some (.rnrM128 100 true)] := by decide
theorem test_withFetchWord_step_iM128 : step (State.reset.withFetchWord 16 0x0BC8) =
    exec (.iM128 100 5 true) (State.reset.withFetchWord 16 0x0BC8) := rfl
theorem test_withFetchWord_step_unassigned : step (State.reset.withFetchWord 8 0xEF) =
    exec (.unassignedEC false) (State.reset.withFetchWord 8 0xEF) := rfl
theorem test_withFetchWord_step_op : step (State.reset.withFetchWord 8 0x0D) =
    exec .frameEncode (State.reset.withFetchWord 8 0x0D) := rfl

/-! ## Witnesses: the hypotheses of each statement, met together -/

/-- The state an instruction gives. -/
def run (i : Instr) (s : State) : State :=
  match exec i s with
  | .next t => t
  | _ => State.reset

/-- A small implementation (D4, D5). -/
def small : Config.Limits :=
  { maxFrameOctets := some 20, maxAddrEntries := some 10, callInMax := some ⟨8, by decide⟩,
    ssidInBits := some ⟨5, by decide⟩, seqInBits := some ⟨8, by decide⟩ }

/-- The chain `TO A FROM B VIA K1CHN*`, which has an entry of each kind. -/
def chainABK : AddressChain :=
  ⟨⟨stationA, true, false⟩, ⟨stationB, false, false⟩, [⟨⟨k1chn, 15⟩, true, true⟩]⟩

/-- A raw chain the gate accepts: lower case, and every continuation bit wrong. -/
def rawChain : AddressChain := ⟨⟨⟨[0x61], 15⟩, true, true⟩, ⟨stationB, false, true⟩, [⟨stationA, true, false⟩]⟩

/-- The octets of `chainABK`, with every bit that is not read set, and the first letter in lower case. -/
def octetsABK : List Byte :=
  [0xC3, 0x41, 0x41, 0x41, 0x41, 0x41, 0xE0] ++ [0x85, 0x41, 0x41, 0x41, 0x41, 0x41, 0x60] ++
  [0x97, 0x63, 0x87, 0x91, 0x9D, 0x41, 0xFF]

/-- The last row; nothing but `OP` need be written. -/
theorem witness_StepRunsSelectedOperation :
    ⟨0xD, .frameEncode, [.addresses, .kind, .payload, .mod]⟩ ∈ operationTable ∧
      (hostWriteOp 0xD State.reset).op = 0xD := by decide

/-- The three codes, from reset and written; and a step that goes on. -/
theorem witness_StepRefusesExactlyUnassignedCodes :
    State.reset.op = 0x0 ∧ (hostWriteOp 0xE State.reset).op = 0xE ∧ (hostWriteOp 0xF State.reset).op = 0xF ∧
      step State.reset = .refused (.unassignedOp 0x0) ∧
      status 0x9 (hostWriteInput [0x03] State.reset) = .ok := ⟨rfl, rfl, rfl, rfl, by decide⟩

/-- One witness under each modulo, and one of an unassigned pattern. -/
theorem witness_StepRunsTheControlRow :
    ((hostWriteOp 0x9 (input .m8 [0xFE, 0xAA])).op = 0x9 ∧
      decode (.control .m8) (inputOctets (hostWriteOp 0x9 (input .m8 [0xFE, 0xAA]))) =
        .ok (.iM8 7 7 true, [0xAA])) ∧
    (decode (.control .m128) (inputOctets (hostWriteOp 0x9 (input .m128 [0xFD, 0xFF]))) =
        .ok (.srejM128 127 true, [])) ∧
    (decode (.control .m128) (inputOctets (hostWriteOp 0x9 (input .m128 [0xEF]))) =
        .ok (.unassignedEC false, [])) :=
  ⟨⟨rfl, rfl⟩, rfl, rfl⟩

theorem witness_EveryStepKeepsInvariant :
    StateInv (hostWriteOp 0xC (input .m8 scenario1)) ∧
      step (hostWriteOp 0xC (input .m8 scenario1)) = .next (after 0xC (input .m8 scenario1)) ∧
      stepWith small (hostWriteOp 0xC (input .m8 scenario1)) = .next (after 0xC (input .m8 scenario1)) :=
  ⟨by decide, rfl, rfl⟩

theorem witness_HostActionsKeepInvariant : StateInv State.reset ∧ StateInv (input .m128 scenario1) ∧
    operandsWritten .frameDecode (hostWriteOp 0xC (input .m128 scenario1)) = true ∧
    operandsWritten .frameDecode (hostWriteOp 0xC (hostWriteInput scenario1 State.reset)) = false := by decide

/-- Each parameter met at its bound and exceeded by one: `MAX_FRAME_OCTETS` (input, payload
and output), `MAX_ADDR_ENTRIES` (operand and decoded chain), `CALL_IN_MAX`, `SSID_IN_BITS`, `SEQ_IN_BITS`. -/
theorem witness_BoundedImplementationsRefuseWhatTheyCannotHold :
    (selectOp (hostWriteOp 0x6 (input .m8 octetsABK)).op = .ok .acDecode ∧
      exec .acDecode (hostWriteOp 0x6 (input .m8 octetsABK)) = .next (after 0x6 (input .m8 octetsABK))) ∧
    (stepWith { small with maxFrameOctets := some 21 } (hostWriteOp 0x6 (input .m8 octetsABK)) =
        .next (after 0x6 (input .m8 octetsABK)) ∧
      stepWith { small with maxFrameOctets := some 20 } (hostWriteOp 0x6 (input .m8 octetsABK)) =
        .refused .notPresentable) ∧
    (stepWith { small with maxFrameOctets := none, maxAddrEntries := some 3 }
        (hostWriteOp 0x6 (input .m8 octetsABK)) = .next (after 0x6 (input .m8 octetsABK)) ∧
      stepWith { small with maxFrameOctets := none, maxAddrEntries := some 2 }
        (hostWriteOp 0x6 (input .m8 octetsABK)) = .refused .notPresentable) :=
  ⟨⟨rfl, rfl⟩, ⟨rfl, rfl⟩, rfl, rfl⟩

theorem witness_BoundedImplementations_record :
    (stepWith small (hostWriteOp 0x8 (hostWriteChain chainABK State.reset)) =
        .next (after 0x8 (hostWriteChain chainABK State.reset)) ∧
      stepWith { small with maxAddrEntries := some 2 } (hostWriteOp 0x8 (hostWriteChain chainABK State.reset)) =
        .refused .notPresentable) ∧
    (stepWith small (hostWriteOp 0x1 (hostWriteStation ⟨k1chn ++ [0x41, 0x42, 0x43], 31⟩ State.reset)) =
        .next (after 0x1 (hostWriteStation ⟨k1chn ++ [0x41, 0x42, 0x43], 31⟩ State.reset)) ∧
      stepWith { small with callInMax := some ⟨7, by decide⟩ }
        (hostWriteOp 0x1 (hostWriteStation ⟨k1chn ++ [0x41, 0x42, 0x43], 31⟩ State.reset)) =
        .refused .notPresentable ∧
      stepWith small (hostWriteOp 0x1 (hostWriteStation ⟨k1chn, 32⟩ State.reset)) = .refused .notPresentable) ∧
    (stepWith small (hostWriteOp 0xA (hostWriteMod .m128 (hostWriteKind (.i 0 255 true) State.reset))) =
        .next (after 0xA (hostWriteMod .m128 (hostWriteKind (.i 0 255 true) State.reset))) ∧
      stepWith small (hostWriteOp 0xA (hostWriteMod .m128 (hostWriteKind (.i 0 256 true) State.reset))) =
        .refused .notPresentable) := ⟨⟨rfl, rfl⟩, ⟨rfl, rfl, rfl⟩, rfl, rfl⟩

/-- The least widths: 7 characters and SSID 16, and sequence number 128, are presented and refused by name. -/
theorem witness_BoundedImplementations_least :
    ((hostWriteOp 0x1 (hostWriteStation ⟨k1chn ++ [0x41, 0x42], 16⟩ State.reset)).op = 0x1 ∧
      stepWith { small with callInMax := some ⟨7, by decide⟩ }
          (hostWriteOp 0x1 (hostWriteStation ⟨k1chn ++ [0x41, 0x42], 16⟩ State.reset)) =
        .next (after 0x1 (hostWriteStation ⟨k1chn ++ [0x41, 0x42], 16⟩ State.reset)) ∧
      status 0x1 (hostWriteStation ⟨k1chn ++ [0x41, 0x42], 16⟩ State.reset) = .error .ssidOutOfRange) ∧
    ((hostWriteOp 0xA (hostWriteMod .m128 (hostWriteKind (.s .rr 128 true) State.reset))).op = 0xA ∧
      stepWith small (hostWriteOp 0xA (hostWriteMod .m128 (hostWriteKind (.s .rr 128 true) State.reset))) =
        .next (after 0xA (hostWriteMod .m128 (hostWriteKind (.s .rr 128 true) State.reset))) ∧
      status 0xA (hostWriteMod .m128 (hostWriteKind (.s .rr 128 true) State.reset)) =
        .error .sequenceNumberOutOfRange) := ⟨⟨rfl, rfl, rfl⟩, rfl, rfl, rfl⟩

/-- A decode that ends in an error reports it, though the chain in the buffer is beyond `MAX_ADDR_ENTRIES` (notes
entry 11): three entries, a bound of two, and no control octet. -/
theorem test_bounded_decode_error :
    stepWith { small with maxFrameOctets := none, maxAddrEntries := some 2 }
        (hostWriteOp 0xC (input .m8 octetsABK)) = .next (after 0xC (input .m8 octetsABK)) ∧
      status 0xC (input .m8 octetsABK) = .error .shortControlField := ⟨rfl, rfl⟩

/-- A frame of 16 octets with a payload of one: the output bound, then the payload bound. -/
theorem witness_BoundedImplementations_frame :
    stepWith { small with maxFrameOctets := some 16 }
        (hostWriteOp 0xD (hostWriteMod .m8 (hostWriteFrame ⟨chainAB, .u .ui true, [0xF0]⟩ State.reset))) =
        .next (after 0xD (hostWriteMod .m8 (hostWriteFrame ⟨chainAB, .u .ui true, [0xF0]⟩ State.reset))) ∧
      stepWith { small with maxFrameOctets := some 15 }
        (hostWriteOp 0xD (hostWriteMod .m8 (hostWriteFrame ⟨chainAB, .u .ui true, [0xF0]⟩ State.reset))) =
        .refused .notPresentable ∧
      stepWith { small with maxFrameOctets := some 0 }
        (hostWriteOp 0xD (hostWriteMod .m8 (hostWriteFrame ⟨chainAB, .u .ui true, [0xF0]⟩ State.reset))) =
        .refused .notPresentable := ⟨rfl, rfl, rfl⟩

theorem witness_UnknownFunctionIsNeverReturned :
    exec .ctlDecode (input .m8 [0xFF]) = .next (run .ctlDecode (input .m8 [0xFF])) := rfl

/-- One instruction that succeeds and one that ends in an error. -/
theorem witness_NoInstructionWritesAnOperand :
    exec .frameDecode (input .m8 scenario1) = .next (run .frameDecode (input .m8 scenario1)) ∧
      exec .ctlDecode (input .m8 []) = .next (run .ctlDecode (input .m8 [])) := ⟨rfl, rfl⟩

theorem witness_RecordResultsLeaveTheRest :
    (exec .afDecode (input .m8 [0x82, 0x40, 0x40, 0x40, 0x40, 0x40, 0x81]) =
        .next (run .afDecode (input .m8 [0x82, 0x40, 0x40, 0x40, 0x40, 0x40, 0x81])) ∧
      (run .afDecode (input .m8 [0x82, 0x40, 0x40, 0x40, 0x40, 0x40, 0x81])).status = .ok) ∧
    (exec (.addrSsid true 15 false) State.reset = .next (run (.addrSsid true 15 false) State.reset) ∧
      (run (.addrSsid true 15 false) State.reset).status = .ok) := ⟨⟨rfl, by decide⟩, rfl, rfl⟩

theorem witness_ConsumedResultsLeaveTheRest :
    (exec .acDecode (input .m8 octetsABK) = .next (run .acDecode (input .m8 octetsABK)) ∧
      (run .acDecode (input .m8 octetsABK)).status = .ok) ∧
    (exec .ctlDecode (input .m8 [0x03]) = .next (run .ctlDecode (input .m8 [0x03])) ∧
      (run .ctlDecode (input .m8 [0x03])).status = .ok) ∧
    (Instr.rejM128 127 true = rowOf .m128 (.s .rej 127 true) ∧
      (run (.rejM128 127 true) State.reset).status = .ok) := ⟨⟨rfl, by decide⟩, ⟨rfl, by decide⟩, rfl, rfl⟩

theorem witness_OctetResultsLeaveTheRest :
    .acEncode ∈ bufferWriters ∧ exec .acEncode (record .m8 fun r => { r with addresses := rawChain }) =
        .next (run .acEncode (record .m8 fun r => { r with addresses := rawChain })) ∧
      (run .acEncode (record .m8 fun r => { r with addresses := rawChain })).status = .ok ∧
      (run .acEncode (record .m8 fun r => { r with addresses := rawChain })).olen = 21 :=
  ⟨by decide, rfl, by decide, by decide⟩

theorem witness_ErrorMatrixIsExact : Instr.frameEncode ∈ operations ∧
    Err.sequenceNumberOutOfRange ∈ errorColumn .frameEncode ∧ Err.frameTooShort ∉ errorColumn .frameEncode := by
  decide

/-- States that agree on the operands read and on nothing else: `AC.DECODE` under different `MOD`, record, results
and counter; `AC.ENCODE` of chains that differ in their continuation bits. -/
theorem witness_ResultsDependOnOperandsAlone :
    (.acDecode ∈ operations ∧ StateInv (input .m8 octetsABK) ∧
      StateInv (hostWriteInput octetsABK (hostWriteChain chainABK (run .acDecode (input .m128 octetsAB)))) ∧
      sameOperands .acDecode (input .m8 octetsABK)
        (hostWriteInput octetsABK (hostWriteChain chainABK (run .acDecode (input .m128 octetsAB)))) ∧
      (input .m8 octetsABK).consumed ≠ (run .acDecode (input .m128 octetsAB)).consumed ∧
      (run .acDecode (input .m8 octetsABK)).status = .ok) ∧
    (.acEncode ∈ operations ∧
      sameOperands .acEncode (hostWriteChain chainAB State.reset)
        (hostWriteMod .m128 (hostWriteChain ⟨⟨stationA, false, true⟩, ⟨stationB, false, false⟩, []⟩ State.reset)) ∧
      (run .acEncode (hostWriteChain chainAB State.reset)).status = .ok) :=
  ⟨⟨by decide, by decide, by decide, by decide, by decide, by decide⟩, by decide, by decide, by decide⟩

theorem witness_UnreadOperandsAreIgnored :
    exec .plCheck (input .m8 [0xF0]) = .next (run .plCheck (input .m8 [0xF0])) ∧ .plCheck ∉ modReaders ∧
      .csCreate ∉ inputReaders ∧ .frameDecode ∉ recordReaders := ⟨rfl, by decide, by decide, by decide⟩

/-- One witness for each kind; 0x06 has low bits 10 (R219). -/
theorem witness_KindIsDecidedByTheLowBits :
    (1 ≤ (input .m8 [0x06]).ilen ∧ (input .m8 [0x06]).mod ≠ .m128 ∧
      Memory.read (input .m8 [0x06]).ibuf 0 &&& 0b1#8 = 0b0#8) ∧
    (2 ≤ (input .m128 [0xFD, 0xFF]).ilen ∧ Memory.read (input .m128 [0xFD, 0xFF]).ibuf 0 &&& 0b11#8 = 0b01#8) ∧
    (1 ≤ (input .m128 [0xFF]).ilen ∧ Memory.read (input .m128 [0xFF]).ibuf 0 &&& 0b11#8 = 0b11#8) := by decide

theorem witness_InformationControlFieldsDecode :
    ((input .m8 [0xFE]).mod = .m8 ∧ 1 ≤ (input .m8 [0xFE]).ilen ∧
      (Memory.read (input .m8 [0xFE]).ibuf 0).getLsbD 0 = false) ∧
    ((input .m128 [0xFE, 0xFF]).mod = .m128 ∧ 2 ≤ (input .m128 [0xFE, 0xFF]).ilen ∧
      (Memory.read (input .m128 [0xFE, 0xFF]).ibuf 0).getLsbD 0 = false) := by decide

theorem witness_SupervisoryControlFieldsDecode :
    (3, SFunction.srej) ∈ [(0, SFunction.rr), (1, .rnr), (2, .rej), (3, .srej)] ∧
    ((input .m8 [0xFD]).mod = .m8 ∧ 1 ≤ (input .m8 [0xFD]).ilen ∧
      Memory.read (input .m8 [0xFD]).ibuf 0 &&& 0b0000_1111#8 = BitVec.ofNat 8 (3 * 4 + 1)) ∧
    ((input .m128 [0xF1, 0xFF]).mod = .m128 ∧ 2 ≤ (input .m128 [0xF1, 0xFF]).ilen ∧
      Memory.read (input .m128 [0xF1, 0xFF]).ibuf 0 &&& 0b0000_1111#8 = BitVec.ofNat 8 (0 * 4 + 1)) := by decide

theorem witness_UnnumberedControlFieldsDecode :
    1 ≤ (input .m128 [0x97]).ilen ∧ Memory.read (input .m128 [0x97]).ibuf 0 = (if true then 0x97#8 else 0x87#8) ∧
      Memory.read (input .m8 [0xE3]).ibuf 0 = (if false then 0xF3#8 else 0xE3#8) := by decide

/-- One octet that raises the error, one U octet and one I octet that do not. -/
theorem witness_UnknownModifierExactly :
    exec .ctlDecode (input .m8 [0x07]) = .next (run .ctlDecode (input .m8 [0x07])) ∧
      (run .ctlDecode (input .m8 [0x07])).status = .error .unknownModifier ∧
      (run .ctlDecode (input .m8 [0x87])).status = .ok ∧ (run .ctlDecode (input .m8 [0x06])).status = .ok :=
  ⟨rfl, rfl, by decide, by decide⟩

/-- No octet; one octet of a two-octet field; one octet of a U field. -/
theorem witness_ShortControlFieldExactly :
    exec .ctlDecode (input .m8 []) = .next (run .ctlDecode (input .m8 [])) ∧
      (run .ctlDecode (input .m8 [])).status = .error .shortControlField ∧
      (run .ctlDecode (input .m128 [0x01])).status = .error .shortControlField ∧
      (run .ctlDecode (input .m128 [0x63])).status = .ok := ⟨rfl, rfl, rfl, by decide⟩

/-- 7 and 8 under modulo-8, 127 and 128 under modulo-128, and a frame. -/
theorem witness_SequenceNumberOutOfRangeExactly :
    exec .ctlEncode (record .m8 fun r => { r with kind := .i 7 8 true }) =
        .next (run .ctlEncode (record .m8 fun r => { r with kind := .i 7 8 true })) ∧
      (run .ctlEncode (record .m8 fun r => { r with kind := .i 7 8 true })).status =
        .error .sequenceNumberOutOfRange ∧
      (run .ctlEncode (record .m8 fun r => { r with kind := .i 7 7 true })).status = .ok ∧
      (run .ctlEncode (record .m128 fun r => { r with kind := .s .rnr 128 true })).status =
        .error .sequenceNumberOutOfRange ∧
      (run .ctlEncode (record .m128 fun r => { r with kind := .s .rnr 127 true })).status = .ok ∧
      (run .frameEncode (record .m8 fun r => { r with addresses := chainAB, kind := .i 8 0 true })).status =
        .error .sequenceNumberOutOfRange := ⟨rfl, rfl, by decide, rfl, by decide, rfl⟩

theorem witness_ControlEncodeStoresTheRow :
    StateInv (record .m8 fun r => { r with kind := .i 7 7 true }) ∧
      (record .m8 fun r => { r with kind := .i 7 7 true }).irec.kind.inRange .m8 = true ∧
      (FrameKind.s .srej 127 false).inRange .m128 = true := by decide

theorem witness_ControlFieldRoundTrip :
    (StateInv (record .m128 fun r => { r with kind := .i 127 127 true }) ∧
      (record .m128 fun r => { r with kind := .i 127 127 true }).irec.kind.inRange .m128 = true ∧
      (input .m128 [0xFE, 0xFF]).mod = .m128 ∧ inputOctets (input .m128 [0xFE, 0xFF]) =
        outputOctets (run .ctlEncode (record .m128 fun r => { r with kind := .i 127 127 true }))) ∧
    ((run .ctlDecode (input .m128 [0xF1, 0x0B])).status = .ok ∧
      (run .ctlDecode (input .m128 [0xF1, 0x0B])).orec = .kind (.s .rr 5 true) ∧
      StateInv (record .m128 fun r => { r with kind := .s .rr 5 true })) := by decide

theorem witness_UnnumberedControlFieldsIgnoreModulo :
    (1 ≤ (input .m8 [0x13]).ilen ∧ Memory.read (input .m8 [0x13]).ibuf 0 &&& 0b11#8 = 0b11#8 ∧
      exec .ctlDecode { input .m8 [0x13] with mod := .m8 } = .next (run .ctlDecode (input .m8 [0x13]))) ∧
    ((record .m8 fun r => { r with kind := .u .test true }).irec.kind = .u .test true ∧
      exec .ctlEncode { record .m8 fun r => { r with kind := .u .test true } with mod := .m8 } =
        .next (run .ctlEncode (record .m8 fun r => { r with kind := .u .test true }))) :=
  ⟨⟨by decide, by decide, rfl⟩, rfl, rfl⟩

/-- A station the gate accepts, at six characters and SSID 15; and each error: SSID 16, seven characters with a
legal SSID, an illegal character, and the empty callsign. -/
theorem witness_GateAcceptsOrReportsInOrder :
    Station.Acceptable ⟨[0x7A, 0x41, 0x39, 0x61, 0x30, 0x5A], 15⟩ ∧
      (run .csCreate (record .m8 fun r => { r with station := ⟨[0x41], 16⟩ })).status = .error .ssidOutOfRange ∧
      (run .csCreate (record .m8 fun r => { r with station := ⟨k1chn ++ [0x41, 0x42], 15⟩ })).status =
        .error .callSignTooLong ∧
      (run .csCreate (record .m8 fun r => { r with station := ⟨[0x41, 0x2D], 15⟩ })).status =
        .error .invalidCharacters ∧
      (run .csCreate (record .m8 fun r => { r with station := ⟨[], 0⟩ })).status = .error .invalidCharacters :=
  ⟨by decide, rfl, rfl, rfl, rfl⟩

theorem witness_StationDecodeIgnoresUnreadBits :
    Station.Valid ⟨k1chn, 15⟩ ∧ (input .m8 [0x97, 0x63, 0x87, 0x91, 0x9D, 0x41, 0xFF]).ilen = 7 ∧
      charsAt (input .m8 [0x97, 0x63, 0x87, 0x91, 0x9D, 0x41, 0xFF]).ibuf 0 k1chn ∧
      ((Memory.read (input .m8 [0x97, 0x63, 0x87, 0x91, 0x9D, 0x41, 0xFF]).ibuf 6).extractLsb' 1 4).toNat = 15 := by
  decide

/-- Six spaces; an inner space; trailing spaces alone; the same for a field with both bits set; a chain whose second
group is bad, and one whose first group is. -/
theorem witness_DecodesRejectIllegalCharactersExactly :
    (exec .csDecode (input .m8 [0x40, 0x40, 0x40, 0x40, 0x40, 0x40, 0x00]) =
        .next (run .csDecode (input .m8 [0x40, 0x40, 0x40, 0x40, 0x40, 0x40, 0x00])) ∧
      (run .csDecode (input .m8 [0x40, 0x40, 0x40, 0x40, 0x40, 0x40, 0x00])).status = .error .invalidCharacters ∧
      (run .csDecode (input .m8 [0x82, 0x84, 0x40, 0x86, 0x40, 0x40, 0x02])).status = .error .invalidCharacters ∧
      (run .csDecode (input .m8 [0x82, 0x40, 0x40, 0x40, 0x40, 0x40, 0x02])).status = .ok) ∧
    ((run .afDecode (input .m8 [0x5A, 0x40, 0x40, 0x40, 0x40, 0x40, 0x83])).status = .error .invalidCharacters ∧
      (run .afDecode (input .m8 [0x82, 0x40, 0x40, 0x40, 0x40, 0x40, 0x83])).status = .ok) ∧
    ((run .acDecode (input .m8 (octetsAB.take 7 ++ [0x5A, 0x40, 0x40, 0x40, 0x40, 0x40, 0x01]))).status =
        .error .invalidCharacters ∧
      (run .acDecode (input .m8 [0x82, 0x5A, 0x40, 0x40, 0x40, 0x40, 0x01])).status = .error .invalidCharacters ∧
      (run .acDecode (input .m8 octetsAB)).status = .ok) :=
  ⟨⟨rfl, rfl, rfl, by decide⟩, ⟨rfl, by decide⟩, rfl, rfl, by decide⟩

theorem witness_FieldDecodeReadsTheField :
    Station.Valid ⟨k1chn, 15⟩ ∧ (input .m8 [0x97, 0x63, 0x87, 0x91, 0x9D, 0x41, 0xFF]).ilen = 7 ∧
      fieldAt (input .m8 [0x97, 0x63, 0x87, 0x91, 0x9D, 0x41, 0xFF]).ibuf 0 ⟨⟨k1chn, 15⟩, true, true⟩ := by decide

/-- Six, seven and eight octets. -/
theorem witness_WrongFieldLengthExactly :
    (run .csDecode (input .m8 (octetsAB.take 6))).status = .error .wrongFieldLength ∧
      (run .csDecode (input .m8 (octetsAB.take 7))).status = .ok ∧
      (run .afDecode (input .m8 (octetsAB.take 8))).status = .error .wrongFieldLength ∧
      exec .acDecode (input .m8 (octetsAB.take 8)) = .next (run .acDecode (input .m8 (octetsAB.take 8))) :=
  ⟨rfl, by decide, rfl, rfl⟩

/-- A station the gate accepts, and SSID 16. -/
theorem witness_StationEncodeStoresSevenOctets :
    (StateInv (record .m8 fun r => { r with station := ⟨[0x77, 0x37], 15⟩ }) ∧
      (record .m8 fun r => { r with station := ⟨[0x77, 0x37], 15⟩ }).irec.station.Acceptable) ∧
    (exec .csEncode (hostWriteStation ⟨[0x41], 16⟩ State.reset) =
        .next (run .csEncode (hostWriteStation ⟨[0x41], 16⟩ State.reset)) ∧
      exec .csCreate (hostWriteStation ⟨[0x41], 16⟩ State.reset) =
        .next (run .csCreate (hostWriteStation ⟨[0x41], 16⟩ State.reset)) ∧
      (run .csEncode (hostWriteStation ⟨[0x41], 16⟩ State.reset)).status = .error .ssidOutOfRange) :=
  ⟨by decide, rfl, rfl, rfl⟩

/-- A station the gate accepts, and seven characters. -/
theorem witness_FieldEncodeStoresSevenOctets :
    (StateInv (record .m8 fun r => { r with station := ⟨k1chn, 0⟩, flagBit := true }) ∧
      (record .m8 fun r => { r with station := ⟨k1chn, 0⟩, flagBit := true }).irec.station.Acceptable) ∧
    (exec .afEncode (hostWriteField ⟨⟨k1chn ++ [0x41, 0x42], 0⟩, true, true⟩ State.reset) =
        .next (run .afEncode (hostWriteField ⟨⟨k1chn ++ [0x41, 0x42], 0⟩, true, true⟩ State.reset)) ∧
      (run .afEncode (hostWriteField ⟨⟨k1chn ++ [0x41, 0x42], 0⟩, true, true⟩ State.reset)).status =
        .error .callSignTooLong) := ⟨by decide, rfl, rfl⟩

theorem witness_StationRoundTrip :
    (StateInv (record .m8 fun r => { r with station := ⟨k1chn, 15⟩ }) ∧ Station.Valid ⟨k1chn, 15⟩ ∧
      inputOctets (input .m8 [0x96, 0x62, 0x86, 0x90, 0x9C, 0x40, 0x1E]) =
        outputOctets (run .csEncode (record .m8 fun r => { r with station := ⟨k1chn, 15⟩ }))) ∧
    ((run .csDecode (input .m8 [0x97, 0x63, 0x87, 0x91, 0x9D, 0x41, 0xFF])).status = .ok ∧
      (run .csDecode (input .m8 [0x97, 0x63, 0x87, 0x91, 0x9D, 0x41, 0xFF])).orec = .station ⟨k1chn, 15⟩) := by
  decide

theorem witness_FieldDecodeAgreesWithItsOctetRows :
    (run .afDecode (input .m8 [0xC3, 0x40, 0x40, 0x40, 0x40, 0x40, 0xFF])).status = .ok ∧
      (run .afDecode (input .m8 [0xC3, 0x40, 0x40, 0x40, 0x40, 0x40, 0xFF])).orec =
        .field ⟨⟨[0x41], 15⟩, true, true⟩ := by decide

theorem witness_ChainDecodeReadsTheChain :
    chainABK.Valid ∧ 7 * chainABK.entries.length ≤ (input .m8 (octetsABK ++ [0x03])).ilen ∧
      fieldsAt (input .m8 (octetsABK ++ [0x03])).ibuf chainABK.entries := by decide

/-- One group that ends the chain, and one that does not. -/
theorem witness_ChainTooShortExactly :
    exec .acDecode (input .m8 (octetsAB.drop 7)) = .next (run .acDecode (input .m8 (octetsAB.drop 7))) ∧
      (run .acDecode (input .m8 (octetsAB.drop 7))).status = .error .addressChainTooShort ∧
      (run .acDecode (input .m8 octetsAB)).status = .ok := ⟨rfl, rfl, by decide⟩

/-- 0, 6 and 13 octets; and 14 that end. -/
theorem witness_ChainTruncatedExactly :
    exec .acDecode (input .m8 (octetsAB.take 13)) = .next (run .acDecode (input .m8 (octetsAB.take 13))) ∧
      (run .acDecode (input .m8 [])).status = .error .truncatedAddressChain ∧
      (run .acDecode (input .m8 (octetsAB.take 6))).status = .error .truncatedAddressChain ∧
      (run .acDecode (input .m8 (octetsAB.take 13))).status = .error .truncatedAddressChain ∧
      (run .acDecode (input .m8 octetsAB)).status = .ok := ⟨rfl, rfl, rfl, rfl, by decide⟩

/-- Two chains that are equal by R104 and not by the type's own equality, and two that differ in a flag bit. -/
theorem witness_ChainEncodeForcesContinuationBits :
    StateInv (record .m8 fun r => { r with addresses := rawChain }) ∧
      (∀ f ∈ (record .m8 fun r => { r with addresses := rawChain }).irec.addresses.entries,
        f.station.Acceptable) ∧
      sameChain chainAB ⟨⟨stationA, false, true⟩, ⟨stationB, false, false⟩, []⟩ = true ∧
      chainAB ≠ ⟨⟨stationA, false, true⟩, ⟨stationB, false, false⟩, []⟩ ∧
      sameChain chainAB ⟨⟨stationA, true, false⟩, ⟨stationB, false, true⟩, []⟩ = false := by decide

/-- The second entry fails the gate, and so does the third. -/
theorem witness_ChainEncodeReportsTheFirstGateError :
    (run .acEncode (record .m8 fun r => { r with addresses :=
      ⟨⟨stationA, true, true⟩, ⟨⟨[], 0⟩, false, true⟩, [⟨⟨[0x41], 16⟩, true, false⟩]⟩ })).status =
      .error .invalidCharacters := rfl

/-- Each of the four cases at its shortest. -/
theorem witness_PayloadCheckPassesWhatFits :
    (StateInv (hostWriteInput [0xF0] (record .m8 fun r => { r with kind := .i 0 0 false })) ∧
      1 ≤ (hostWriteInput [0xF0] (record .m8 fun r => { r with kind := .i 0 0 false })).ilen) ∧
    (hostWriteInput [] (record .m8 fun r => { r with kind := .u .xid true })).irec.kind = .u .xid true ∧
    ((hostWriteInput [1, 2, 3] (record .m8 fun r => { r with kind := .u .frmr true })).irec.kind = .u .frmr true ∧
      (hostWriteInput [1, 2, 3] (record .m8 fun r => { r with kind := .u .frmr true })).ilen = 3) ∧
    ((hostWriteInput [] (record .m8 fun r => { r with kind := .s .rr 0 true })).irec.kind = .s .rr 0 true ∧
      (hostWriteInput [] (record .m8 fun r => { r with kind := .s .rr 0 true })).ilen = 0) := by decide

theorem witness_PayloadErrorsExactly :
    (run .plCheck (hostWriteInput [] (record .m8 fun r => { r with kind := .u .ui true }))).status =
        .error .missingProtocolId ∧
      (run .plCheck (hostWriteInput [1, 2] (record .m8 fun r => { r with kind := .u .frmr true }))).status =
        .error .invalidFrmrLength ∧
      (run .plCheck (hostWriteInput [1] (record .m8 fun r => { r with kind := .u .ua true }))).status =
        .error .unexpectedTrailingData ∧
      (run .plCheck (hostWriteInput [1] (record .m8 fun r => { r with kind := .u .ui true }))).status = .ok :=
  ⟨rfl, rfl, rfl, by decide⟩

/-- 14 and 15 octets. -/
theorem witness_FrameTooShortExactly :
    exec .frameDecode (input .m8 (scenario1.take 14)) = .next (run .frameDecode (input .m8 (scenario1.take 14))) ∧
      (run .frameDecode (input .m8 (scenario1.take 14))).status = .error .frameTooShort ∧
      (run .frameDecode (input .m8 scenario1)).status = .ok := ⟨rfl, rfl, by decide⟩

/-- A frame that passes every stage, and one that each stage stops. -/
theorem witness_FrameDecodeIsItsStages :
    (15 ≤ (input .m8 (octetsAB ++ [0x03, 0xF0])).ilen ∧
      (run .acDecode (input .m8 (octetsAB ++ [0x03, 0xF0]))).status = .ok ∧
      (run .acDecode (input .m8 (octetsAB ++ [0x03, 0xF0]))).orec = .chain chainAB (deriveChain chainAB) ∧
      inputOctets (input .m8 [0x03, 0xF0]) = (inputOctets (input .m8 (octetsAB ++ [0x03, 0xF0]))).drop
        (run .acDecode (input .m8 (octetsAB ++ [0x03, 0xF0]))).consumed ∧
      (run .ctlDecode (input .m8 [0x03, 0xF0])).orec = .kind (.u .ui false) ∧
      inputOctets (hostWriteInput [0xF0] (record .m8 fun r => { r with kind := .u .ui false })) =
        (inputOctets (input .m8 [0x03, 0xF0])).drop (run .ctlDecode (input .m8 [0x03, 0xF0])).consumed ∧
      StateInv (hostWriteInput [0xF0] (record .m8 fun r => { r with kind := .u .ui false }))) ∧
    (run .acDecode (input .m8 (octetsAB.take 13 ++ [0x00, 0x03]))).status = .error .truncatedAddressChain ∧
    (run .ctlDecode (input .m8 [0x07])).status = .error .unknownModifier :=
  ⟨by decide, rfl, rfl⟩

theorem witness_FrameEncodeIsItsStages :
    StateInv (record .m8 fun r => { r with addresses := rawChain, kind := .u .ui true, payload := [0xF0] }) ∧
      StateInv (hostWriteInput [0xF0] (record .m8 fun r => { r with kind := .u .ui true })) ∧
      (hostWriteInput [0xF0] (record .m8 fun r => { r with kind := .u .ui true })).irec.kind = .u .ui true ∧
      inputOctets (hostWriteInput [0xF0] (record .m8 fun r => { r with kind := .u .ui true })) = [0xF0] ∧
      (run .frameEncode (record .m8 fun r =>
        { r with addresses := rawChain, kind := .u .ui true, payload := [0xF0] })).status = .ok := by decide

theorem witness_FrameDecodeReadsTheFrame :
    Frame.Valid .m128 ⟨chainABK, .i 127 127 true, [0xF0]⟩ ∧
      fieldsAt (input .m128 (octetsABK ++ [0xFE, 0xFF, 0xF0])).ibuf chainABK.entries ∧
      (input .m128 (octetsABK ++ [0xFE, 0xFF, 0xF0])).ilen =
        7 * chainABK.entries.length + (encode (rowOf .m128 (.i 127 127 true))).length + 1 ∧
      (inputOctets (input .m128 (octetsABK ++ [0xFE, 0xFF, 0xF0]))).drop (7 * chainABK.entries.length) =
        encode (rowOf .m128 (.i 127 127 true)) ++ [0xF0] := by decide

/-- A valid frame, and one whose continuation bits are all wrong. -/
theorem witness_FrameRoundTrip :
    (StateInv (record .m8 fun r => { r with addresses := chainABK, kind := .i 7 7 true, payload := [0xF0] }) ∧
      frameOperand (record .m8 fun r => { r with addresses := chainABK, kind := .i 7 7 true, payload := [0xF0] }) =
        ⟨chainABK, .i 7 7 true, [0xF0]⟩ ∧
      Frame.Valid .m8 ⟨chainABK, .i 7 7 true, [0xF0]⟩ ∧
      inputOctets (input .m8 (outputOctets (run .frameEncode (record .m8 fun r =>
        { r with addresses := chainABK, kind := .i 7 7 true, payload := [0xF0] })))) =
        outputOctets (run .frameEncode (record .m8 fun r =>
          { r with addresses := chainABK, kind := .i 7 7 true, payload := [0xF0] }))) ∧
    (AddressChain.StationsValid ⟨⟨stationA, false, true⟩, ⟨stationB, false, false⟩, []⟩ ∧
      ¬ AddressChain.Valid ⟨⟨stationA, false, true⟩, ⟨stationB, false, false⟩, []⟩ ∧
      sameFrame ⟨⟨⟨stationA, false, true⟩, ⟨stationB, false, false⟩, []⟩, .i 7 7 true, [0xF0]⟩
        ⟨chainAB, .i 7 7 true, [0xF0]⟩ = true) := by decide

theorem witness_UnnumberedFramesAreImmuneToModulo :
    (run .acDecode (input .m8 scenario1)).status = .ok ∧
      (run .acDecode (input .m8 scenario1)).consumed < (input .m8 scenario1).ilen ∧
      Memory.read (input .m8 scenario1).ibuf (run .acDecode (input .m8 scenario1)).consumed &&& 0b11#8 = 0b11#8 := by
  decide

theorem witness_DecodeOfEncodeIsTheInstruction :
    (Instr.iM128 127 127 true).wellFormed = true ∧ Space.control .m128 ∈ (Instr.iM128 127 127 true).spaces ∧
      (Instr.addrSsid true 15 true).wellFormed = true ∧ Space.addrSsid ∈ (Instr.addrSsid true 15 true).spaces := by
  decide

theorem witness_DecodedInstructionsAreWellFormed :
    decode .addrChar [0xFF] = .ok (.addrChar 127, []) ∧
      decode (.control .m128) [0xFE, 0xFF, 0x00] = .ok (.iM128 127 127 true, [0x00]) := ⟨rfl, rfl⟩

theorem witness_UnassignedRowsEndInUnknownModifier : Instr.unassigned04 false ∈ unassignedRows false ∧
    Instr.unassignedEC true ∈ unassignedRows true := by decide

end Sys2Proof.Tests
end

section
/-! The result of an operation is a function of its own operands (R10, R167). The one idea is
`EndsAlike`: from states that agree on the operands, an operation ends in the same way and with the same values, and
what differs between the two next states is only what the operation does not deliver. -/

namespace Sys2Proof.Machine

/-- An operation ends alike from two states: it delivers the same record, record and count, or octets, or raises the
same error. Each delivery carries the result registers the operation does not write (R11). -/
inductive EndsAlike (i : Instr) (s u : State) : State → State → Prop where
  | record (r : ORec) (hb : i ∉ bufferWriters) (hc : i ∉ consumedWriters) :
      EndsAlike i s u (deliverRecord r s) (deliverRecord r u)
  | consumed (r : ORec) (n : Nat) (hb : i ∉ bufferWriters) :
      EndsAlike i s u (deliverConsumed r n s) (deliverConsumed r n u)
  | octets (b : List Byte) (hr : i ∉ recordWriters) (hc : i ∉ consumedWriters) :
      EndsAlike i s u (deliverOctets b s) (deliverOctets b u)
  | error (e : Err) : EndsAlike i s u (raise e s) (raise e u)

/-- Operations with equal codec results end alike, if their deliveries do. -/
theorem EndsAlike.of_finish {α : Type} {i : Instr} {r r' : Except Err α} {deliver : α → State → State}
    {s u t v : State} (ht : finish r deliver s = .next t) (hv : finish r' deliver u = .next v) (hr : r = r')
    (hd : ∀ x, EndsAlike i s u (deliver x s) (deliver x u)) : EndsAlike i s u t v := by
  subst hr
  cases r with
  | ok x =>
    obtain rfl : deliver x s = t := by simpa using ht
    obtain rfl : deliver x u = v := by simpa using hv
    exact hd x
  | error e =>
    obtain rfl : raise e s = t := by simpa using ht
    obtain rfl : raise e u = v := by simpa using hv
    exact .error e

/-- Operations that end alike leave the same `STATUS`, and where it is `OK` the same results; the octets delivered
read back because the output buffers they are stored in are canonical. -/
theorem EndsAlike.results_eq {i : Instr} {s u t v : State} (h : EndsAlike i s u t v)
    (hs : Memory.wf s.obuf = true) (hu : Memory.wf u.obuf = true) :
    t.status = v.status ∧
      (t.status = .ok →
        (i ∈ recordWriters → t.orec = v.orec) ∧
        (i ∈ bufferWriters → t.olen = v.olen ∧ outputOctets t = outputOctets v) ∧
        (i ∈ consumedWriters → t.consumed = v.consumed)) := by
  cases h with
  | record r hb hc => simp [hb, hc]
  | consumed r n hb => simp [hb]
  | octets b hr hc => simp [hr, hc, outputOctets_deliverOctets b hs, outputOctets_deliverOctets b hu]
  | error e => simp

/-- Equal chains (R104) encode alike. -/
theorem acEncode_same {c d : AddressChain} (h : sameChain c d = true) : acEncode c = acEncode d :=
  acEntries_same h

/-- From states that agree on the operands it reads, an operation ends alike: each codec is applied to those operands
and to nothing else (R10, R16). -/
theorem exec_endsAlike {i : Instr} {s u t v : State} (hi : i ∈ operations) (hsame : sameOperands i s u)
    (ht : exec i s = .next t) (hv : exec i u = .next v) : EndsAlike i s u t v := by
  obtain ⟨hmod, hinput, hstation, hbits, hchain, hkind, hpayload⟩ := hsame
  cases i
  case csCreate =>
    exact .of_finish ht hv (congrArg csCreate (hstation (by decide)))
      fun _ => .record _ (by decide) (by decide)
  case csDecode =>
    exact .of_finish ht hv (congrArg csDecode (hinput (by decide)))
      fun _ => .record _ (by decide) (by decide)
  case csEncode =>
    exact .of_finish ht hv (congrArg csEncode (hstation (by decide)))
      fun _ => .octets _ (by decide) (by decide)
  case afDecode =>
    exact .of_finish ht hv (congrArg afDecode (hinput (by decide)))
      fun _ => .record _ (by decide) (by decide)
  case afEncode =>
    obtain ⟨hflag, hcont⟩ := hbits rfl
    exact .of_finish ht hv (by rw [hstation (by decide), hflag, hcont])
      fun _ => .octets _ (by decide) (by decide)
  case acDecode =>
    exact .of_finish ht hv (congrArg acDecode (hinput (by decide)))
      fun _ => .consumed _ _ (by decide)
  case acEncode =>
    exact .of_finish ht hv (acEncode_same (hchain (by decide)))
      fun _ => .octets _ (by decide) (by decide)
  case acDerive =>
    have hderived := deriveChain_same (hchain (by decide))
    exact .of_finish (r := .ok (deriveChain s.irec.addresses)) (r' := .ok (deriveChain u.irec.addresses))
      (deliver := fun d => deliverRecord (.derived d)) ht hv (congrArg Except.ok hderived)
      fun _ => .record _ (by decide) (by decide)
  case ctlDecode =>
    exact .of_finish ht hv (congrArg₂ ctlDecode (hmod (by decide)) (hinput (by decide)))
      fun _ => .consumed _ _ (by decide)
  case ctlEncode =>
    exact .of_finish ht hv (congrArg₂ ctlEncode (hmod (by decide)) (hkind (by decide)))
      fun _ => .octets _ (by decide) (by decide)
  case plCheck =>
    exact .of_finish ht hv (congrArg₂ plCheck (hkind (by decide)) (hinput (by decide)))
      fun _ => .octets _ (by decide) (by decide)
  case frameDecode =>
    exact .of_finish ht hv (congrArg₂ frameDecode (hmod (by decide)) (hinput (by decide)))
      fun _ => .record _ (by decide) (by decide)
  case frameEncode =>
    have hframe : sameFrame (frameOperand s) (frameOperand u) = true := by
      simp [sameFrame, frameOperand, hchain (by decide), hkind (by decide), hpayload rfl]
    refine .of_finish ht hv ?_ fun _ => .octets _ (by decide) (by decide)
    rw [hmod (by decide), frameEncode_same hframe]
  -- The rows that are no operation.
  all_goals simp [operations] at hi

/-- Settles O18: an operation ends alike from both states, and what it delivers is all that is compared. -/
theorem resultsDependOnOperandsAlone : Obligations.ResultsDependOnOperandsAlone := by
  intro i hi s u t v ⟨_, hs, _⟩ ⟨_, hu, _⟩ hsame ht hv
  exact (exec_endsAlike hi hsame ht hv).results_eq hs hu

end Sys2Proof.Machine
end

section
/-! The kind of a control field is decided by the low bits of its first octet (R54). `CTL.DECODE` has one equation per
kind and modulo; the obligation reads off the kind of each. -/

namespace Sys2Proof.Machine

/-! ## `CTL.DECODE`, one equation per format (R55 to R59) -/

/-- The two low bits of an octet fix its lowest bit. -/
theorem and_one_of_and_three {c0 v : Byte} (h : c0 &&& 0b11#8 = v) : c0 &&& 0b01#8 = v &&& 0b01#8 := by
  rw [← h, BitVec.and_assoc]
  rfl

theorem ctlDecode_i8 {c0 : Byte} (h : c0 &&& 0b01#8 = 0b00#8) (rest : List Byte) :
    ctlDecode .m8 (c0 :: rest) = .ok (decodeI8 c0, 1) := by
  rw [ctlDecode, if_pos h]

theorem ctlDecode_i128 {c0 : Byte} (h : c0 &&& 0b01#8 = 0b00#8) (c1 : Byte) (rest : List Byte) :
    ctlDecode .m128 (c0 :: c1 :: rest) = .ok (decodeI128 (controlWord c0 c1), 2) := by
  rw [ctlDecode, if_pos h]

theorem ctlDecode_s8 {c0 : Byte} (h : c0 &&& 0b11#8 = 0b01#8) (rest : List Byte) :
    ctlDecode .m8 (c0 :: rest) = .ok (decodeS8 c0, 1) := by
  rw [ctlDecode, if_neg (by simp [and_one_of_and_three h]), if_pos h]

theorem ctlDecode_s128 {c0 : Byte} (h : c0 &&& 0b11#8 = 0b01#8) (c1 : Byte) (rest : List Byte) :
    ctlDecode .m128 (c0 :: c1 :: rest) = .ok (decodeS128 (controlWord c0 c1), 2) := by
  rw [ctlDecode, if_neg (by simp [and_one_of_and_three h]), if_pos h]

/-- A U control field is one octet, whatever the modulo and whatever follows. -/
theorem ctlDecode_u {c0 : Byte} (h : c0 &&& 0b11#8 = 0b11#8) (mo : Modulo) (rest : List Byte) :
    ctlDecode mo (c0 :: rest) = (decodeU c0).map fun k => (k, 1) := by
  have hi : ¬ c0 &&& 0b01#8 = 0b00#8 := by simp [and_one_of_and_three h]
  have hs : ¬ c0 &&& 0b11#8 = 0b01#8 := by simp [h]
  simp only [ctlDecode, hi, hs, if_false]
  cases decodeU c0 <;> rfl

/-- A U octet has a modifier or ends with the one error of its format (R59, R142). -/
theorem decodeU_cases (c0 : Byte) :
    (∃ m, decodeU c0 = .ok (.u m (pollFinalOf c0))) ∨ decodeU c0 = .error .unknownModifier := by
  cases h : uModifierOf (c0 &&& 0b1110_1100#8) with
  | some m => exact .inl ⟨m, by rw [decodeU, h]⟩
  | none => exact .inr (by rw [decodeU, h])

/-! ## The kind of each (R54) -/

/-- Bit 0 clear: an I frame, if its octets are there. -/
theorem ctlDecode_information {mo : Modulo} {c0 : Byte} {rest : List Byte} (h : c0 &&& 0b01#8 = 0b00#8)
    (hrest : mo = .m128 → rest ≠ []) :
    ∃ ns nr p n, ctlDecode mo (c0 :: rest) = .ok (.i ns nr p, n) := by
  cases mo with
  | m8 => exact ⟨_, _, _, _, ctlDecode_i8 h rest⟩
  | m128 =>
    obtain ⟨c1, rest, rfl⟩ := List.exists_cons_of_ne_nil (hrest rfl)
    exact ⟨_, _, _, _, ctlDecode_i128 h c1 rest⟩

/-- Low bits `01`: an S frame, if its octets are there. -/
theorem ctlDecode_supervisory {mo : Modulo} {c0 : Byte} {rest : List Byte} (h : c0 &&& 0b11#8 = 0b01#8)
    (hrest : mo = .m128 → rest ≠ []) :
    ∃ fn nr p n, ctlDecode mo (c0 :: rest) = .ok (.s fn nr p, n) := by
  cases mo with
  | m8 => exact ⟨_, _, _, _, ctlDecode_s8 h rest⟩
  | m128 =>
    obtain ⟨c1, rest, rfl⟩ := List.exists_cons_of_ne_nil (hrest rfl)
    exact ⟨_, _, _, _, ctlDecode_s128 h c1 rest⟩

/-- Low bits `11`: a U frame, or an unknown modifier. -/
theorem ctlDecode_unnumbered {c0 : Byte} (h : c0 &&& 0b11#8 = 0b11#8) (mo : Modulo) (rest : List Byte) :
    (∃ m p n, ctlDecode mo (c0 :: rest) = .ok (.u m p, n)) ∨
      ctlDecode mo (c0 :: rest) = .error .unknownModifier := by
  rw [ctlDecode_u h]
  rcases decodeU_cases c0 with ⟨m, hu⟩ | hu
  · exact .inl ⟨m, pollFinalOf c0, 1, by rw [hu]; rfl⟩
  · exact .inr (by rw [hu]; rfl)

/-! ## The operation -/

/-- `CTL.DECODE` delivers the kind its codec gives. -/
theorem exec_ctlDecode_ok {s t : State} {k : FrameKind} {n : Nat} (ht : exec .ctlDecode s = .next t)
    (h : ctlDecode s.mod (inputOctets s) = .ok (k, n)) : t.status = .ok ∧ t.orec = .kind k := by
  change finish (ctlDecode s.mod (inputOctets s)) (fun r => deliverConsumed (.kind r.1) r.2) s = .next t at ht
  obtain rfl : deliverConsumed (.kind k) n s = t := by simpa [h] using ht
  exact ⟨rfl, rfl⟩

/-- `CTL.DECODE` ends with the error of its codec. -/
theorem exec_ctlDecode_status_error_iff {s t : State} {e : Err} (ht : exec .ctlDecode s = .next t) :
    t.status = .error e ↔ ctlDecode s.mod (inputOctets s) = .error e :=
  finish_status_error_iff (fun _ => rfl) ht

/-- Settles O20: the first octet's low bits pick the equation of `CTL.DECODE`, and with it the kind. -/
theorem kindIsDecidedByTheLowBits : Obligations.KindIsDecidedByTheLowBits := by
  intro s hfirst hsecond
  obtain ⟨t, ht⟩ := exec_next .ctlDecode s
  have hinput := inputOctets_cons hfirst
  have hrest : Memory.read s.ibuf 0 &&& 0b11#8 ≠ 0b11#8 → s.mod = .m128 →
      Memory.octets s.ibuf 1 (s.ilen - 1) ≠ [] := fun hc hmod =>
    List.ne_nil_of_length_pos (by have := hsecond hmod hc; simp; omega)
  refine ⟨t, ht, fun hi => ?_, fun hs => ?_, fun hu => ?_⟩
  · have hc : Memory.read s.ibuf 0 &&& 0b11#8 ≠ 0b11#8 := fun h => by
      simp [and_one_of_and_three h] at hi
    obtain ⟨ns, nr, p, n, hk⟩ := ctlDecode_information hi (hrest hc)
    obtain ⟨hok, horec⟩ := exec_ctlDecode_ok ht (hinput ▸ hk)
    exact ⟨hok, ns, nr, p, horec⟩
  · obtain ⟨fn, nr, p, n, hk⟩ := ctlDecode_supervisory hs (hrest (by simp [hs]))
    obtain ⟨hok, horec⟩ := exec_ctlDecode_ok ht (hinput ▸ hk)
    exact ⟨hok, fn, nr, p, horec⟩
  · rcases ctlDecode_unnumbered hu s.mod (Memory.octets s.ibuf 1 (s.ilen - 1)) with ⟨m, p, n, hk⟩ | he
    · obtain ⟨hok, horec⟩ := exec_ctlDecode_ok ht (hinput ▸ hk)
      exact .inl ⟨hok, m, p, horec⟩
    · exact .inr ((exec_ctlDecode_status_error_iff ht).mpr (hinput ▸ he))

end Sys2Proof.Machine
end

section
/-! The gate (R80) and its character tables (R81, R82). The gate ends with each of its errors exactly when that
error's check fails and the checks before it pass (D7). -/

namespace Sys2Proof.Machine

/-! ## The character tables (R81, R82) -/

/-- The legal characters, as ranges of codes (R82). -/
theorem legal_iff (c : Byte) :
    legal c = true ↔ (0x41 ≤ c.toNat ∧ c.toNat ≤ 0x5A) ∨ (0x30 ≤ c.toNat ∧ c.toNat ≤ 0x39) := by
  simp [legal, BitVec.le_def]

/-- A code in the range of the lower-case letters goes down by 0x20, and every other code stays (R81, D6). -/
theorem upcase_toNat (c : Byte) :
    (upcase c).toNat = if 0x61 ≤ c.toNat ∧ c.toNat ≤ 0x7A then c.toNat - 0x20 else c.toNat := by
  have hrange : (0x61#8 ≤ c ∧ c ≤ 0x7A#8) ↔ 0x61 ≤ c.toNat ∧ c.toNat ≤ 0x7A := by simp [BitVec.le_def]
  rw [upcase, apply_ite BitVec.toNat]
  refine if_ctx_congr hrange (fun h => ?_) fun _ => rfl
  exact BitVec.toNat_sub_of_le (BitVec.le_def.mpr (Nat.le_trans (by decide) h.1))

/-- Settles O30: the two tables are the folding's and the legal set's ranges of codes. -/
theorem characterTables : Obligations.CharacterTables :=
  ⟨legal_iff, upcase_toNat⟩

/-! ## The errors of the gate, in their order (R80, D7) -/

theorem csCreate_ssidOutOfRange_iff (v : Station) : csCreate v = .error .ssidOutOfRange ↔ 15 < v.ssid := by
  rw [csCreate]
  split_ifs with h <;> simp [h]

theorem csCreate_callSignTooLong_iff (v : Station) :
    csCreate v = .error .callSignTooLong ↔ v.ssid ≤ 15 ∧ 6 < v.callSign.length := by
  rw [csCreate, ← Nat.not_lt]
  split_ifs with hssid hlen <;> simp [*]

/-- The last check: the empty callsign (D8), or a character that is not legal after folding. -/
theorem csCreate_invalidCharacters_iff (v : Station) :
    csCreate v = .error .invalidCharacters ↔ v.ssid ≤ 15 ∧ v.callSign.length ≤ 6 ∧
      (v.callSign = [] ∨ ∃ c ∈ v.callSign, legal (upcase c) = false) := by
  by_cases hrange : v.ssid ≤ 15 ∧ v.callSign.length ≤ 6
  · obtain ⟨hssid, hlen⟩ := hrange
    simp [csCreate_invalid_iff hssid hlen, hssid, hlen]
  · refine ⟨fun h => absurd ?_ hrange, fun h => absurd ⟨h.1, h.2.1⟩ hrange⟩
    have hs := (csCreate_ssidOutOfRange_iff v).not.mp (by simp [h])
    have hl := (csCreate_callSignTooLong_iff v).not.mp (by simp [h])
    omega

/-! ## The operation -/

theorem exec_csCreate (s : State) :
    exec .csCreate s = finish (csCreate s.irec.station) (fun v => deliverRecord (.station v)) s := rfl

/-- `CS.CREATE` delivers the station the gate gives. -/
theorem exec_csCreate_of_ok {s : State} {w : Station} (h : csCreate s.irec.station = .ok w) :
    exec .csCreate s = .next { s with status := .ok, orec := .station w } := by
  rw [exec_csCreate, h]
  rfl

/-- `CS.CREATE` ends with the error of the gate. -/
theorem exec_csCreate_status_error_iff {s t : State} {e : Err} (ht : exec .csCreate s = .next t) :
    t.status = .error e ↔ csCreate s.irec.station = .error e :=
  finish_status_error_iff (fun _ => rfl) (exec_csCreate s ▸ ht)

/-- Settles O31: the operation ends as the gate does, and each error of the gate has its own condition. -/
theorem gateAcceptsOrReportsInOrder : Obligations.GateAcceptsOrReportsInOrder := by
  intro s
  refine ⟨fun hs => exec_csCreate_of_ok (csCreate_of_acceptable hs), fun t ht => ?_⟩
  simp only [exec_csCreate_status_error_iff ht]
  exact ⟨csCreate_ssidOutOfRange_iff _, csCreate_callSignTooLong_iff _, csCreate_invalidCharacters_iff _⟩

end Sys2Proof.Machine
end

section
/-! The derived values of a chain (R105, R106, R108), in the form a reader of the rules expects. -/

namespace Sys2Proof.Machine

/-- A frame is a command exactly when the destination's flag bit is set (R108). -/
theorem commandResponseOf_eq_ite (d s : Bool) :
    commandResponseOf d s = if d then .command else .response := by
  cases d <;> cases s <;> rfl

/-- The stations that repeated the frame, picked in one pass over the digipeaters (R106). -/
theorem filter_flagBit_map_station (fs : List AddressField) :
    (fs.filter (·.flagBit)).map (·.station) = fs.filterMap (fun f => if f.flagBit then some f.station else none) := by
  induction fs with
  | nil => rfl
  | cons f fs ih => cases h : f.flagBit <;> simp [h, ih]

/-- `AC.DERIVE` has no error: it delivers the derived values of its operand (R107). -/
theorem exec_acDerive (s : State) :
    exec .acDerive s = .next (deliverRecord (.derived (deriveChain s.irec.addresses)) s) := rfl

/-- Settles O40: the stations are copied as they are, so what is left is the one pass over the digipeaters and the
destination's flag bit. -/
theorem deriveGivesTheDerivedValues : Obligations.DeriveGivesTheDerivedValues := by
  intro s
  rw [exec_acDerive, deriveChain, filter_flagBit_map_station, commandResponseOf_eq_ite]
  rfl

end Sys2Proof.Machine
end

section
/-! Every error an instruction ends with stands in its column of R203's matrix, and `UnknownFunction` stands in none
(R143). A whole-frame operation reports the errors of its stages unchanged, so its column holds theirs. -/

namespace Sys2Proof.Machine

/-! ## The errors of the codecs, by column (R203) -/

theorem csCreate_error_mem {v : Station} {e : Err} (h : csCreate v = .error e) : e ∈ errorColumn .csCreate := by
  simpa [errorColumn] using csCreate_error h

theorem csDecode_error_mem {b : List Byte} {e : Err} (h : csDecode b = .error e) : e ∈ errorColumn .csDecode := by
  rcases csDecode_error h with ⟨rfl, -⟩ | ⟨rfl, -⟩ <;> decide

theorem afDecode_error_mem {b : List Byte} {e : Err} (h : afDecode b = .error e) : e ∈ errorColumn .afDecode := by
  rcases afDecode_error h with ⟨rfl, -⟩ | ⟨rfl, -⟩ <;> decide

theorem acDecode_error_mem {b : List Byte} {e : Err} (h : acDecode b = .error e) : e ∈ errorColumn .acDecode := by
  rcases acDecode_error h with rfl | rfl | rfl <;> decide

theorem acEncode_error_mem {c : AddressChain} {e : Err} (h : acEncode c = .error e) :
    e ∈ errorColumn .acEncode := by
  simpa [errorColumn] using acEncode_error h

theorem ctlDecode_error_mem {mo : Modulo} {b : List Byte} {e : Err} (h : ctlDecode mo b = .error e) :
    e ∈ errorColumn .ctlDecode := by
  simpa [errorColumn] using ctlDecode_error h

theorem ctlEncode_error_mem {mo : Modulo} {k : FrameKind} {e : Err} (h : ctlEncode mo k = .error e) :
    e ∈ errorColumn .ctlEncode := by
  simpa [errorColumn] using (ctlEncode_error_iff.mp h).1

theorem plCheck_error_mem {k : FrameKind} {p : List Byte} {e : Err} (h : plCheck k p = .error e) :
    e ∈ errorColumn .plCheck := by
  rcases plCheck_error h with rfl | rfl | rfl <;> decide

/-- The length test, then the columns of the three stages (R163). -/
theorem frameDecode_error_mem {mo : Modulo} {b : List Byte} {e : Err} (h : frameDecode mo b = .error e) :
    e ∈ errorColumn .frameDecode := by
  have hchain : errorColumn .acDecode ⊆ errorColumn .frameDecode := by decide
  have hcontrol : errorColumn .ctlDecode ⊆ errorColumn .frameDecode := by decide
  have hpayload : errorColumn .plCheck ⊆ errorColumn .frameDecode := by decide
  rcases frameDecode_error h with rfl | ha | ⟨b', hc⟩ | ⟨k, p, hp⟩
  · decide
  · exact hchain (acDecode_error_mem ha)
  · exact hcontrol (ctlDecode_error_mem hc)
  · exact hpayload (plCheck_error_mem hp)

/-- The columns of the three stages (R164). -/
theorem frameEncode_error_mem {mo : Modulo} {f : Frame} {e : Err} (h : frameEncode mo f = .error e) :
    e ∈ errorColumn .frameEncode := by
  have hchain : errorColumn .acEncode ⊆ errorColumn .frameEncode := by decide
  have hcontrol : errorColumn .ctlEncode ⊆ errorColumn .frameEncode := by decide
  have hpayload : errorColumn .plCheck ⊆ errorColumn .frameEncode := by decide
  rcases frameEncode_error h with ha | hc | hp
  · exact hchain (acEncode_error_mem ha)
  · exact hcontrol (ctlEncode_error_mem hc)
  · exact hpayload (plCheck_error_mem hp)

/-! ## The errors of the instructions -/

/-- An assigned row of the control-field table ends in no error. -/
theorem decodedKind_status {k : FrameKind} {n : Nat} {s t : State} (h : decodedKind k n s = .next t) :
    t.status = .ok := by
  obtain rfl := Host.Outcome.next.inj h
  rfl

/-- An unassigned pattern ends in `UnknownModifier` (R142). -/
theorem unknownModifier_status {s t : State} (h : unknownModifier s = .next t) :
    t.status = .error .unknownModifier := by
  obtain rfl := Host.Outcome.next.inj h
  rfl

/-- An instruction that ends in an error ends in one of its column: an operation in an error of its codec, a row that
is no operation in what `CTL.DECODE` makes of it. -/
theorem exec_error_mem_errorColumn {i : Instr} {s t : State} {e : Err} (ht : exec i s = .next t)
    (he : t.status = .error e) : e ∈ errorColumn i := by
  cases i
  case csCreate => exact csCreate_error_mem ((finish_status_error_iff (fun _ => rfl) ht).mp he)
  case csDecode => exact csDecode_error_mem ((finish_status_error_iff (fun _ => rfl) ht).mp he)
  case csEncode =>
    exact csCreate_error_mem (csEncode_error.mp ((finish_status_error_iff (fun _ => rfl) ht).mp he))
  case afDecode => exact afDecode_error_mem ((finish_status_error_iff (fun _ => rfl) ht).mp he)
  case afEncode =>
    exact csCreate_error_mem (afEncode_error.mp ((finish_status_error_iff (fun _ => rfl) ht).mp he))
  case acDecode => exact acDecode_error_mem ((finish_status_error_iff (fun _ => rfl) ht).mp he)
  case acEncode => exact acEncode_error_mem ((finish_status_error_iff (fun _ => rfl) ht).mp he)
  case ctlDecode => exact ctlDecode_error_mem ((exec_ctlDecode_status_error_iff ht).mp he)
  case ctlEncode => exact ctlEncode_error_mem ((finish_status_error_iff (fun _ => rfl) ht).mp he)
  case plCheck => exact plCheck_error_mem ((finish_status_error_iff (fun _ => rfl) ht).mp he)
  case frameDecode => exact frameDecode_error_mem ((finish_status_error_iff (fun _ => rfl) ht).mp he)
  case frameEncode => exact frameEncode_error_mem ((finish_status_error_iff (fun _ => rfl) ht).mp he)
  case acDerive | addrChar | addrSsid =>
    obtain rfl := Host.Outcome.next.inj ht
    cases he
  case iM8 | iM128 | rrM8 | rnrM8 | rejM8 | srejM8 | rrM128 | rnrM128 | rejM128 | srejM128
      | sabm | sabme | disc | dm | ua | frmr | ui | xid | test =>
    cases (decodedKind_status ht).symm.trans he
  -- The unassigned patterns.
  all_goals
    cases (unknownModifier_status ht).symm.trans he
    exact List.mem_singleton.mpr rfl

/-- `UnknownFunction` is in no column of the matrix (R188, R203). -/
theorem unknownFunction_notMem_errorColumn (i : Instr) : .unknownFunction ∉ errorColumn i := by
  cases i <;> simp [errorColumn]

/-- Settles O17: an error an instruction ends with is in its column, and `UnknownFunction` is in none. -/
theorem unknownFunctionIsNeverReturned : Obligations.UnknownFunctionIsNeverReturned :=
  ⟨fun i _ _ ht he => unknownFunction_notMem_errorColumn i (exec_error_mem_errorColumn ht he), rfl⟩

end Sys2Proof.Machine
end

section
/-! When `CTL.DECODE` ends with each of its errors (R187, R189). A control field that is no U field is either complete
or cut short, and a U field has no error but its modifier's. -/

namespace Sys2Proof.Machine

/-! ## Unassigned modifiers (R60, R142) -/

/-- The lookup fails exactly on the patterns that no modifier has. -/
theorem uModifierOf_eq_none_iff (m : Byte) : uModifierOf m = none ↔ m ∉ uModifiers.map uPattern := by
  simp [uModifierOf, List.find?_eq_none]

theorem decodeU_unknownModifier_iff (c0 : Byte) :
    decodeU c0 = .error .unknownModifier ↔ c0 &&& 0b1110_1100#8 ∉ uModifiers.map uPattern := by
  rw [← uModifierOf_eq_none_iff, decodeU]
  cases uModifierOf (c0 &&& 0b1110_1100#8) <;> simp

/-! ## The errors of `CTL.DECODE` (R120) -/

theorem ctlDecode_nil (mo : Modulo) : ctlDecode mo [] = .error .shortControlField := rfl

/-- One octet of a modulo-128 I or S control field is not enough (D10). -/
theorem ctlDecode_m128_singleton {c0 : Byte} (h : c0 &&& 0b11#8 ≠ 0b11#8) :
    ctlDecode .m128 [c0] = .error .shortControlField := by
  rcases lowBit_cases c0 with hi | ⟨hi, hs⟩ | ⟨_, _, hu⟩
  · rw [ctlDecode, if_pos hi]
  · rw [ctlDecode, if_neg hi, if_pos hs]
  · exact absurd hu h

/-- An I or S control field whose octets are there decodes. -/
theorem ctlDecode_complete {mo : Modulo} {c0 : Byte} {rest : List Byte} (h : c0 &&& 0b11#8 ≠ 0b11#8)
    (hrest : mo = .m128 → rest ≠ []) : ∃ r, ctlDecode mo (c0 :: rest) = .ok r := by
  rcases lowBit_cases c0 with hi | ⟨_, hs⟩ | ⟨_, _, hu⟩
  · obtain ⟨_, _, _, _, hk⟩ := ctlDecode_information hi hrest
    exact ⟨_, hk⟩
  · obtain ⟨_, _, _, _, hk⟩ := ctlDecode_supervisory hs hrest
    exact ⟨_, hk⟩
  · exact absurd hu h

/-- An I or S control field has no error but a missing second octet. -/
theorem ctlDecode_is_error_iff {c0 : Byte} (h : c0 &&& 0b11#8 ≠ 0b11#8) (mo : Modulo) (rest : List Byte) (e : Err) :
    ctlDecode mo (c0 :: rest) = .error e ↔ e = .shortControlField ∧ rest = [] ∧ mo = .m128 := by
  by_cases hshort : rest = [] ∧ mo = .m128
  · obtain ⟨rfl, rfl⟩ := hshort
    simp [ctlDecode_m128_singleton h, eq_comm]
  · obtain ⟨r, hr⟩ := ctlDecode_complete h fun hmo hrest => hshort ⟨hrest, hmo⟩
    simp [hr, hshort]

/-- A U control field has no error but the one of its format. -/
theorem ctlDecode_u_error_iff {c0 : Byte} (h : c0 &&& 0b11#8 = 0b11#8) (mo : Modulo) (rest : List Byte) (e : Err) :
    ctlDecode mo (c0 :: rest) = .error e ↔ decodeU c0 = .error e := by
  rw [ctlDecode_u h]
  cases decodeU c0 <;> simp [Except.map]

theorem ctlDecode_cons_shortControlField_iff (mo : Modulo) (c0 : Byte) (rest : List Byte) :
    ctlDecode mo (c0 :: rest) = .error .shortControlField ↔
      rest = [] ∧ mo = .m128 ∧ c0 &&& 0b11#8 ≠ 0b11#8 := by
  by_cases hu : c0 &&& 0b11#8 = 0b11#8
  · rw [ctlDecode_u_error_iff hu]
    refine ⟨fun h => ?_, fun h => absurd hu h.2.2⟩
    cases decodeU_error h
  · simp [ctlDecode_is_error_iff hu, hu]

theorem ctlDecode_cons_unknownModifier_iff (mo : Modulo) (c0 : Byte) (rest : List Byte) :
    ctlDecode mo (c0 :: rest) = .error .unknownModifier ↔
      c0 &&& 0b11#8 = 0b11#8 ∧ c0 &&& 0b1110_1100#8 ∉ uModifiers.map uPattern := by
  by_cases hu : c0 &&& 0b11#8 = 0b11#8
  · rw [ctlDecode_u_error_iff hu, decodeU_unknownModifier_iff, and_iff_right hu]
  · simp [ctlDecode_is_error_iff hu, hu]

/-! ## The operation -/

/-- Settles O24: the octets of the statement are the nine patterns of R60 in the order of `uModifiers`. -/
theorem unknownModifierExactly : Obligations.UnknownModifierExactly := by
  refine ⟨fun s t ht => ?_, by decide +kernel⟩
  rw [exec_ctlDecode_status_error_iff ht]
  rcases Nat.eq_zero_or_pos s.ilen with hempty | (hfirst : 1 ≤ s.ilen)
  · simp [inputOctets_nil hempty, ctlDecode_nil, hempty]
  · rw [inputOctets_cons hfirst, ctlDecode_cons_unknownModifier_iff, and_iff_right hfirst]
    rfl

/-- Settles O25: there is no octet, or the first is all there is. -/
theorem shortControlFieldExactly : Obligations.ShortControlFieldExactly := by
  intro s t ht
  rw [exec_ctlDecode_status_error_iff ht]
  rcases Nat.eq_zero_or_pos s.ilen with hempty | hfirst
  · simp [inputOctets_nil hempty, ctlDecode_nil, hempty]
  · have hrest : Memory.octets s.ibuf 1 (s.ilen - 1) = [] ↔ s.ilen = 1 := by
      rw [← List.length_eq_zero_iff, Memory.octets_length]
      omega
    rw [inputOctets_cons hfirst, ctlDecode_cons_shortControlField_iff, hrest,
      or_iff_right (Nat.ne_of_gt hfirst)]

end Sys2Proof.Machine
end

section
/-! When an encode refuses a sequence number (R122, R194). -/

namespace Sys2Proof.Machine

/-! ## The sequence numbers of a frame kind (R13) -/

theorem mem_sequenceNumbers_iff {k : FrameKind} {v : Nat} :
    v ∈ sequenceNumbers k ↔
      (∃ nr p, k = .i v nr p) ∨ (∃ ns p, k = .i ns v p) ∨ (∃ fn p, k = .s fn v p) := by
  cases k <;> simp [sequenceNumbers, eq_comm]

theorem seqBound_lt_iff {mo : Modulo} {v : Nat} :
    seqBound mo < v ↔ (mo = .m8 ∧ 7 < v) ∨ (mo = .m128 ∧ 127 < v) := by
  cases mo <;> simp [seqBound]

/-- A frame kind is out of range exactly when one of its sequence numbers is. -/
theorem inRange_eq_false_iff {mo : Modulo} {k : FrameKind} :
    k.inRange mo = false ↔ ∃ v ∈ sequenceNumbers k, seqBound mo < v := by
  cases k with
  | i ns nr p => simp [FrameKind.inRange, sequenceNumbers, imp_iff_not_or]
  | s fn nr p => simp [FrameKind.inRange, sequenceNumbers]
  | u m p => simp [FrameKind.inRange, sequenceNumbers]

/-! ## The encodes (R121, R164) -/

theorem ctlEncode_sequenceNumberOutOfRange_iff {mo : Modulo} {k : FrameKind} :
    ctlEncode mo k = .error .sequenceNumberOutOfRange ↔ k.inRange mo = false :=
  ctlEncode_error_iff.trans (and_iff_right rfl)

/-- The error is the control field's, and the stage before it, the chain, has to succeed (D14). -/
theorem frameEncode_sequenceNumberOutOfRange_iff {mo : Modulo} {f : Frame} :
    frameEncode mo f = .error .sequenceNumberOutOfRange ↔
      (∀ g ∈ f.addresses.entries, g.station.Acceptable) ∧ f.kind.inRange mo = false := by
  have hchain : (∃ a, acEncode f.addresses = .ok a) ↔ ∀ g ∈ f.addresses.entries, g.station.Acceptable :=
    acEntries_ok_iff _
  rw [← hchain, ← ctlEncode_sequenceNumberOutOfRange_iff, frameEncode]
  cases ha : acEncode f.addresses with
  | error e =>
    rcases acEncode_error ha with rfl | rfl | rfl <;> simp
  | ok a =>
    cases hc : ctlEncode mo f.kind with
    | error e => simp
    | ok c =>
      cases hp : plCheck f.kind f.payload with
      | error e => rcases plCheck_error hp with rfl | rfl | rfl <;> simp
      | ok p => simp

/-! ## The operations -/

/-- `CTL.ENCODE` ends with the error of its codec. -/
theorem exec_ctlEncode_status_error_iff {s t : State} {e : Err} (ht : exec .ctlEncode s = .next t) :
    t.status = .error e ↔ ctlEncode s.mod s.irec.kind = .error e :=
  finish_status_error_iff (fun _ => rfl) ht

/-- `FRAME.ENCODE` ends with the error of its codec. -/
theorem exec_frameEncode_status_error_iff {s t : State} {e : Err} (ht : exec .frameEncode s = .next t) :
    t.status = .error e ↔ frameEncode s.mod (frameOperand s) = .error e :=
  finish_status_error_iff (fun _ => rfl) ht

/-- Settles O26: what both encodes test is whether some sequence number of the kind is above the bound. -/
theorem sequenceNumberOutOfRangeExactly : Obligations.SequenceNumberOutOfRangeExactly := by
  constructor
  · intro s t ht
    simp only [exec_ctlEncode_status_error_iff ht, ctlEncode_sequenceNumberOutOfRange_iff, inRange_eq_false_iff,
      mem_sequenceNumbers_iff, seqBound_lt_iff]
  · intro s t ht
    simp only [exec_frameEncode_status_error_iff ht, frameEncode_sequenceNumberOutOfRange_iff, inRange_eq_false_iff,
      mem_sequenceNumbers_iff, seqBound_lt_iff, frameOperand]

end Sys2Proof.Machine
end

section
/-! `WrongFieldLength` (R184): the two field decodes test the length first, and the error is in no other column of
R203's matrix. -/

namespace Sys2Proof.Machine

theorem csDecode_wrongFieldLength_iff {b : List Byte} : csDecode b = .error .wrongFieldLength ↔ b.length ≠ 7 := by
  refine ⟨fun h => ?_, fun hb => by rw [csDecode, if_pos hb]⟩
  rcases csDecode_error h with ⟨_, hb⟩ | ⟨he, _⟩
  · exact hb
  · cases he

theorem afDecode_wrongFieldLength_iff {b : List Byte} : afDecode b = .error .wrongFieldLength ↔ b.length ≠ 7 := by
  refine ⟨fun h => ?_, fun hb => by rw [afDecode, if_pos hb]⟩
  rcases afDecode_error h with ⟨_, hb⟩ | ⟨he, _⟩
  · exact hb
  · cases he

/-- The columns of the matrix that hold `WrongFieldLength` (R203). -/
theorem eq_of_wrongFieldLength_mem_errorColumn {i : Instr} (h : .wrongFieldLength ∈ errorColumn i) :
    i = .csDecode ∨ i = .afDecode := by
  cases i
  case csDecode => exact .inl rfl
  case afDecode => exact .inr rfl
  all_goals simp [errorColumn] at h

/-- `CS.DECODE` ends with the error of its codec. -/
theorem exec_csDecode_status_error_iff {s t : State} {e : Err} (ht : exec .csDecode s = .next t) :
    t.status = .error e ↔ csDecode (inputOctets s) = .error e :=
  finish_status_error_iff (fun _ => rfl) ht

/-- `AF.DECODE` ends with the error of its codec. -/
theorem exec_afDecode_status_error_iff {s t : State} {e : Err} (ht : exec .afDecode s = .next t) :
    t.status = .error e ↔ afDecode (inputOctets s) = .error e :=
  finish_status_error_iff (fun _ => rfl) ht

/-- Settles O35: the length tests of the two field decodes, and the matrix for every other instruction. -/
theorem wrongFieldLengthExactly : Obligations.WrongFieldLengthExactly := by
  constructor
  · rintro i s t (rfl | rfl) ht
    · rw [exec_csDecode_status_error_iff ht, csDecode_wrongFieldLength_iff, inputOctets_length]
    · rw [exec_afDecode_status_error_iff ht, afDecode_wrongFieldLength_iff, inputOctets_length]
  · intro i s t hcs haf ht he
    rcases eq_of_wrongFieldLength_mem_errorColumn (exec_error_mem_errorColumn ht he) with hi | hi
    · exact hcs hi
    · exact haf hi

end Sys2Proof.Machine
end

section
/-! When `AC.DECODE` ends with each of the two errors of the chain's length (R185, R186). The loop fails with
`TruncatedAddressChain` at a group that is not there, and one group alone is no chain. -/

namespace Sys2Proof.Machine

/-- An error of one field is none of the chain's own. -/
theorem afDecode_ne_truncatedAddressChain (b : List Byte) : afDecode b ≠ .error .truncatedAddressChain :=
  fun h => absurd (afDecode_error_mem h) (by decide)

theorem afDecode_ne_addressChainTooShort (b : List Byte) : afDecode b ≠ .error .addressChainTooShort :=
  fun h => absurd (afDecode_error_mem h) (by decide)

/-- The loop itself never finds a chain too short. -/
theorem acGroups_ne_addressChainTooShort (b : List Byte) :
    acGroups (b.length + 1) b ≠ .error .addressChainTooShort := by
  intro h
  obtain ⟨n, _, _, ⟨he, _⟩ | ⟨_, he⟩⟩ := acGroups_error (Nat.lt_succ_self _) h
  · cases he
  · exact afDecode_ne_addressChainTooShort _ he

/-- The loop ends after one group exactly when that group has its continuation bit set. -/
theorem acGroups_singleton_iff {b : List Byte} {f : AddressField} {n : Nat} :
    acGroups (b.length + 1) b = .ok ([f], n) ↔
      n = 7 ∧ 7 ≤ b.length ∧ afDecode (b.take 7) = .ok f ∧ f.continuationBit = true := by
  constructor
  · intro h
    obtain ⟨hn, hle, hmark, hall⟩ := acGroups_ok h
    have hn' : n = 7 := by simpa using hn
    exact ⟨hn', hn' ▸ hle, by simpa using hall 0 (by simp), hmark⟩
  · rintro ⟨rfl, hle, hf, hc⟩
    rw [acGroups_succ, if_neg (by omega), hf]
    simp [hc]

theorem acDecode_addressChainTooShort_iff {b : List Byte} :
    acDecode b = .error .addressChainTooShort ↔
      7 ≤ b.length ∧ ∃ f, afDecode (b.take 7) = .ok f ∧ f.continuationBit = true := by
  constructor
  · intro h
    rcases acDecode_cases b with ⟨c, n, hd, _⟩ | ⟨f, n, _, hg⟩ | ⟨e, hd, hg⟩
    · cases hd.symm.trans h
    · obtain ⟨_, hle, hf, hc⟩ := acGroups_singleton_iff.mp hg
      exact ⟨hle, f, hf, hc⟩
    · cases hd.symm.trans h
      exact absurd hg (acGroups_ne_addressChainTooShort b)
  · rintro ⟨hle, f, hf, hc⟩
    rw [acDecode, acGroups_singleton_iff.mpr ⟨rfl, hle, hf, hc⟩]

/-- `AC.DECODE` is truncated exactly where its loop is. -/
theorem acDecode_truncatedAddressChain_iff_acGroups {b : List Byte} :
    acDecode b = .error .truncatedAddressChain ↔ acGroups (b.length + 1) b = .error .truncatedAddressChain := by
  rcases acDecode_cases b with ⟨c, n, hd, hg⟩ | ⟨f, n, hd, hg⟩ | ⟨e, hd, hg⟩ <;> simp [hd, hg]

theorem acDecode_truncatedAddressChain_iff {b : List Byte} :
    acDecode b = .error .truncatedAddressChain ↔
      ∃ n, 7 * n ≤ b.length ∧ b.length < 7 * n + 7 ∧
        ∀ j < n, ∃ f, afDecode ((b.drop (7 * j)).take 7) = .ok f ∧ f.continuationBit = false := by
  rw [acDecode_truncatedAddressChain_iff_acGroups]
  constructor
  · intro h
    obtain ⟨n, hall, hle, ⟨_, hlt⟩ | ⟨_, he⟩⟩ := acGroups_error (Nat.lt_succ_self _) h
    · exact ⟨n, hle, hlt, hall⟩
    · exact absurd he (afDecode_ne_truncatedAddressChain _)
  · rintro ⟨n, hle, hlt, hall⟩
    exact acGroups_truncated n _ b (by omega) hle hlt hall

/-! ## The operation -/

/-- `AC.DECODE` ends with the error of its codec. -/
theorem exec_acDecode_status_error_iff {s t : State} {e : Err} (ht : exec .acDecode s = .next t) :
    t.status = .error e ↔ acDecode (inputOctets s) = .error e :=
  finish_status_error_iff (fun _ => rfl) ht

/-- Settles O42: the loop ends after one group, which is the first seven octets of the buffer. -/
theorem chainTooShortExactly : Obligations.ChainTooShortExactly := by
  intro s t ht
  rw [exec_acDecode_status_error_iff ht, acDecode_addressChainTooShort_iff, inputOctets_length]
  refine and_congr_right fun hle => ?_
  rw [inputOctets, Memory.take_octets _ 7 0 s.ilen hle]

/-- Settles O43: the groups before the missing one are octets of the buffer. -/
theorem chainTruncatedExactly : Obligations.ChainTruncatedExactly := by
  intro s t ht
  rw [exec_acDecode_status_error_iff ht, acDecode_truncatedAddressChain_iff, inputOctets_length]
  refine exists_congr fun n => and_congr_right fun hle => and_congr_right fun _ => forall₂_congr fun j hj => ?_
  rw [inputOctets_group s j (by omega)]

end Sys2Proof.Machine
end

section
/-! When `PL.CHECK` ends with each of its errors (R190 to R192). Each error belongs to one payload class, so what is
left is which frame kinds the class has (R160). -/

namespace Sys2Proof.Machine

/-! ## The payload classes (R160) -/

theorem payloadClass_eq_pidInfo_iff {k : FrameKind} :
    payloadClass k = .pidInfo ↔ (∃ ns nr p, k = .i ns nr p) ∨ ∃ p, k = .u .ui p := by
  rcases k with _ | _ | ⟨m, p⟩
  case u => cases m <;> simp [payloadClass]
  all_goals simp [payloadClass]

theorem payloadClass_eq_fixed3_iff {k : FrameKind} : payloadClass k = .fixed3 ↔ ∃ p, k = .u .frmr p := by
  rcases k with _ | _ | ⟨m, p⟩
  case u => cases m <;> simp [payloadClass]
  all_goals simp [payloadClass]

theorem payloadClass_eq_none_iff {k : FrameKind} :
    payloadClass k = .none ↔ (∃ fn nr p, k = .s fn nr p) ∨
      ∃ m p, k = .u m p ∧ m ∈ [UModifier.sabm, .sabme, .disc, .dm, .ua] := by
  rcases k with _ | _ | ⟨m, p⟩
  case u => cases m <;> simp [payloadClass]
  all_goals simp [payloadClass]

/-! ## The operation -/

/-- `PL.CHECK` ends with the error of its codec. -/
theorem exec_plCheck_status_error_iff {s t : State} {e : Err} (ht : exec .plCheck s = .next t) :
    t.status = .error e ↔ plCheck s.irec.kind (inputOctets s) = .error e :=
  finish_status_error_iff (fun _ => rfl) ht

/-- Settles O47: each error is its class's, on a length the class does not allow. -/
theorem payloadErrorsExactly : Obligations.PayloadErrorsExactly := by
  intro s t ht
  rw [← payloadClass_eq_pidInfo_iff, ← payloadClass_eq_fixed3_iff, ← payloadClass_eq_none_iff,
    Nat.one_le_iff_ne_zero]
  simp [exec_plCheck_status_error_iff ht, plCheck_error_iff]

end Sys2Proof.Machine
end

section
/-! `FrameTooShort` (R193): the length test of `FRAME.DECODE` is its first, and no stage after it has that error. -/

namespace Sys2Proof.Machine

/-- On 15 octets or more an error of `FRAME.DECODE` is one of its stages' (R163). -/
theorem frameDecode_error_mem_stages {mo : Modulo} {b : List Byte} {e : Err} (hb : ¬ b.length < 15)
    (h : frameDecode mo b = .error e) :
    e ∈ errorColumn .acDecode ∨ e ∈ errorColumn .ctlDecode ∨ e ∈ errorColumn .plCheck := by
  rw [frameDecode, if_neg hb] at h
  cases ha : acDecode b with
  | error x =>
    obtain rfl : x = e := by simpa [ha] using h
    exact .inl (acDecode_error_mem ha)
  | ok r =>
    cases hc : ctlDecode mo (b.drop r.2) with
    | error x =>
      obtain rfl : x = e := by simpa [ha, hc] using h
      exact .inr (.inl (ctlDecode_error_mem hc))
    | ok q =>
      cases hp : plCheck q.1 (b.drop (r.2 + q.2)) with
      | error x =>
        obtain rfl : x = e := by simpa [ha, hc, hp] using h
        exact .inr (.inr (plCheck_error_mem hp))
      | ok p => simp [ha, hc, hp] at h

theorem frameDecode_frameTooShort_iff {mo : Modulo} {b : List Byte} :
    frameDecode mo b = .error .frameTooShort ↔ b.length < 15 := by
  refine ⟨fun h => ?_, fun hb => by rw [frameDecode, if_pos hb]⟩
  by_contra hb
  exact absurd (frameDecode_error_mem_stages hb h) (by decide)

/-- `FRAME.DECODE` ends with the error of its codec. -/
theorem exec_frameDecode_status_error_iff {s t : State} {e : Err} (ht : exec .frameDecode s = .next t) :
    t.status = .error e ↔ frameDecode s.mod (inputOctets s) = .error e :=
  finish_status_error_iff (fun _ => rfl) ht

/-- Settles O48: the length tested is `ILEN`. -/
theorem frameTooShortExactly : Obligations.FrameTooShortExactly := by
  intro s t ht
  rw [exec_frameDecode_status_error_iff ht, frameDecode_frameTooShort_iff, inputOctets_length]

end Sys2Proof.Machine
end

section
/-! Every operation is one codec function and one delivery (R38). Each has its equation, and a next state whose
`STATUS` is `OK` tells what the codec gave. -/

namespace Sys2Proof.Machine

/-! ## The operations as codecs (R16) -/

theorem exec_csDecode (s : State) :
    exec .csDecode s = finish (csDecode (inputOctets s)) (fun v => deliverRecord (.station v)) s := rfl

theorem exec_csEncode (s : State) : exec .csEncode s = finish (csEncode s.irec.station) deliverOctets s := rfl

theorem exec_afDecode (s : State) :
    exec .afDecode s = finish (afDecode (inputOctets s)) (fun f => deliverRecord (.field f)) s := rfl

theorem exec_afEncode (s : State) :
    exec .afEncode s =
      finish (afEncode ⟨s.irec.station, s.irec.flagBit, s.irec.continuationBit⟩) deliverOctets s := rfl

theorem exec_acDecode (s : State) :
    exec .acDecode s =
      finish (acDecode (inputOctets s)) (fun r => deliverConsumed (.chain r.1 (deriveChain r.1)) r.2) s := rfl

theorem exec_acEncode (s : State) : exec .acEncode s = finish (acEncode s.irec.addresses) deliverOctets s := rfl

theorem exec_ctlDecode (s : State) :
    exec .ctlDecode s =
      finish (ctlDecode s.mod (inputOctets s)) (fun r => deliverConsumed (.kind r.1) r.2) s := rfl

theorem exec_ctlEncode (s : State) :
    exec .ctlEncode s = finish (ctlEncode s.mod s.irec.kind) deliverOctets s := rfl

theorem exec_plCheck (s : State) :
    exec .plCheck s = finish (plCheck s.irec.kind (inputOctets s)) deliverOctets s := rfl

theorem exec_frameDecode (s : State) :
    exec .frameDecode s =
      finish (frameDecode s.mod (inputOctets s))
        (fun f => deliverRecord (.frame f (deriveChain f.addresses))) s := rfl

theorem exec_frameEncode (s : State) :
    exec .frameEncode s = finish (frameEncode s.mod (frameOperand s)) deliverOctets s := rfl

/-! ## Operations that end in `OK` -/

/-- An operation that ends in `OK` delivers what its codec gives. -/
theorem finish_status_ok {α : Type} {r : Except Err α} {deliver : α → State → State} {s t : State}
    (h : finish r deliver s = .next t) (hok : t.status = .ok) : ∃ x, r = .ok x ∧ t = deliver x s := by
  rcases finish_cases h with hx | ⟨e, -, rfl⟩
  · exact hx
  · cases hok

/-- An operation whose codec gives a value delivers it. -/
theorem finish_of_ok {α : Type} {r : Except Err α} {x : α} (hr : r = .ok x) (deliver : α → State → State)
    (s : State) : finish r deliver s = .next (deliver x s) := by
  rw [hr, finish_ok]

/-- The only way to end other than in `OK` is an error of the codec. -/
theorem finish_status_ne_ok {α : Type} {r : Except Err α} {deliver : α → State → State} {s t : State}
    (hd : ∀ x, (deliver x s).status = .ok) (h : finish r deliver s = .next t) (hne : t.status ≠ .ok) :
    ∃ e, r = .error e ∧ t.status = .error e := by
  rcases finish_cases h with ⟨x, -, rfl⟩ | ⟨e, he, rfl⟩
  · exact absurd (hd x) hne
  · exact ⟨e, he, rfl⟩

end Sys2Proof.Machine
end

section
/-! The invariant (R8, R38, R143): the four ways an instruction ends keep both buffers canonical, and the one error
the invariant shuts out is never returned. -/

namespace Sys2Proof.Machine

/-- Every instruction keeps the buffers canonical. -/
theorem exec_buffers_wf {i : Instr} {s t : State} (ht : exec i s = .next t) (hibuf : Memory.wf s.ibuf = true)
    (hobuf : Memory.wf s.obuf = true) : Memory.wf t.ibuf = true ∧ Memory.wf t.obuf = true := by
  rcases exec_cases ht with ⟨r, rfl⟩ | ⟨r, n, rfl⟩ | ⟨v, rfl⟩ | ⟨e, rfl⟩
  · exact ⟨hibuf, hobuf⟩
  · exact ⟨hibuf, hobuf⟩
  · exact ⟨hibuf, deliverOctets_obuf_wf v hobuf⟩
  · exact raise_buffers_wf e hibuf

theorem exec_stateInv {i : Instr} {s t : State} (ht : exec i s = .next t) (hs : StateInv s) : StateInv t := by
  obtain ⟨hibuf, hobuf, -⟩ := hs
  obtain ⟨hibuf', hobuf'⟩ := exec_buffers_wf ht hibuf hobuf
  exact ⟨hibuf', hobuf', unknownFunctionIsNeverReturned.1 i s t ht⟩

/-- A step that goes on keeps the invariant, whatever the parameters. -/
theorem stepWith_stateInv {lim : Config.Limits} {s t : State} (hs : StateInv s) (h : stepWith lim s = .next t) :
    StateInv t := by
  obtain ⟨i, -, ht⟩ := stepWith_next h
  exact exec_stateInv ht hs

/-- Settles O7: a step that goes on is an instruction, and every instruction keeps the invariant. -/
theorem everyStepKeepsInvariant : Obligations.EveryStepKeepsInvariant :=
  ⟨fun _ _ => stepWith_stateInv, fun _ _ _ => stepWith_stateInv⟩

end Sys2Proof.Machine
end

section
/-! What `CTL.DECODE` reads, said once (R54 to R59): the five layouts of a control field, with the octets each
takes. -/

namespace Sys2Proof.Machine

/-! ## The control word in octet terms (R32) -/

theorem decodeI128_controlWord (c0 c1 : Byte) :
    decodeI128 (controlWord c0 c1) =
      .i (c0.extractLsb' 1 7).toNat (c1.extractLsb' 1 7).toNat (c1.getLsbD 0) := by
  rw [decodeI128, controlWord_sendSeq, recvSeq128_controlWord, pollFinal128_controlWord]

theorem decodeS128_controlWord (c0 c1 : Byte) :
    decodeS128 (controlWord c0 c1) =
      .s (sFunctionOf ((c0.extractLsb' 2 2).setWidth 8)) (c1.extractLsb' 1 7).toNat (c1.getLsbD 0) := by
  rw [decodeS128, controlWord_func, recvSeq128_controlWord, pollFinal128_controlWord]

/-- Seven bits of an octet make a sequence number of modulo-128. -/
theorem septet_le (c : Byte) : (c.extractLsb' 1 7).toNat ≤ seqBound .m128 :=
  Nat.le_of_lt_succ (c.extractLsb' 1 7).isLt

/-! ## The layouts -/

/-- The octets begin with a control field of a frame kind, which takes so many of them: one case per layout
(R55 to R59). -/
inductive ControlReads : Modulo → List Byte → FrameKind → Nat → Prop where
  | i8 {c0 : Byte} (h : c0 &&& 0b01#8 = 0b00#8) (rest : List Byte) :
      ControlReads .m8 (c0 :: rest) (decodeI8 c0) 1
  | i128 {c0 : Byte} (h : c0 &&& 0b01#8 = 0b00#8) (c1 : Byte) (rest : List Byte) :
      ControlReads .m128 (c0 :: c1 :: rest) (decodeI128 (controlWord c0 c1)) 2
  | s8 {c0 : Byte} (h : c0 &&& 0b11#8 = 0b01#8) (rest : List Byte) :
      ControlReads .m8 (c0 :: rest) (decodeS8 c0) 1
  | s128 {c0 : Byte} (h : c0 &&& 0b11#8 = 0b01#8) (c1 : Byte) (rest : List Byte) :
      ControlReads .m128 (c0 :: c1 :: rest) (decodeS128 (controlWord c0 c1)) 2
  | u (mo : Modulo) {c0 : Byte} {m : UModifier} (h : c0 &&& 0b11#8 = 0b11#8)
      (hm : decodeU c0 = .ok (.u m (pollFinalOf c0))) (rest : List Byte) :
      ControlReads mo (c0 :: rest) (.u m (pollFinalOf c0)) 1

theorem ControlReads.ctlDecode_eq {mo : Modulo} {b : List Byte} {k : FrameKind} {n : Nat}
    (h : ControlReads mo b k n) : ctlDecode mo b = .ok (k, n) := by
  cases h with
  | i8 h rest => exact ctlDecode_i8 h rest
  | i128 h c1 rest => exact ctlDecode_i128 h c1 rest
  | s8 h rest => exact ctlDecode_s8 h rest
  | s128 h c1 rest => exact ctlDecode_s128 h c1 rest
  | u _ h hm rest => rw [ctlDecode_u h, hm]; rfl

/-- Every octet string begins with a control field, or lacks an octet of one, or has an unassigned modifier. -/
theorem ctlDecode_cases (mo : Modulo) (b : List Byte) :
    (∃ k n, ControlReads mo b k n) ∨
      b = [] ∨ (∃ c0, b = [c0] ∧ mo = .m128 ∧ c0 &&& 0b11#8 ≠ 0b11#8) ∨
      ∃ c0 rest, b = c0 :: rest ∧ c0 &&& 0b11#8 = 0b11#8 ∧ decodeU c0 = .error .unknownModifier := by
  rcases b with _ | ⟨c0, rest⟩
  · exact .inr (.inl rfl)
  rcases lowBit_cases c0 with hi | ⟨hi, hs⟩ | ⟨-, -, hu⟩
  · have hc : c0 &&& 0b11#8 ≠ 0b11#8 := fun h => by simp [and_one_of_and_three h] at hi
    rcases mo, rest with ⟨_ | _, _ | ⟨c1, rest⟩⟩
    · exact .inl ⟨_, _, .i8 hi []⟩
    · exact .inl ⟨_, _, .i8 hi _⟩
    · exact .inr (.inr (.inl ⟨c0, rfl, rfl, hc⟩))
    · exact .inl ⟨_, _, .i128 hi c1 rest⟩
  · have hc : c0 &&& 0b11#8 ≠ 0b11#8 := by simp [hs]
    rcases mo, rest with ⟨_ | _, _ | ⟨c1, rest⟩⟩
    · exact .inl ⟨_, _, .s8 hs []⟩
    · exact .inl ⟨_, _, .s8 hs _⟩
    · exact .inr (.inr (.inl ⟨c0, rfl, rfl, hc⟩))
    · exact .inl ⟨_, _, .s128 hs c1 rest⟩
  · rcases decodeU_cases c0 with ⟨m, hm⟩ | he
    · exact .inl ⟨_, _, .u mo hu hm rest⟩
    · exact .inr (.inr (.inr ⟨c0, rest, rfl, hu, he⟩))

/-- `CTL.DECODE` gives exactly the control field that the octets begin with. -/
theorem ctlDecode_ok_iff {mo : Modulo} {b : List Byte} {k : FrameKind} {n : Nat} :
    ctlDecode mo b = .ok (k, n) ↔ ControlReads mo b k n := by
  refine ⟨fun h => ?_, ControlReads.ctlDecode_eq⟩
  rcases ctlDecode_cases mo b with ⟨k', n', hr⟩ | rfl | ⟨c0, rfl, rfl, hc⟩ | ⟨c0, rest, rfl, hu, he⟩
  · have heq := hr.ctlDecode_eq.symm.trans h
    obtain ⟨rfl, rfl⟩ : k' = k ∧ n' = n := by simpa using heq
    exact hr
  · cases h
  · cases (ctlDecode_m128_singleton hc).symm.trans h
  · rw [ctlDecode_u hu, he] at h
    cases h

/-- A kind read from octets has its sequence numbers in range (R13, R64). -/
theorem ControlReads.inRange {mo : Modulo} {b : List Byte} {k : FrameKind} {n : Nat} (h : ControlReads mo b k n) :
    k.inRange mo = true := by
  cases h with
  | @i8 c0 h rest =>
    have hb : ∀ c : Byte, (decodeI8 c).inRange .m8 = true := by decide +kernel
    exact hb c0
  | @i128 c0 h c1 rest =>
    rw [decodeI128_controlWord]
    simp only [FrameKind.inRange, Bool.and_eq_true, decide_eq_true_eq]
    exact ⟨septet_le c0, septet_le c1⟩
  | @s8 c0 h rest =>
    have hb : ∀ c : Byte, (decodeS8 c).inRange .m8 = true := by decide +kernel
    exact hb c0
  | s128 h c1 rest =>
    rw [decodeS128_controlWord]
    simpa only [FrameKind.inRange, decide_eq_true_eq] using septet_le c1
  | u _ h hm rest => rfl

end Sys2Proof.Machine
end

section
/-! Control fields round trip (R145). Decoding what was encoded is `ctlDecode_ctlEncode`; for the converse each layout
gives back the octets it was read from, but for the bits that a modulo-128 S field does not look at. -/

namespace Sys2Proof.Machine

/-! ## Encoding what was read -/

theorem ctlEncode_decodeI8 : ∀ c0 : Byte, c0 &&& 0b01#8 = 0b00#8 →
    ctlEncode .m8 (decodeI8 c0) = .ok [c0] := by decide +kernel

theorem ctlEncode_decodeS8 : ∀ c0 : Byte, c0 &&& 0b11#8 = 0b01#8 →
    ctlEncode .m8 (decodeS8 c0) = .ok [c0] := by decide +kernel

/-- The octet of a 7-bit number beside bit 0 (R56, R58). -/
theorem seq_poll_octet_eq : ∀ c : Byte,
    BitVec.ofNat 8 (c.extractLsb' 1 7).toNat <<< 1 ||| bitOctet (c.getLsbD 0) = c := by decide +kernel

theorem seq_octet_eq : ∀ c : Byte, c &&& 0b01#8 = 0b00#8 →
    BitVec.ofNat 8 (c.extractLsb' 1 7).toNat <<< 1 = c := by decide +kernel

theorem ctlEncode_decodeI128 {c0 : Byte} (h : c0 &&& 0b01#8 = 0b00#8) (c1 : Byte) :
    ctlEncode .m128 (decodeI128 (controlWord c0 c1)) = .ok [c0, c1] := by
  rw [decodeI128_controlWord]
  simp only [ctlEncode, checkSeq_ok (mo := .m128) (septet_le c0), checkSeq_ok (mo := .m128) (septet_le c1),
    encodeI128_octets (septet_le c0) (septet_le c1), seq_octet_eq c0 h, seq_poll_octet_eq]

/-- The low half of an S octet is its function's. -/
theorem sFunction_octet_eq : ∀ c0 : Byte, c0 &&& 0b11#8 = 0b01#8 →
    sFunctionField (sFunctionOf ((c0.extractLsb' 2 2).setWidth 8)) <<< 2 ||| 0b01#8 = c0 &&& 0b0000_1111#8 := by
  decide +kernel

/-- A modulo-128 S field comes back with bits 7:4 of its first octet clear (D12). -/
theorem ctlEncode_decodeS128 {c0 : Byte} (h : c0 &&& 0b11#8 = 0b01#8) (c1 : Byte) :
    ctlEncode .m128 (decodeS128 (controlWord c0 c1)) = .ok [c0 &&& 0b0000_1111#8, c1] := by
  rw [decodeS128_controlWord]
  simp only [ctlEncode, checkSeq_ok (mo := .m128) (septet_le c1), encodeSFrame128_octets _ (septet_le c1),
    sFunction_octet_eq c0 h, seq_poll_octet_eq]

theorem low_half_eq_iff : ∀ c0 : Byte, c0 &&& 0b0000_1111#8 = c0 ↔ c0 &&& 0b1111_0000#8 = 0#8 := by
  decide +kernel

/-- The modifier found has the octet's pattern (R59). -/
theorem uPattern_of_decodeU {c0 : Byte} {m : UModifier} {p : Bool} (h : decodeU c0 = .ok (.u m p)) :
    uPattern m = c0 &&& 0b1110_1100#8 := by
  rw [decodeU] at h
  cases hm : uModifierOf (c0 &&& 0b1110_1100#8) with
  | none => simp [hm] at h
  | some m' =>
    obtain ⟨rfl, -⟩ : m' = m ∧ pollFinalOf c0 = p := by simpa [hm] using h
    simpa using List.find?_some hm

theorem u_octet_eq : ∀ c0 : Byte, c0 &&& 0b11#8 = 0b11#8 →
    c0 &&& 0b1110_1100#8 ||| bitOctet (pollFinalOf c0) <<< 4 ||| 0b11#8 = c0 := by decide +kernel

/-- A U octet is the one its modifier and poll/final bit encode to. -/
theorem encodeUFrame_of_decodeU {c0 : Byte} {m : UModifier} (h : c0 &&& 0b11#8 = 0b11#8)
    (hm : decodeU c0 = .ok (.u m (pollFinalOf c0))) : encodeUFrame m (pollFinalOf c0) = [c0] := by
  rw [encodeUFrame, uPattern_of_decodeU hm, u_octet_eq c0 h]

/-- Encoding a kind read from octets gives them back, but for a modulo-128 S field with a bit of 7:4 set. -/
theorem ControlReads.ctlEncode {mo : Modulo} {c0 : Byte} {rest : List Byte} {k : FrameKind} {n : Nat}
    (h : ControlReads mo (c0 :: rest) k n) :
    ∃ a, ctlEncode mo k = .ok a ∧
      (a = (c0 :: rest).take n ↔
        ¬ (mo = .m128 ∧ (∃ fn nr p, k = .s fn nr p) ∧ c0 &&& 0b1111_0000#8 ≠ 0#8)) := by
  cases h with
  | i8 h => exact ⟨_, ctlEncode_decodeI8 c0 h, by simp⟩
  | i128 h c1 => exact ⟨_, ctlEncode_decodeI128 h c1, by simp [decodeI128]⟩
  | s8 h => exact ⟨_, ctlEncode_decodeS8 c0 h, by simp⟩
  | s128 h c1 => exact ⟨_, ctlEncode_decodeS128 h c1, by simp [low_half_eq_iff, decodeS128]⟩
  | u _ h hm => exact ⟨_, congrArg Except.ok (encodeUFrame_of_decodeU h hm), by simp⟩

/-! ## The operations -/

/-- Settles O28: both directions are the codecs', on the octets that the buffers hold. -/
theorem controlFieldRoundTrip : Obligations.ControlFieldRoundTrip := by
  constructor
  · intro s ⟨_, hobuf, _⟩ hk
    obtain ⟨a, ha, hdecode⟩ := ctlDecode_ctlEncode hk
    refine ⟨deliverOctets a s, by rw [exec_ctlEncode, finish_of_ok ha], rfl, fun u hmod hinput => ?_⟩
    have hu : ctlDecode u.mod (inputOctets u) = .ok (s.irec.kind, a.length) := by
      rw [hmod, hinput, outputOctets_deliverOctets a hobuf, ← hdecode [], List.append_nil]
    rw [exec_ctlDecode, finish_of_ok hu, deliverOctets_olen]
    rfl
  · rintro s t u k ht hok hk ⟨_, hobuf, _⟩ hmod rfl
    obtain ⟨⟨k, n⟩, hd, rfl⟩ := finish_status_ok (exec_ctlDecode s ▸ ht) hok
    obtain rfl : k = u.irec.kind := by simpa using hk
    obtain ⟨hone, -, hlen⟩ := ctlDecode_consumed hd
    have hfirst : 1 ≤ s.ilen := hone.trans (inputOctets_length s ▸ hlen)
    rw [inputOctets_cons hfirst, ctlDecode_ok_iff] at hd
    obtain ⟨a, ha, hiff⟩ := hd.ctlEncode
    refine ⟨deliverOctets a u, by rw [exec_ctlEncode, finish_of_ok (hmod ▸ ha)], rfl, ?_⟩
    rw [outputOctets_deliverOctets a hobuf, inputOctets_cons hfirst]
    exact hiff

end Sys2Proof.Machine
end

section
/-! A chain that stands in a buffer is the chain `AC.DECODE` gives (R102): each of its groups decodes to its field,
whatever the ignored bits are, and the loop stops at the one group whose continuation bit is set. -/

namespace Sys2Proof.Machine

/-- The loop gives the entries whose fields stand in the buffer. -/
theorem acGroups_of_fieldsAt {s : State} {fs : List AddressField} (hvalid : ∀ f ∈ fs, f.station.Valid)
    (hmarks : continuationMarksLast fs = true) (hlen : 7 * fs.length ≤ s.ilen) (hfields : fieldsAt s.ibuf fs) :
    acGroups ((inputOctets s).length + 1) (inputOctets s) = .ok (fs, 7 * fs.length) := by
  refine acGroups_of_groups hmarks (by rw [inputOctets_length]; omega) (by rwa [inputOctets_length]) fun j hj => ?_
  rw [inputOctets_group s j (by omega)]
  exact afDecode_octets (hvalid _ (List.getElem_mem hj)) (hfields ⟨j, hj⟩)

theorem acDecode_of_fieldsAt {s : State} {c : AddressChain} (hc : c.Valid) (hlen : 7 * c.entries.length ≤ s.ilen)
    (hfields : fieldsAt s.ibuf c.entries) :
    acDecode (inputOctets s) = .ok (c, 7 * c.entries.length) := by
  obtain ⟨hvalid, hmarks⟩ := hc
  rw [acDecode, acGroups_of_fieldsAt hvalid hmarks hlen hfields]
  rfl

/-- Settles O41: `AC.DECODE` delivers what its codec gives. -/
theorem chainDecodeReadsTheChain : Obligations.ChainDecodeReadsTheChain := by
  intro s c hc hlen hfields
  rw [exec_acDecode, finish_of_ok (acDecode_of_fieldsAt hc hlen hfields)]
  rfl

end Sys2Proof.Machine
end

section
/-! The octets of an encoded frame kind are those of its row of the opcode table (R121): the shifts of `CTL.ENCODE`
against the `encoding` column, layout by layout. -/

namespace Sys2Proof.Machine

theorem ctlEncode_eq_encode_rowOf {mo : Modulo} {k : FrameKind} (hk : k.inRange mo = true) :
    ctlEncode mo k = .ok (encode (rowOf mo k)) := by
  cases k with
  | i ns nr p =>
    simp only [FrameKind.inRange, Bool.and_eq_true, decide_eq_true_eq] at hk
    obtain ⟨hns, hnr⟩ := hk
    simp only [ctlEncode, checkSeq_ok hns, checkSeq_ok hnr]
    cases mo with
    | m8 => exact congrArg Except.ok (i8_octets ⟨ns, Nat.lt_succ_of_le hns⟩ ⟨nr, Nat.lt_succ_of_le hnr⟩ p)
    | m128 => exact congrArg Except.ok (i128_octets ⟨ns, Nat.lt_succ_of_le hns⟩ ⟨nr, Nat.lt_succ_of_le hnr⟩ p)
  | s fn nr p =>
    simp only [FrameKind.inRange, decide_eq_true_eq] at hk
    simp only [ctlEncode, checkSeq_ok hk]
    cases mo with
    | m8 => exact congrArg Except.ok (s8_octets fn ⟨nr, Nat.lt_succ_of_le hk⟩ p)
    | m128 => exact congrArg Except.ok (s128_octets fn ⟨nr, Nat.lt_succ_of_le hk⟩ p)
  | u m p => exact congrArg Except.ok (u_octets m p mo)

/-- The row of a kind in range decodes to the kind, whatever follows its octets. -/
theorem ctlDecode_encode_rowOf {mo : Modulo} {k : FrameKind} (hk : k.inRange mo = true) (rest : List Byte) :
    ctlDecode mo (encode (rowOf mo k) ++ rest) = .ok (k, (encode (rowOf mo k)).length) := by
  obtain ⟨a, ha, hdecode⟩ := ctlDecode_ctlEncode hk
  obtain rfl : encode (rowOf mo k) = a := by simpa [ctlEncode_eq_encode_rowOf hk] using ha
  exact hdecode rest

/-- Settles O27: the octets stored are those of the codec. -/
theorem controlEncodeStoresTheRow : Obligations.ControlEncodeStoresTheRow := by
  intro s ⟨_, hobuf, _⟩ hk
  exact ⟨_, by rw [exec_ctlEncode, finish_of_ok (ctlEncode_eq_encode_rowOf hk)], rfl,
    deliverOctets_olen _ s, outputOctets_deliverOctets _ hobuf⟩

end Sys2Proof.Machine
end

section
/-! A frame that stands in a buffer is the frame `FRAME.DECODE` gives (R163), and encoding then decoding a frame gives
it back (R166). -/

namespace Sys2Proof.Machine

/-- `FRAME.DECODE` is its three stages, where each gives a value (R163). -/
theorem frameDecode_of_stages {mo : Modulo} {b p : List Byte} {c : AddressChain} {k : FrameKind} {off n : Nat}
    (hb : 15 ≤ b.length) (hc : acDecode b = .ok (c, off)) (hk : ctlDecode mo (b.drop off) = .ok (k, n))
    (hp : plCheck k ((b.drop off).drop n) = .ok p) : frameDecode mo b = .ok ⟨c, k, p⟩ := by
  rw [List.drop_drop] at hp
  simp only [frameDecode, if_neg (Nat.not_lt.mpr hb), hc, hk, hp]

theorem encode_length_pos (i : Instr) : 1 ≤ (encode i).length := by
  cases i <;> exact Nat.succ_le_succ (Nat.zero_le _)

theorem entries_length_ge (c : AddressChain) : 2 ≤ c.entries.length := by
  simp [AddressChain.entries]

/-- Settles O51: the chain is the one in the buffer, and what follows it is the row of the kind and the payload. -/
theorem frameDecodeReadsTheFrame : Obligations.FrameDecodeReadsTheFrame := by
  intro s f ⟨hc, hk, hp⟩ hfields hlen hrest
  have hrow := encode_length_pos (rowOf s.mod f.kind)
  have hentries := entries_length_ge f.addresses
  have hdecode : frameDecode s.mod (inputOctets s) = .ok f := by
    refine frameDecode_of_stages (by rw [inputOctets_length]; omega)
      (acDecode_of_fieldsAt hc (by omega) hfields) (by rw [hrest, ctlDecode_encode_rowOf hk]) ?_
    rw [hrest, List.drop_left, plCheck_ok_iff]
    exact ⟨hp, rfl⟩
  rw [exec_frameDecode, finish_of_ok hdecode]
  rfl

/-- Encoding what is equal (R166) to a valid frame, then decoding, gives the valid frame. -/
theorem exec_frameEncode_then_frameDecode {s : State} {g : Frame} (hs : StateInv s) (hg : g.Valid s.mod)
    (hsame : sameFrame (frameOperand s) g = true) :
    ∃ t, exec .frameEncode s = .next t ∧ t.status = .ok ∧ 15 ≤ t.olen ∧
      ∀ u : State, u.mod = s.mod → inputOctets u = outputOctets t →
        exec .frameDecode u =
          .next { u with status := .ok, orec := .frame g (deriveChain g.addresses) } := by
  obtain ⟨a, ha, hlen, hdecode⟩ := frameDecode_frameEncode hg
  rw [← frameEncode_same hsame] at ha
  refine ⟨deliverOctets a s, by rw [exec_frameEncode, finish_of_ok ha], rfl, by rwa [deliverOctets_olen],
    fun u hmod hinput => ?_⟩
  have hu : frameDecode u.mod (inputOctets u) = .ok g := by
    rw [hmod, hinput, outputOctets_deliverOctets a hs.2.1, hdecode]
  rw [exec_frameDecode, finish_of_ok hu]
  rfl

theorem sameFrame_iff {f g : Frame} :
    sameFrame f g = true ↔ sameChain f.addresses g.addresses = true ∧ f.kind = g.kind ∧ f.payload = g.payload := by
  simp [sameFrame]

theorem sameChain_refl (c : AddressChain) : sameChain c c = true := by
  rw [sameChain, sameEntries_iff]
  refine ⟨rfl, fun j f g hf hg => ?_⟩
  obtain rfl : f = g := Option.some.inj (hf.symm.trans hg)
  exact ⟨rfl, rfl⟩

/-- Settles O52: a valid frame is equal to itself, and one valid but for its continuation bits to the valid frame
whose bits an encode forces. -/
theorem frameRoundTrip : Obligations.FrameRoundTrip := by
  refine ⟨?_, ?_, fun _ _ => sameFrame_iff⟩
  · rintro s f hs rfl hf
    exact exec_frameEncode_then_frameDecode hs hf (sameFrame_iff.mpr ⟨sameChain_refl _, rfl, rfl⟩)
  · rintro s f hs rfl hstations hk hp
    obtain ⟨d, hd, hsame⟩ := exists_valid_sameChain hstations
    have hg : Frame.Valid s.mod ⟨d, (frameOperand s).kind, (frameOperand s).payload⟩ := ⟨hd, hk, hp⟩
    have hsame' : sameFrame (frameOperand s) ⟨d, (frameOperand s).kind, (frameOperand s).payload⟩ = true :=
      sameFrame_iff.mpr ⟨hsame, rfl, rfl⟩
    obtain ⟨t, ht, hok, -, hdecode⟩ := exec_frameEncode_then_frameDecode hs hg hsame'
    exact ⟨t, _, ht, hok, hg, hsame', hdecode⟩

end Sys2Proof.Machine
end

section
/-! Which operation an `OP` code selects (R16), and what a step does with it (R217, U9). -/

namespace Sys2Proof.Machine

/-! ## The select codes (R16) -/

theorem selectOp_of_mem_operationTable :
    ∀ row ∈ operationTable, selectOp row.code = .ok row.instr := by decide

/-- A code is in R16's table, or it is one of the three that select nothing (U9). -/
theorem code_cases : ∀ code : BitVec 4,
    (∃ row ∈ operationTable, row.code = code) ∨
      (code = 0x0 ∨ code = 0xE ∨ code = 0xF) ∧ selectOp code = .error (.unassignedOp code) := by decide

/-- What a code selects stands in R16's table. -/
theorem exists_row_of_selectOp {code : BitVec 4} {i : Instr} (h : selectOp code = .ok i) :
    ∃ row ∈ operationTable, row.code = code ∧ row.instr = i := by
  rcases code_cases code with ⟨row, hrow, rfl⟩ | ⟨-, he⟩
  · exact ⟨row, hrow, rfl, Except.ok.inj ((selectOp_of_mem_operationTable row hrow).symm.trans h)⟩
  · cases he.symm.trans h

theorem mem_operations_of_selectOp {code : BitVec 4} {i : Instr} (h : selectOp code = .ok i) : i ∈ operations := by
  have hinstr : ∀ row ∈ operationTable, row.instr ∈ operations := by decide
  obtain ⟨row, hrow, -, rfl⟩ := exists_row_of_selectOp h
  exact hinstr row hrow

/-! ## One step -/

/-- Settles O4: the row's code selects the row's operation, and a step is the operation selected. -/
theorem stepRunsSelectedOperation : Obligations.StepRunsSelectedOperation := by
  intro row hrow s hop
  exact step_of_selected (hop ▸ selectOp_of_mem_operationTable row hrow)

/-- A step with nothing selected refuses under the name of the code (U9). -/
theorem stepWith_of_unassigned {lim : Config.Limits} {s : State} {e : DecodeReject} (h : selectOp s.op = .error e) :
    stepWith lim s = .refused (.unassignedOp s.op) := by
  rw [stepWith, h]

/-- Settles O5: one of the three codes refuses, and a code of the table runs an instruction, which always answers a
next state. -/
theorem stepRefusesExactlyUnassignedCodes : Obligations.StepRefusesExactlyUnassignedCodes := by
  have hunassigned : ∀ code : BitVec 4, code = 0x0 ∨ code = 0xE ∨ code = 0xF →
      selectOp code = .error (.unassignedOp code) := by decide
  refine ⟨fun s hop => stepWith_of_unassigned (hunassigned s.op hop), fun s r hr => ?_⟩
  rcases code_cases s.op with ⟨row, hrow, hop⟩ | ⟨hcode, -⟩
  · obtain ⟨t, ht⟩ := exec_next row.instr s
    rw [stepRunsSelectedOperation row hrow s hop.symm, ht] at hr
    cases hr
  · exact hcode

/-- Settles O11: a step is a next state or a refusal. -/
theorem noStepFaults : Obligations.NoStepFaults := by
  intro lim s f hf
  rcases stepWith_cases lim s with ⟨-, hr⟩ | ⟨i, -, hr⟩
  · cases hr.symm.trans hf
  · obtain ⟨t, -, ⟨-, -, hn⟩ | ⟨-, hn⟩⟩ := runOperation_cases lim i s
    · cases (hr.trans hn).symm.trans hf
    · cases (hr.trans hn).symm.trans hf

end Sys2Proof.Machine
end

section
/-! The rows of the control-field table against `CTL.DECODE` (R54, R120): the octets that `CTL.DECODE` reads a kind
from select that kind's row, and an unassigned modifier selects an unassigned row. -/

namespace Sys2Proof.Machine

/-! ## The row an octet selects -/

theorem decode_control_i8 {c0 : Byte} (h : c0 &&& 0b01#8 = 0b00#8) (rest : List Byte) :
    decode (.control .m8) (c0 :: rest) = .ok (rowOf .m8 (decodeI8 c0), rest) := by
  rw [information_fields, decode, decodeControl, controlRowOf_i .m8 h]
  rfl

theorem decode_control_i128 {c0 : Byte} (h : c0 &&& 0b01#8 = 0b00#8) (c1 : Byte) (rest : List Byte) :
    decode (.control .m128) (c0 :: c1 :: rest) =
      .ok (rowOf .m128 (decodeI128 (controlWord c0 c1)), rest) := by
  rw [decodeI128_controlWord, decode, decodeControl, controlRowOf_i .m128 h]
  rfl

theorem decode_control_s8 {c0 : Byte} (h : c0 &&& 0b11#8 = 0b01#8) (rest : List Byte) :
    decode (.control .m8) (c0 :: rest) = .ok (rowOf .m8 (decodeS8 c0), rest) := by
  obtain ⟨f, hf⟩ := supervisory_low_half c0 h
  obtain ⟨-, -, hkind, -⟩ := supervisory_fields f c0 hf
  rw [hkind, decode, decodeControl, controlRowOf_s .m8 f hf]
  match f with
  | 0 | 1 | 2 | 3 => rfl

theorem decode_control_s128 {c0 : Byte} (h : c0 &&& 0b11#8 = 0b01#8) (c1 : Byte) (rest : List Byte) :
    decode (.control .m128) (c0 :: c1 :: rest) =
      .ok (rowOf .m128 (decodeS128 (controlWord c0 c1)), rest) := by
  obtain ⟨f, hf⟩ := supervisory_low_half c0 h
  obtain ⟨-, -, -, hfunc⟩ := supervisory_fields f c0 hf
  rw [decodeS128_controlWord, hfunc, decode, decodeControl, controlRowOf_s .m128 f hf]
  match f with
  | 0 | 1 | 2 | 3 => rfl

theorem decode_control_encodeUFrame (mo : Modulo) (m : UModifier) (p : Bool) :
    decode (.control mo) (encodeUFrame m p) = .ok (rowOf mo (.u m p), []) := by
  cases mo <;> cases m <;> cases p <;> rfl

/-- A kind that `CTL.DECODE` reads is the kind of the row its octets select. -/
theorem ControlReads.decode_control {mo : Modulo} {b : List Byte} {k : FrameKind} {n : Nat}
    (h : ControlReads mo b k n) : decode (.control mo) b = .ok (rowOf mo k, b.drop n) := by
  cases h with
  | i8 h rest => exact decode_control_i8 h rest
  | i128 h c1 rest => exact decode_control_i128 h c1 rest
  | s8 h rest => exact decode_control_s8 h rest
  | s128 h c1 rest => exact decode_control_s128 h c1 rest
  | u mo h hm rest =>
    exact decode_control_append (encodeUFrame_of_decodeU h hm ▸ decode_control_encodeUFrame mo _ _) rest

/-- An unassigned modifier selects an unassigned row (R142). -/
theorem decode_control_unassigned (mo : Modulo) : ∀ c0 : Byte, c0 &&& 0b11#8 = 0b11#8 →
    decodeU c0 = .error .unknownModifier →
    ∃ i ∈ unassignedRows (c0.getLsbD 4), decode (.control mo) [c0] = .ok (i, []) := by
  cases mo <;> decide +kernel

/-- Where one octet of two is missing, no row is read (R187). -/
theorem decode_control_short : ∀ c0 : Byte, c0 &&& 0b11#8 ≠ 0b11#8 →
    decode (.control .m128) [c0] = .error .secondOctetMissing := by decide +kernel

/-- An instruction decoded from a control field is the row of the kind `CTL.DECODE` reads there, or an unassigned row
where `CTL.DECODE` finds no modifier. -/
theorem decode_control_cases {mo : Modulo} {b rest : List Byte} {i : Instr}
    (h : decode (.control mo) b = .ok (i, rest)) :
    (∃ k n, ControlReads mo b k n ∧ i = rowOf mo k) ∨
      ctlDecode mo b = .error .unknownModifier ∧ ∃ p, i ∈ unassignedRows p := by
  rcases ctlDecode_cases mo b with ⟨k, n, hr⟩ | rfl | ⟨c0, rfl, rfl, hc⟩ | ⟨c0, rest', rfl, hu, he⟩
  · have heq := hr.decode_control.symm.trans h
    simp only [Except.ok.injEq, Prod.mk.injEq] at heq
    exact .inl ⟨k, n, hr, heq.1.symm⟩
  · cases h
  · cases (decode_control_short c0 hc).symm.trans h
  · obtain ⟨j, hj, hd⟩ := decode_control_unassigned mo c0 hu he
    have heq := (decode_control_append hd rest').symm.trans h
    simp only [Except.ok.injEq, Prod.mk.injEq] at heq
    exact .inr ⟨by rw [ctlDecode_u hu, he]; rfl, _, heq.1 ▸ hj⟩

/-! ## Running a row -/

/-- The octets of a kind's control field (R62). -/
def controlOctets : Modulo → FrameKind → Nat
  | _, .u _ _ => 1
  | .m8, _ => 1
  | .m128, _ => 2

theorem ControlReads.octets_eq {mo : Modulo} {b : List Byte} {k : FrameKind} {n : Nat} (h : ControlReads mo b k n) :
    n = controlOctets mo k := by
  cases h with
  | i8 | i128 | s8 | s128 => rfl
  | u => cases mo <;> rfl

/-- A frame-type row delivers its kind and the octets of its control field (R123 to R141). -/
theorem exec_rowOf (mo : Modulo) (k : FrameKind) (s : State) :
    exec (rowOf mo k) s = .next (deliverConsumed (.kind k) (controlOctets mo k) s) := by
  rcases k with ⟨ns, nr, p⟩ | ⟨fn, nr, p⟩ | ⟨m, p⟩
  · cases mo <;> rfl
  · cases mo <;> cases fn <;> rfl
  · cases mo <;> cases m <;> rfl

/-- An unassigned row ends in `UnknownModifier` (R142). -/
theorem exec_unassigned {p : Bool} {i : Instr} (hi : i ∈ unassignedRows p) (s : State) :
    exec i s = .next (raise .unknownModifier s) := by
  unfold unassignedRows at hi
  fin_cases hi <;> rfl

/-- Settles O6: the row decoded is the row of the kind `CTL.DECODE` delivers, or an unassigned row. -/
theorem stepRunsTheControlRow : Obligations.StepRunsTheControlRow := by
  intro s i rest hop hdecode
  rw [stepRunsSelectedOperation ⟨0x9, .ctlDecode, [.ibuf, .mod]⟩ (by decide) s hop]
  rw [exec_ctlDecode]
  rcases decode_control_cases hdecode with ⟨k, n, hr, rfl⟩ | ⟨he, p, hp⟩
  · rw [finish_of_ok hr.ctlDecode_eq, exec_rowOf, ← hr.octets_eq]
  · rw [he, finish_error, exec_unassigned hp]

/-- Settles O58: `controlOctets` is the statement's `CONSUMED`. -/
theorem frameTypeRowsDeliverTheirKind : Obligations.FrameTypeRowsDeliverTheirKind := by
  intro mo k s
  rw [exec_rowOf]
  cases mo <;> cases k <;> rfl

/-- Settles O59: an unassigned row raises the one error. -/
theorem unassignedRowsEndInUnknownModifier : Obligations.UnassignedRowsEndInUnknownModifier :=
  fun _ _ hi s => ⟨_, exec_unassigned hi s, rfl⟩

/-- Settles O60: the two rows deliver their fields as they are. -/
theorem addressOctetRowsDeliverTheirFields : Obligations.AddressOctetRowsDeliverTheirFields :=
  fun _ => ⟨fun _ => rfl, fun _ _ _ => rfl⟩

/-- Settles O56: a count over the 256 octets under each modulo. -/
theorem everyControlOctetMatchesOneRow : Obligations.EveryControlOctetMatchesOneRow := by
  intro mo
  cases mo <;> decide +kernel

end Sys2Proof.Machine
end

section
/-! The decoder and the encoder of the opcode table agree (R51 to R64): an encoded instruction decodes to itself in
every place its word stands, and what is decoded is well formed and belongs where it was read. The control-field rows
go through `CTL.DECODE`'s reading of them; the unassigned rows, which it does not read, are computed. -/

namespace Sys2Proof.Machine

/-! ## Rows by the places they stand in -/

theorem wellFormed_rowOf (mo : Modulo) (k : FrameKind) : (rowOf mo k).wellFormed = k.inRange mo := by
  rcases k with ⟨ns, nr, p⟩ | ⟨fn, nr, p⟩ | ⟨m, p⟩
  · cases mo <;> rfl
  · cases mo <;> cases fn <;> rfl
  · cases mo <;> cases m <;> rfl

theorem control_mem_spaces_rowOf (mo : Modulo) (k : FrameKind) : .control mo ∈ (rowOf mo k).spaces := by
  rcases k with ⟨ns, nr, p⟩ | ⟨fn, nr, p⟩ | ⟨m, p⟩
  · cases mo <;> simp [rowOf, Instr.spaces]
  · cases mo <;> cases fn <;> simp [rowOf, Instr.spaces]
  · cases mo <;> cases m <;> simp [rowOf, Instr.spaces]

theorem wellFormed_of_mem_operations : ∀ i ∈ operations, i.wellFormed = true := by decide

theorem wellFormed_of_mem_unassignedRows {p : Bool} : ∀ i ∈ unassignedRows p, i.wellFormed = true := by
  cases p <;> decide

/-! ## Decoding what was encoded -/

/-- Every instruction is an operation, an address octet, a frame-type row or an unassigned row. -/
theorem instr_cases (i : Instr) :
    i ∈ operations ∨ (∃ code, i = .addrChar code) ∨ (∃ f ssid e, i = .addrSsid f ssid e) ∨
      (∃ mo k, i = rowOf mo k) ∨ ∃ p, i ∈ unassignedRows p := by
  cases i
  case csCreate | csDecode | csEncode | afDecode | afEncode | acDecode | acEncode | acDerive | ctlDecode
      | ctlEncode | plCheck | frameDecode | frameEncode => exact .inl (by decide)
  case addrChar code => exact .inr (.inl ⟨code, rfl⟩)
  case addrSsid f ssid e => exact .inr (.inr (.inl ⟨f, ssid, e, rfl⟩))
  case iM8 ns nr p => exact .inr (.inr (.inr (.inl ⟨.m8, .i ns nr p, rfl⟩)))
  case iM128 ns nr p => exact .inr (.inr (.inr (.inl ⟨.m128, .i ns nr p, rfl⟩)))
  case rrM8 nr p => exact .inr (.inr (.inr (.inl ⟨.m8, .s .rr nr p, rfl⟩)))
  case rnrM8 nr p => exact .inr (.inr (.inr (.inl ⟨.m8, .s .rnr nr p, rfl⟩)))
  case rejM8 nr p => exact .inr (.inr (.inr (.inl ⟨.m8, .s .rej nr p, rfl⟩)))
  case srejM8 nr p => exact .inr (.inr (.inr (.inl ⟨.m8, .s .srej nr p, rfl⟩)))
  case rrM128 nr p => exact .inr (.inr (.inr (.inl ⟨.m128, .s .rr nr p, rfl⟩)))
  case rnrM128 nr p => exact .inr (.inr (.inr (.inl ⟨.m128, .s .rnr nr p, rfl⟩)))
  case rejM128 nr p => exact .inr (.inr (.inr (.inl ⟨.m128, .s .rej nr p, rfl⟩)))
  case srejM128 nr p => exact .inr (.inr (.inr (.inl ⟨.m128, .s .srej nr p, rfl⟩)))
  case sabm p => exact .inr (.inr (.inr (.inl ⟨.m8, .u .sabm p, rfl⟩)))
  case sabme p => exact .inr (.inr (.inr (.inl ⟨.m8, .u .sabme p, rfl⟩)))
  case disc p => exact .inr (.inr (.inr (.inl ⟨.m8, .u .disc p, rfl⟩)))
  case dm p => exact .inr (.inr (.inr (.inl ⟨.m8, .u .dm p, rfl⟩)))
  case ua p => exact .inr (.inr (.inr (.inl ⟨.m8, .u .ua p, rfl⟩)))
  case frmr p => exact .inr (.inr (.inr (.inl ⟨.m8, .u .frmr p, rfl⟩)))
  case ui p => exact .inr (.inr (.inr (.inl ⟨.m8, .u .ui p, rfl⟩)))
  case xid p => exact .inr (.inr (.inr (.inl ⟨.m8, .u .xid p, rfl⟩)))
  case test p => exact .inr (.inr (.inr (.inl ⟨.m8, .u .test p, rfl⟩)))
  -- The unassigned patterns.
  all_goals
    rename_i p
    exact .inr (.inr (.inr (.inr ⟨p, by simp [unassignedRows]⟩)))

theorem spaces_of_mem_operations : ∀ i ∈ operations, i.spaces = [.op] := by decide

/-- A frame-type row stands where it is the row of its kind: a U row under either modulo (R144). -/
theorem exists_rowOf_of_mem_spaces {mo : Modulo} {k : FrameKind} {sp : Space} (h : sp ∈ (rowOf mo k).spaces) :
    ∃ mo', sp = .control mo' ∧ rowOf mo k = rowOf mo' k := by
  rcases k with ⟨ns, nr, p⟩ | ⟨fn, nr, p⟩ | ⟨m, p⟩
  · exact ⟨mo, by cases mo <;> simpa [rowOf, Instr.spaces] using h, rfl⟩
  · exact ⟨mo, by cases mo <;> cases fn <;> simpa [rowOf, Instr.spaces] using h, rfl⟩
  · have hsp : sp = .control .m8 ∨ sp = .control .m128 := by
      cases m <;> simpa [rowOf, Instr.spaces] using h
    rcases hsp with rfl | rfl
    · exact ⟨.m8, rfl, rfl⟩
    · exact ⟨.m128, rfl, rfl⟩

theorem spaces_of_mem_unassignedRows {p : Bool} :
    ∀ i ∈ unassignedRows p, i.spaces = [.control .m8, .control .m128] := by
  cases p <;> decide

/-! ## Decoding what was encoded -/

theorem decode_encode_operation {i : Instr} (hi : i ∈ operations) (rest : List Byte) :
    decode .op (encode i ++ rest) = .ok (i, rest) := by
  unfold operations at hi
  fin_cases hi <;> rfl

theorem octetField_char : ∀ code : Fin 128, octetField (BitVec.ofNat 8 (code.val * 2)) 1 7 = code.val := by
  decide +kernel

theorem decode_encode_addrChar {code : Nat} (h : code ≤ 127) (rest : List Byte) :
    decode .addrChar (encode (.addrChar code) ++ rest) = .ok (.addrChar code, rest) := by
  rw [encode, List.singleton_append, decode, octetField_char ⟨code, Nat.lt_succ_of_le h⟩]

theorem ssidOctet_octetFields : ∀ (f : Bool) (ssid : Fin 16) (e : Bool),
    let b := BitVec.ofNat 8 (boolNat f * 128 + ssid.val * 2 + boolNat e)
    b.getLsbD 7 = f ∧ octetField b 1 4 = ssid.val ∧ b.getLsbD 0 = e := by decide +kernel

theorem decode_encode_addrSsid (f e : Bool) {ssid : Nat} (h : ssid ≤ 15) (rest : List Byte) :
    decode .addrSsid (encode (.addrSsid f ssid e) ++ rest) = .ok (.addrSsid f ssid e, rest) := by
  obtain ⟨hf, hssid, he⟩ := ssidOctet_octetFields f ⟨ssid, Nat.lt_succ_of_le h⟩ e
  rw [encode, List.singleton_append, decode, hf, hssid, he]

/-- The row of a kind in range. -/
theorem decode_encode_rowOf {mo : Modulo} {k : FrameKind} (hk : k.inRange mo = true) (rest : List Byte) :
    decode (.control mo) (encode (rowOf mo k) ++ rest) = .ok (rowOf mo k, rest) := by
  rw [(ctlDecode_ok_iff.mp (ctlDecode_encode_rowOf hk rest)).decode_control, List.drop_left]

theorem decode_encode_unassigned {p : Bool} {i : Instr} (hi : i ∈ unassignedRows p) (mo : Modulo)
    (rest : List Byte) : decode (.control mo) (encode i ++ rest) = .ok (i, rest) := by
  have hoctet : ∀ i ∈ unassignedRows p, encode i = [(encode i).headD 0] ∧
      decode (.control mo) [(encode i).headD 0] = .ok (i, []) := by
    cases mo <;> cases p <;> decide +kernel
  obtain ⟨henc, hd⟩ := hoctet i hi
  rw [henc, List.singleton_append]
  exact decode_control_append hd rest

/-- Settles O54: by the kind of instruction, each in the places where it stands. -/
theorem decodeOfEncodeIsTheInstruction : Obligations.DecodeOfEncodeIsTheInstruction := by
  intro i hwf sp hsp rest
  rcases instr_cases i with hi | ⟨code, rfl⟩ | ⟨f, ssid, e, rfl⟩ | ⟨mo, k, rfl⟩ | ⟨p, hi⟩
  · obtain rfl : sp = .op := by simpa [spaces_of_mem_operations i hi] using hsp
    exact decode_encode_operation hi rest
  · obtain rfl : sp = .addrChar := by simpa [Instr.spaces] using hsp
    exact decode_encode_addrChar (wellFormed_addrChar.mp hwf) rest
  · obtain rfl : sp = .addrSsid := by simpa [Instr.spaces] using hsp
    exact decode_encode_addrSsid f e (wellFormed_addrSsid.mp hwf) rest
  · obtain ⟨mo', rfl, hrow⟩ := exists_rowOf_of_mem_spaces hsp
    rw [hrow, wellFormed_rowOf] at hwf
    rw [hrow]
    exact decode_encode_rowOf hwf rest
  · have hsp' : sp = .control .m8 ∨ sp = .control .m128 := by
      simpa [spaces_of_mem_unassignedRows i hi] using hsp
    rcases hsp' with rfl | rfl
    · exact decode_encode_unassigned hi .m8 rest
    · exact decode_encode_unassigned hi .m128 rest

/-! ## What is decoded -/

/-- What stands in the `OP` register is an operation. -/
theorem decode_op_mem_operations {bs rest : List Byte} {i : Instr} (h : decode .op bs = .ok (i, rest)) :
    i ∈ operations := by
  cases bs with
  | nil => cases h
  | cons b bs =>
    rw [decode] at h
    split_ifs at h
    cases hsel : selectOp (b.setWidth 4) with
    | error e => simp [hsel] at h
    | ok j =>
      obtain ⟨rfl, -⟩ : j = i ∧ bs = rest := by simpa [hsel] using h
      exact mem_operations_of_selectOp hsel

theorem octetField_le (b : Byte) (lo n : Nat) : octetField b lo n ≤ 2 ^ n - 1 :=
  Nat.le_sub_one_of_lt (b.extractLsb' lo n).isLt

/-- Settles O55: by the place read from; a field of `n` bits is below `2 ^ n`. -/
theorem decodedInstructionsAreWellFormed : Obligations.DecodedInstructionsAreWellFormed := by
  intro sp bs rest i h
  cases sp with
  | op =>
    have hi := decode_op_mem_operations h
    exact ⟨wellFormed_of_mem_operations i hi, by simp [spaces_of_mem_operations i hi]⟩
  | control mo =>
    rcases decode_control_cases h with ⟨k, n, hr, rfl⟩ | ⟨-, p, hp⟩
    · exact ⟨(wellFormed_rowOf mo k).trans hr.inRange, control_mem_spaces_rowOf mo k⟩
    · refine ⟨wellFormed_of_mem_unassignedRows i hp, ?_⟩
      rw [spaces_of_mem_unassignedRows i hp]
      cases mo <;> decide
  | addrChar =>
    cases bs with
    | nil => cases h
    | cons b bs =>
      cases h
      exact ⟨wellFormed_addrChar.mpr (octetField_le b 1 7), List.mem_singleton.mpr rfl⟩
  | addrSsid =>
    cases bs with
    | nil => cases h
    | cons b bs =>
      cases h
      exact ⟨wellFormed_addrSsid.mpr (octetField_le b 1 4), List.mem_singleton.mpr rfl⟩

/-- Settles O57: each word is fixed, and the decoder computes. -/
theorem writtenWordsDecode : Obligations.WrittenWordsDecode := by
  exact ⟨rfl, rfl, rfl, rfl, rfl, rfl, rfl, rfl, rfl, rfl, rfl, rfl, rfl, rfl, rfl, rfl, rfl, rfl, rfl, rfl,
    rfl, rfl⟩

end Sys2Proof.Machine
end

section
/-! Reset and the host's port (R20, R44, R210, R212): every write of the host keeps the invariant and reads back, and
the record of what is written follows it. -/

namespace Sys2Proof.Machine

/-! ## Reset -/

/-- Settles O1: the values of the reset state. -/
theorem resetLeavesStatusIdle : Obligations.ResetLeavesStatusIdle :=
  ⟨rfl, rfl, fun o => by cases o <;> rfl⟩

/-- Settles O2: the reset state's buffers list nothing. -/
theorem resetMeetsInvariant : Obligations.ResetMeetsInvariant :=
  ⟨Memory.wf_nil, Memory.wf_nil, by decide⟩

/-! ## The codes of `STATUS` (R180) -/

/-- The values of `STATUS`. -/
def statuses : List Status :=
  .ok :: .idle :: [Err.ssidOutOfRange, .callSignTooLong, .invalidCharacters, .wrongFieldLength,
    .truncatedAddressChain, .addressChainTooShort, .shortControlField, .unknownFunction, .unknownModifier,
    .missingProtocolId, .invalidFrmrLength, .unexpectedTrailingData, .frameTooShort,
    .sequenceNumberOutOfRange].map .error

theorem mem_statuses (x : Status) : x ∈ statuses := by
  rcases x with _ | _ | e
  · decide
  · decide
  · cases e <;> decide

/-- Settles O3: the codes are fixed, and no two of the sixteen values share one. -/
theorem statusCodesAreTheTable : Obligations.StatusCodesAreTheTable := by
  have hinj : ∀ x ∈ statuses, ∀ y ∈ statuses, Status.code x = Status.code y → x = y := by decide
  exact ⟨rfl, rfl, rfl, fun x y => hinj x (mem_statuses x) y (mem_statuses y)⟩

/-! ## The host's writes -/

/-- What the host writes to the input buffer is canonical. -/
theorem stateInv_hostWriteInput {s : State} (hs : StateInv s) (b : List Byte) : StateInv (hostWriteInput b s) := by
  obtain ⟨-, hobuf, hstatus⟩ := hs
  exact ⟨Memory.wf_writeOctets b 0 Memory.wf_nil, hobuf, hstatus⟩

theorem stateInv_hostReset (s : State) : StateInv (hostReset s) :=
  ⟨Memory.wf_writeOctets _ 0 Memory.wf_nil, Memory.wf_writeOctets _ 0 Memory.wf_nil, by simp⟩

/-- R16's operands column is the model's. -/
theorem operandsOf_of_mem_operationTable : ∀ row ∈ operationTable, operandsOf row.instr = row.operands := by decide

/-- A step that goes on leaves the host's duty for an operation as it is. -/
theorem operandsWritten_step {i : Instr} {s t : State} (h : step s = .next t) :
    operandsWritten i t = operandsWritten i s := by
  obtain ⟨j, -, ht⟩ := stepWith_next h
  exact operandsWritten_exec ht

/-- Settles O8: writes other than of the input change no buffer and no `STATUS`; writes to different registers
commute because they are updates of different fields. -/
theorem hostActionsKeepInvariant : Obligations.HostActionsKeepInvariant := by
  refine ⟨fun s hs => ⟨fun _ => ⟨hs, rfl, rfl⟩, fun _ => ⟨hs, rfl, rfl⟩, fun b => ?_, fun _ => ⟨hs, rfl, rfl⟩,
    fun _ => ⟨hs, rfl, rfl⟩, fun _ => ⟨hs, rfl, rfl⟩, fun _ => ⟨hs, rfl, rfl⟩, fun _ => ⟨hs, rfl, rfl⟩,
    fun r => ⟨hs, rfl, fun o => ?_⟩, stateInv_hostReset s, rfl, fun o => ?_⟩,
    fun _ _ _ _ _ => ⟨rfl, rfl, rfl, rfl, rfl, rfl⟩, fun row hrow s => ⟨?_, rfl, rfl, fun t => ?_⟩⟩
  · exact ⟨stateInv_hostWriteInput hs b, inputOctets_hostWriteInput b s, rfl⟩
  · cases o <;> simp [Written.has, Written.everything]
  · cases o <;> rfl
  · rw [operandsWritten_iff, operandsOf_of_mem_operationTable row hrow]
  · exact operandsWritten_step

end Sys2Proof.Machine
end

section
/-! Implementations with finite parameters (D4, D5, U11). An operand can be presented exactly where it is within every
parameter, and a result can be held exactly where it is, so a step refuses exactly beyond one. -/

namespace Sys2Proof.Machine

/-! ## Within a parameter -/

theorem withinBound_iff {bound : Option Nat} {n : Nat} : withinBound bound n = true ↔ ¬ exceeds bound n := by
  cases bound <;> simp [withinBound]

theorem fitsBits_iff {bits : Option Nat} {n : Nat} : fitsBits bits n = true ↔ ¬ overflows bits n := by
  cases bits <;> simp [fitsBits]

theorem stationFits_iff {lim : Config.Limits} {v : Station} :
    stationFits lim v = true ↔ ¬ (exceeds lim.callBound v.callSign.length ∨ overflows lim.ssidWidth v.ssid) := by
  rw [stationFits, Bool.and_eq_true, withinBound_iff, fitsBits_iff, not_or]

theorem chainFits_iff {lim : Config.Limits} {c : AddressChain} :
    chainFits lim c = true ↔ ¬ exceeds lim.maxAddrEntries c.entries.length ∧
      ∀ f ∈ c.entries,
        ¬ (exceeds lim.callBound f.station.callSign.length ∨ overflows lim.ssidWidth f.station.ssid) := by
  simp only [chainFits, Bool.and_eq_true, withinBound_iff, List.all_eq_true, stationFits_iff]

theorem kindFits_iff {lim : Config.Limits} {k : FrameKind} :
    kindFits lim k = true ↔ ∀ n ∈ sequenceNumbers k, ¬ overflows lim.seqWidth n := by
  cases k with
  | i ns nr p => simp [kindFits, fitsBits_iff, sequenceNumbers]
  | s fn nr p => simp [kindFits, fitsBits_iff, sequenceNumbers]
  | u m p => simp [kindFits, sequenceNumbers]

/-! ## Operands and results -/

/-- The operands of an operation can be presented exactly where none is beyond a parameter. -/
theorem presentable_iff {lim : Config.Limits} {i : Instr} {s : State} (hi : i ∈ operations) :
    presentable lim i s = true ↔ ¬ operandBeyond lim i s := by
  cases i
  case csCreate | csEncode | afEncode =>
    simp [presentable, operandBeyond, stationFits_iff, inputReaders, chainReaders, stationReaders]
  case csDecode | afDecode | acDecode | ctlDecode | frameDecode | plCheck =>
    simp [presentable, operandBeyond, withinBound_iff, inputReaders, chainReaders, stationReaders]
  case acEncode | acDerive =>
    simp [presentable, operandBeyond, chainFits_iff, inputReaders, chainReaders, stationReaders]
  case ctlEncode =>
    simp [presentable, operandBeyond, kindFits_iff, inputReaders, chainReaders, stationReaders]
  case frameEncode =>
    simp [presentable, operandBeyond, chainFits_iff, kindFits_iff, withinBound_iff, inputReaders, chainReaders,
      stationReaders]
    -- The same conditions in another order.
    tauto
  -- The rows that are no operation.
  all_goals simp [operations] at hi

/-- Only a successful result is held to the bounds (notes entry 11). -/
theorem resultFits_of_status_ne_ok (lim : Config.Limits) (i : Instr) {t : State} (h : t.status ≠ .ok) :
    resultFits lim i t = true := by
  cases hs : t.status with
  | ok => exact absurd hs h
  | idle => simp [resultFits, hs]
  | error e => simp [resultFits, hs]

/-- The result of an operation can be held exactly where it is not beyond a parameter. -/
theorem resultFits_iff {lim : Config.Limits} {i : Instr} {s t : State} (hi : i ∈ operations)
    (ht : exec i s = .next t) : resultFits lim i t = true ↔ ¬ resultBeyond lim i t := by
  by_cases hok : t.status = .ok
  · cases i
    case csEncode | afEncode | acEncode | ctlEncode | plCheck | frameEncode =>
      simp [resultFits, resultBeyond, hok, withinBound_iff, bufferWriters]
    case acDecode =>
      obtain ⟨⟨c, n⟩, -, rfl⟩ := finish_status_ok (exec_acDecode s ▸ ht) hok
      simp [resultFits, resultBeyond, withinBound_iff, bufferWriters, recordEntries]
    case frameDecode =>
      obtain ⟨f, -, rfl⟩ := finish_status_ok (exec_frameDecode s ▸ ht) hok
      simp [resultFits, resultBeyond, withinBound_iff, bufferWriters, recordEntries]
    case csCreate | csDecode | afDecode | acDerive | ctlDecode =>
      simp [resultFits, resultBeyond, hok, bufferWriters]
    -- The rows that are no operation.
    all_goals simp [operations] at hi
  · simp [resultFits_of_status_ne_ok lim i hok, resultBeyond, hok]

/-! ## A step under finite parameters -/

/-- The step of a selected operation refuses exactly beyond a parameter. -/
theorem stepWith_selected {lim : Config.Limits} {i : Instr} {s t : State} (hsel : selectOp s.op = .ok i)
    (ht : exec i s = .next t) :
    (operandBeyond lim i s ∨ resultBeyond lim i t → stepWith lim s = .refused .notPresentable) ∧
      (¬ (operandBeyond lim i s ∨ resultBeyond lim i t) → stepWith lim s = .next t) := by
  have hi := mem_operations_of_selectOp hsel
  have hiff : operandBeyond lim i s ∨ resultBeyond lim i t ↔
      presentable lim i s = false ∨ resultFits lim i t = false := by
    rw [← Bool.not_eq_true, ← Bool.not_eq_true, presentable_iff hi, resultFits_iff hi ht, not_not, not_not]
  rw [hiff, stepWith_of_selected hsel]
  obtain ⟨u, hu, ⟨hop, hres, hn⟩ | ⟨hbad, hn⟩⟩ := runOperation_cases lim i s
  all_goals obtain rfl : u = t := Host.Outcome.next.inj (hu.symm.trans ht)
  · exact ⟨fun h => by simp [hop, hres] at h, fun _ => hn⟩
  · exact ⟨fun _ => hn, fun h => absurd hbad h⟩

/-- An operation runs where its operands can be presented and its result can be held. -/
theorem stepWith_eq_exec {lim : Config.Limits} {i : Instr} {s t : State} (hsel : selectOp s.op = .ok i)
    (ht : exec i s = .next t) (hop : presentable lim i s = true) (hres : resultFits lim i t = true) :
    stepWith lim s = .next t := by
  rw [stepWith_of_selected hsel, runOperation, if_pos hop, ht, boundResult, if_pos hres]

theorem step_ne_notPresentable (s : State) : step s ≠ .refused .notPresentable := by
  intro h
  rcases code_cases s.op with ⟨row, hrow, hop⟩ | ⟨-, he⟩
  · obtain ⟨t, ht⟩ := exec_next row.instr s
    rw [stepRunsSelectedOperation row hrow s hop.symm, ht] at h
    cases h
  · cases (stepWith_of_unassigned he).symm.trans h

/-- Settles O9: both directions by `presentable_iff` and `resultFits_iff`; the least widths are inside every
parameter's type. -/
theorem boundedImplementationsRefuseWhatTheyCannotHold :
    Obligations.BoundedImplementationsRefuseWhatTheyCannotHold := by
  refine ⟨fun _ _ _ _ => stepWith_selected, step_ne_notPresentable, fun lim s hop hcall hssid => ?_,
    fun lim s t hop hseq ht hne => ?_⟩
  · obtain ⟨t, ht⟩ := exec_next .csCreate s
    have hsel : selectOp s.op = .ok .csCreate := by rw [hop]; rfl
    have hfits : presentable lim .csCreate s = true := stationFits_least hcall (by omega)
    have hres : resultFits lim .csCreate t = true := by cases h : t.status <;> simp [resultFits, h]
    rw [stepWith_eq_exec hsel ht hfits hres, ht]
  · have hsel : selectOp s.op = .ok .ctlEncode := by rw [hop]; rfl
    have hfits : presentable lim .ctlEncode s = true := kindFits_least fun n hn => by have := hseq n hn; omega
    exact stepWith_eq_exec hsel ht hfits (resultFits_of_status_ne_ok lim _ hne)

end Sys2Proof.Machine
end

section
/-! What an instruction leaves unchanged (R11, R15, R30, R195). Each way an instruction ends writes `STATUS` and its
own result registers alone, so a frame needs to know only which way the instruction ends. -/

namespace Sys2Proof.Machine

/-! ## `STATUS` (R15) -/

theorem exec_status {i : Instr} {s t : State} (ht : exec i s = .next t) :
    t.status = .ok ∨ ∃ e, t.status = .error e := by
  rcases exec_cases ht with ⟨r, rfl⟩ | ⟨r, n, rfl⟩ | ⟨v, rfl⟩ | ⟨e, rfl⟩
  · exact .inl rfl
  · exact .inl rfl
  · exact .inl rfl
  · exact .inr ⟨e, rfl⟩

/-- Every ending overwrites `STATUS` and no codec is applied to it, so the two runs are the same term. -/
theorem exec_ignores_status (i : Instr) (s : State) (st : Status) : exec i { s with status := st } = exec i s := by
  cases i <;> rfl

/-- Settles O10: an instruction answers a next state, which `exec_status` describes. -/
theorem statusIsWrittenByAllAndReadByNone : Obligations.StatusIsWrittenByAllAndReadByNone := by
  intro i s
  obtain ⟨t, ht⟩ := exec_next i s
  exact ⟨⟨t, ht, exec_status ht⟩, exec_ignores_status i s⟩

/-! ## The operands (R30, R195) -/

/-- Settles O12: none of the four endings touches an operand. -/
theorem noInstructionWritesAnOperand : Obligations.NoInstructionWritesAnOperand := by
  intro i s t ht
  rcases exec_cases ht with ⟨r, rfl⟩ | ⟨r, n, rfl⟩ | ⟨v, rfl⟩ | ⟨e, rfl⟩
  all_goals exact ⟨rfl, rfl, rfl, rfl, rfl, fun _ => rfl⟩

/-! ## The results (R11) -/

theorem finish_deliverRecord_ok {α : Type} {r : Except Err α} {record : α → ORec} {s t : State}
    (h : finish r (fun x => deliverRecord (record x)) s = .next t) (hok : t.status = .ok) :
    ∃ r, t = deliverRecord r s := by
  obtain ⟨x, -, rfl⟩ := finish_status_ok h hok
  exact ⟨record x, rfl⟩

/-- An instruction that delivers a record alone ends so where it succeeds. -/
theorem exec_record_ok {code ssid : Nat} {f e : Bool} {i : Instr} {s t : State}
    (hi : i ∈ [Instr.csCreate, .csDecode, .afDecode, .acDerive, .frameDecode, .addrChar code, .addrSsid f ssid e])
    (ht : exec i s = .next t) (hok : t.status = .ok) : ∃ r, t = deliverRecord r s := by
  simp only [List.mem_cons, List.not_mem_nil, or_false] at hi
  rcases hi with rfl | rfl | rfl | rfl | rfl | rfl | rfl
  · exact finish_deliverRecord_ok (exec_csCreate s ▸ ht) hok
  · exact finish_deliverRecord_ok (exec_csDecode s ▸ ht) hok
  · exact finish_deliverRecord_ok (exec_afDecode s ▸ ht) hok
  · exact ⟨_, (Host.Outcome.next.inj (exec_acDerive s ▸ ht)).symm⟩
  · exact finish_deliverRecord_ok (exec_frameDecode s ▸ ht) hok
  · exact ⟨_, (Host.Outcome.next.inj ht).symm⟩
  · exact ⟨_, (Host.Outcome.next.inj ht).symm⟩

/-- Settles O13: delivering a record writes `STATUS` and `OREC` alone. -/
theorem recordResultsLeaveTheRest : Obligations.RecordResultsLeaveTheRest := by
  intro code ssid f e i s t hi ht hok
  obtain ⟨r, rfl⟩ := exec_record_ok hi ht hok
  exact ⟨rfl, rfl, rfl, fun _ => rfl⟩

/-- An instruction that delivers a record and `CONSUMED` ends so where it succeeds. -/
theorem exec_consumed_ok {i : Instr} {s t : State} (hi : i = .acDecode ∨ i = .ctlDecode ∨ ∃ mo k, i = rowOf mo k)
    (ht : exec i s = .next t) (hok : t.status = .ok) : ∃ r n, t = deliverConsumed r n s := by
  rcases hi with rfl | rfl | ⟨mo, k, rfl⟩
  · obtain ⟨v, -, rfl⟩ := finish_status_ok (exec_acDecode s ▸ ht) hok
    exact ⟨_, _, rfl⟩
  · obtain ⟨v, -, rfl⟩ := finish_status_ok (exec_ctlDecode s ▸ ht) hok
    exact ⟨_, _, rfl⟩
  · exact ⟨_, _, (Host.Outcome.next.inj (exec_rowOf mo k s ▸ ht)).symm⟩

/-- Settles O14: delivering a record and `CONSUMED` writes nothing else but `STATUS`. -/
theorem consumedResultsLeaveTheRest : Obligations.ConsumedResultsLeaveTheRest := by
  intro i s t hi ht hok
  obtain ⟨r, n, rfl⟩ := exec_consumed_ok hi ht hok
  exact ⟨rfl, rfl, fun _ => rfl⟩

/-- An operation that writes the output buffer delivers octets where it succeeds. -/
theorem exec_octets_ok {i : Instr} {s t : State} (hi : i ∈ bufferWriters) (ht : exec i s = .next t)
    (hok : t.status = .ok) : ∃ v, t = deliverOctets v s := by
  have hfinish : ∃ r : Except Err (List Byte), exec i s = finish r deliverOctets s := by
    simp only [bufferWriters, List.mem_cons, List.not_mem_nil, or_false] at hi
    rcases hi with rfl | rfl | rfl | rfl | rfl | rfl
    · exact ⟨_, exec_csEncode s⟩
    · exact ⟨_, exec_afEncode s⟩
    · exact ⟨_, exec_acEncode s⟩
    · exact ⟨_, exec_ctlEncode s⟩
    · exact ⟨_, exec_plCheck s⟩
    · exact ⟨_, exec_frameEncode s⟩
  obtain ⟨r, hr⟩ := hfinish
  obtain ⟨v, -, rfl⟩ := finish_status_ok (hr ▸ ht) hok
  exact ⟨v, rfl⟩

/-- Settles O15: delivering octets stores them from offset 0, which leaves what is at and beyond the new `OLEN`. -/
theorem octetResultsLeaveTheRest : Obligations.OctetResultsLeaveTheRest := by
  intro i s t hi ht hok
  obtain ⟨v, rfl⟩ := exec_octets_ok hi ht hok
  refine ⟨rfl, rfl, rfl, fun a ha => ?_⟩
  rw [deliverOctets_olen] at ha
  rw [deliverOctets_obuf, Memory.read_writeOctets_outside v s.obuf 0 a (.inr (by omega))]

end Sys2Proof.Machine
end

section
/-! Operands an operation does not read (R11, R17, D16). States that differ in such an operand agree on the operands
that are read, so the operation ends alike from them (`exec_endsAlike`), and no ending touches the operand. -/

namespace Sys2Proof.Machine

theorem sameOperands_of_mod {i : Instr} (hi : i ∉ modReaders) (s : State) (mo : Modulo) :
    sameOperands i s { s with mod := mo } :=
  ⟨fun h => absurd h hi, fun _ => rfl, fun _ => rfl, fun _ => ⟨rfl, rfl⟩, fun _ => sameChain_refl _, fun _ => rfl,
    fun _ => rfl⟩

theorem sameOperands_of_input {i : Instr} (hi : i ∉ inputReaders) (s : State) (m : Memory) (n : Nat) :
    sameOperands i s { s with ibuf := m, ilen := n } :=
  ⟨fun _ => rfl, fun h => absurd h hi, fun _ => rfl, fun _ => ⟨rfl, rfl⟩, fun _ => sameChain_refl _, fun _ => rfl,
    fun _ => rfl⟩

/-- An operation that does not read the input record reads none of its homes. -/
theorem sameOperands_of_record {i : Instr} (hi : i ∉ recordReaders) (s : State) (r : IRec) :
    sameOperands i s { s with irec := r } := by
  have hstation : stationReaders ⊆ recordReaders := by decide
  have hchain : chainReaders ⊆ recordReaders := by decide
  have hkind : kindReaders ⊆ recordReaders := by decide
  refine ⟨fun _ => rfl, fun _ => rfl, fun h => absurd (hstation h) hi, ?_, fun h => absurd (hchain h) hi,
    fun h => absurd (hkind h) hi, ?_⟩
  · rintro rfl
    exact absurd (by decide) hi
  · rintro rfl
    exact absurd (by decide) hi

/-- Settles O19: the two runs end alike, and each ending leaves the operand at the value it had. -/
theorem unreadOperandsAreIgnored : Obligations.UnreadOperandsAreIgnored := by
  intro i hi s t ht
  refine ⟨fun hread mo => ?_, fun hread m n => ?_, fun hread r => ?_⟩
  · obtain ⟨v, hv⟩ := exec_next i { s with mod := mo }
    rw [hv]
    cases exec_endsAlike hi (sameOperands_of_mod hread s mo) ht hv <;> rfl
  · obtain ⟨v, hv⟩ := exec_next i { s with ibuf := m, ilen := n }
    rw [hv]
    cases exec_endsAlike hi (sameOperands_of_input hread s m n) ht hv <;> rfl
  · obtain ⟨v, hv⟩ := exec_next i { s with irec := r }
    rw [hv]
    cases exec_endsAlike hi (sameOperands_of_record hread s r) ht hv <;> rfl

end Sys2Proof.Machine
end

section
/-! The error matrix (R203). That no operation ends with an error outside its column is `exec_error_mem_errorColumn`;
here is a state for each filled cell. -/

namespace Sys2Proof.Machine

/-! ## A state for each filled cell -/

/-- A station that the gate rejects with an error of its column. -/
def rejectedStation : Err → Station
  | .ssidOutOfRange => ⟨[0x41], 16⟩
  | .callSignTooLong => ⟨List.replicate 7 0x41, 0⟩
  | _ => ⟨[], 0⟩

/-- A chain whose destination is a given station. -/
def chainTo (v : Station) : AddressChain := ⟨⟨v, false, false⟩, ⟨⟨[0x42], 0⟩, false, true⟩, []⟩

/-- The octets of a field of the station `A`, with a given SSID octet. -/
def fieldOctets (a6 : Byte) : List Byte := [0x82, 0x40, 0x40, 0x40, 0x40, 0x40, a6]

/-- A kind and a payload that `PL.CHECK` rejects with an error of its column. -/
def rejectedPayload : Err → FrameKind × List Byte
  | .missingProtocolId => (.i 0 0 false, [])
  | .invalidFrmrLength => (.u .frmr false, [])
  | _ => (.u .ua false, [0x00])

/-- Fifteen octets or more that `FRAME.DECODE` rejects, under modulo-128, with an error of its column; fewer for
`FrameTooShort`. -/
def rejectedFrame : Err → List Byte
  | .frameTooShort => []
  | .invalidCharacters => List.replicate 15 0x40
  | .truncatedAddressChain => fieldOctets 0x00 ++ fieldOctets 0x00 ++ [0x00]
  | .addressChainTooShort => fieldOctets 0x01 ++ fieldOctets 0x01 ++ [0x00]
  | .shortControlField => fieldOctets 0x00 ++ fieldOctets 0x01 ++ [0x00]
  | .unknownModifier => fieldOctets 0x00 ++ fieldOctets 0x01 ++ [0xFF]
  | .missingProtocolId => fieldOctets 0x00 ++ fieldOctets 0x01 ++ [0x03]
  | .invalidFrmrLength => fieldOctets 0x00 ++ fieldOctets 0x01 ++ [0x87]
  | _ => fieldOctets 0x00 ++ fieldOctets 0x01 ++ [0x63, 0x00]

/-- A frame that `FRAME.ENCODE` rejects, under modulo-8, with an error of its column. -/
def rejectedFrameOperand : Err → Frame
  | .sequenceNumberOutOfRange => ⟨chainTo ⟨[0x41], 0⟩, .i 8 0 false, []⟩
  | .ssidOutOfRange => ⟨chainTo (rejectedStation .ssidOutOfRange), .u .ua false, []⟩
  | .callSignTooLong => ⟨chainTo (rejectedStation .callSignTooLong), .u .ua false, []⟩
  | .invalidCharacters => ⟨chainTo (rejectedStation .invalidCharacters), .u .ua false, []⟩
  | e => ⟨chainTo ⟨[0x41], 0⟩, (rejectedPayload e).1, (rejectedPayload e).2⟩

/-- A state from which an operation ends with an error of its column. -/
def rejectedState (e : Err) : Instr → State
  | .csCreate | .csEncode | .afEncode => hostWriteStation (rejectedStation e) State.reset
  | .csDecode | .afDecode =>
    hostWriteInput (if e = .wrongFieldLength then [] else List.replicate 7 0x40) State.reset
  | .acDecode => hostWriteInput (if e = .truncatedAddressChain then [] else rejectedFrame e) State.reset
  | .acEncode => hostWriteChain (chainTo (rejectedStation e)) State.reset
  | .ctlDecode => hostWriteInput (if e = .shortControlField then [] else [0xFF]) State.reset
  | .ctlEncode => hostWriteMod .m8 (hostWriteKind (.i 8 0 false) State.reset)
  | .plCheck => hostWriteKind (rejectedPayload e).1 (hostWriteInput (rejectedPayload e).2 State.reset)
  | .frameDecode => hostWriteMod .m128 (hostWriteInput (rejectedFrame e) State.reset)
  | .frameEncode => hostWriteMod .m8 (hostWriteFrame (rejectedFrameOperand e) State.reset)
  | _ => State.reset

/-! ## The matrix -/

/-- Whether an instruction ends with an error. -/
def endsWith (i : Instr) (s : State) (e : Err) : Bool :=
  match exec i s with
  | .next t => t.status == .error e
  | _ => false

theorem exists_of_endsWith {i : Instr} {s : State} {e : Err} (h : endsWith i s e = true) :
    ∃ t, exec i s = .next t ∧ t.status = .error e := by
  obtain ⟨t, ht⟩ := exec_next i s
  exact ⟨t, ht, by simpa [endsWith, ht] using h⟩

theorem rejectedState_endsWith :
    ∀ i ∈ operations, ∀ e ∈ errorColumn i, endsWith i (rejectedState e i) e = true := by decide +kernel

/-- Settles O16: a filled cell by its state, a blank one because no instruction leaves its column. -/
theorem errorMatrixIsExact : Obligations.ErrorMatrixIsExact := by
  intro i hi e
  refine ⟨fun he => ⟨_, exists_of_endsWith (rejectedState_endsWith i hi e he)⟩, ?_⟩
  rintro ⟨s, t, ht, he⟩
  exact exec_error_mem_errorColumn ht he

end Sys2Proof.Machine
end

section
/-! `CTL.DECODE` in octet terms (R55 to R61, R123 to R141): each layout's fields are bits of the octets that stand in
the buffer. -/

namespace Sys2Proof.Machine

/-- `CTL.DECODE` delivers the kind that the buffer begins with. -/
theorem exec_ctlDecode_of_reads {s : State} {k : FrameKind} {n : Nat} (h : ControlReads s.mod (inputOctets s) k n) :
    exec .ctlDecode s = .next { s with status := .ok, orec := .kind k, consumed := n } := by
  rw [exec_ctlDecode, finish_of_ok h.ctlDecode_eq]
  rfl

theorem and_one_eq_zero_iff : ∀ c : Byte, c &&& 0b01#8 = 0b00#8 ↔ c.getLsbD 0 = false := by decide +kernel

/-- Seven bits above bit 0 are the octet shifted by one. -/
theorem septet_toNat : ∀ c : Byte, (c.extractLsb' 1 7).toNat = (c >>> 1).toNat := by decide +kernel

/-- Settles O21: the two I layouts. -/
theorem informationControlFieldsDecode : Obligations.InformationControlFieldsDecode := by
  constructor
  · intro s hmod hlen hbit
    have hreads : ControlReads s.mod (inputOctets s) (decodeI8 (Memory.read s.ibuf 0)) 1 := by
      rw [hmod, inputOctets_cons hlen]
      exact .i8 ((and_one_eq_zero_iff _).mpr hbit) _
    rw [exec_ctlDecode_of_reads hreads, information_fields]
  · intro s hmod hlen hbit
    have hreads : ControlReads s.mod (inputOctets s)
        (decodeI128 (controlWord (Memory.read s.ibuf 0) (Memory.read s.ibuf 1))) 2 := by
      rw [hmod, inputOctets_cons_cons hlen]
      exact .i128 ((and_one_eq_zero_iff _).mpr hbit) _ _
    rw [exec_ctlDecode_of_reads hreads, decodeI128_controlWord, septet_toNat, septet_toNat]

/-- Settles O22: the two S layouts; the row of R61 is the function's number. -/
theorem supervisoryControlFieldsDecode : Obligations.SupervisoryControlFieldsDecode := by
  intro fn func hfunc
  have hrow : ∀ row ∈ [(0, SFunction.rr), (1, .rnr), (2, .rej), (3, .srej)],
      ∃ f : Fin 4, row = (f.val, sFunctionOf (BitVec.ofNat 8 f.val)) := by decide
  obtain ⟨f, hf⟩ := hrow _ hfunc
  obtain ⟨rfl, rfl⟩ : func = f.val ∧ fn = sFunctionOf (BitVec.ofNat 8 f.val) := by simpa using hf
  constructor
  · intro s hmod hlen hlow
    obtain ⟨-, hs, hkind, -⟩ := supervisory_fields f _ hlow
    have hreads : ControlReads s.mod (inputOctets s) (decodeS8 (Memory.read s.ibuf 0)) 1 := by
      rw [hmod, inputOctets_cons hlen]
      exact .s8 hs _
    rw [exec_ctlDecode_of_reads hreads, hkind]
  · intro s hmod hlen hlow
    obtain ⟨-, hs, -, hfunction⟩ := supervisory_fields f _ hlow
    have hreads : ControlReads s.mod (inputOctets s)
        (decodeS128 (controlWord (Memory.read s.ibuf 0) (Memory.read s.ibuf 1))) 2 := by
      rw [hmod, inputOctets_cons_cons hlen]
      exact .s128 hs _ _
    rw [exec_ctlDecode_of_reads hreads, decodeS128_controlWord, hfunction, septet_toNat]

/-! ## U control fields (R60, R144) -/

/-- The octets of each modifier with bit 4 clear and set (R60). -/
def unnumberedOctets : List (UModifier × Byte × Byte) :=
  [(.sabme, 0x6F#8, 0x7F#8), (.sabm, 0x2F#8, 0x3F#8), (.disc, 0x43#8, 0x53#8), (.dm, 0x0F#8, 0x1F#8),
    (.ua, 0x63#8, 0x73#8), (.frmr, 0x87#8, 0x97#8), (.ui, 0x03#8, 0x13#8), (.xid, 0xAF#8, 0xBF#8),
    (.test, 0xE3#8, 0xF3#8)]

theorem encodeUFrame_of_mem_unnumberedOctets : ∀ row ∈ unnumberedOctets, ∀ p : Bool,
    encodeUFrame row.1 p = [if p then row.2.2 else row.2.1] := by decide

/-- Settles O23: each octet is the encoding of its modifier and poll/final bit, which decodes to them under either
modulo. -/
theorem unnumberedControlFieldsDecode : Obligations.UnnumberedControlFieldsDecode := by
  intro m p0 p1 hrow p s hlen hoctet
  obtain ⟨a, ha, hdecode⟩ := ctlDecode_ctlEncode (mo := s.mod) (k := .u m p) rfl
  obtain rfl : [if p then p1 else p0] = a := by
    rw [← encodeUFrame_of_mem_unnumberedOctets _ hrow p]
    exact Except.ok.inj ha
  refine exec_ctlDecode_of_reads (ctlDecode_ok_iff.mp ?_)
  rw [inputOctets_cons hlen, hoctet]
  exact hdecode _

/-- A U control field decodes the same under either modulo. -/
theorem ctlDecode_u_modulo {c0 : Byte} (h : c0 &&& 0b11#8 = 0b11#8) (mo mo' : Modulo) (rest : List Byte) :
    ctlDecode mo (c0 :: rest) = ctlDecode mo' (c0 :: rest) := by
  rw [ctlDecode_u h, ctlDecode_u h]

/-- Settles O29: the codecs give the same under either modulo, so the operations end alike, and neither ending
touches `MOD`. -/
theorem unnumberedControlFieldsIgnoreModulo : Obligations.UnnumberedControlFieldsIgnoreModulo := by
  constructor
  · intro s t hlen hu ht
    obtain ⟨v, hv⟩ := exec_next .ctlDecode { s with mod := .m128 }
    have hcodec : ctlDecode .m8 (inputOctets s) = ctlDecode .m128 (inputOctets s) := by
      rw [inputOctets_cons hlen, ctlDecode_u_modulo hu .m8 .m128]
    rw [hv]
    cases EndsAlike.of_finish (i := .ctlDecode) ht hv hcodec (fun _ => .consumed _ _ (by decide)) <;> rfl
  · intro s t m p hk ht
    obtain ⟨v, hv⟩ := exec_next .ctlEncode { s with mod := .m128 }
    have hcodec : ctlEncode .m8 s.irec.kind = ctlEncode .m128 s.irec.kind := by rw [hk]; rfl
    rw [hv]
    cases EndsAlike.of_finish (i := .ctlEncode) ht hv hcodec (fun _ => .octets _ (by decide) (by decide)) <;> rfl

theorem inputOctets_drop_cons {s : State} {off : Nat} (h : off < s.ilen) :
    (inputOctets s).drop off = Memory.read s.ibuf off :: Memory.octets s.ibuf (off + 1) (s.ilen - off - 1) := by
  obtain ⟨n, hn⟩ : ∃ n, s.ilen - off = n + 1 := ⟨s.ilen - off - 1, by omega⟩
  rw [inputOctets, Memory.drop_octets, Nat.zero_add, hn]
  rfl

/-- `FRAME.DECODE` of a U frame is the same under either modulo. -/
theorem frameDecode_u_modulo {b rest : List Byte} {c : AddressChain} {off : Nat} {c0 : Byte}
    (hc : acDecode b = .ok (c, off)) (hrest : b.drop off = c0 :: rest) (hu : c0 &&& 0b11#8 = 0b11#8)
    (mo mo' : Modulo) : frameDecode mo b = frameDecode mo' b := by
  rw [frameDecode, frameDecode, hc]
  simp only [hrest, ctlDecode_u_modulo hu mo mo']

/-- Settles O53: the control octet is the first after the chain. -/
theorem unnumberedFramesAreImmuneToModulo : Obligations.UnnumberedFramesAreImmuneToModulo := by
  intro s a t ha hok hlt hu ht
  obtain ⟨⟨c, off⟩, hc, rfl⟩ := finish_status_ok (exec_acDecode s ▸ ha) hok
  rw [deliverConsumed_consumed] at hlt hu
  obtain ⟨v, hv⟩ := exec_next .frameDecode { s with mod := .m128 }
  have hcodec := frameDecode_u_modulo hc (inputOctets_drop_cons hlt) hu .m8 .m128
  rw [hv]
  cases EndsAlike.of_finish (i := .frameDecode) ht hv hcodec (fun _ => .record _ (by decide) (by decide)) <;> rfl

end Sys2Proof.Machine
end

section
/-! Stations and fields decoded from the buffer (R83, R100): what stands in seven octets is what is delivered, and the
characters are rejected exactly where none or an illegal one stands. -/

namespace Sys2Proof.Machine

theorem inputOctets_seven {s : State} (h : s.ilen = 7) : inputOctets s = Memory.octets s.ibuf 0 7 := by
  rw [inputOctets, h]

/-! ## What stands in the buffer -/

/-- Settles O32: the station that stands in the seven octets. -/
theorem stationDecodeIgnoresUnreadBits : Obligations.StationDecodeIgnoresUnreadBits := by
  intro s v hv hlen hchars hssid
  have hdecode : csDecode (inputOctets s) = .ok v := by
    rw [inputOctets_seven hlen]
    exact csDecode_octets hv hchars (by rwa [Nat.zero_add])
  rw [exec_csDecode, finish_of_ok hdecode]
  rfl

/-- Settles O34: the field that stands in the seven octets. -/
theorem fieldDecodeReadsTheField : Obligations.FieldDecodeReadsTheField := by
  intro s f hv hlen hfield
  have hdecode : afDecode (inputOctets s) = .ok f := by
    rw [inputOctets_seven hlen, afDecode_octets hv hfield]
  rw [exec_afDecode, finish_of_ok hdecode]
  rfl

/-! ## Rejected characters (R183) -/

theorem csDecode_inputOctets_invalid_iff (s : State) :
    csDecode (inputOctets s) = .error .invalidCharacters ↔ s.ilen = 7 ∧ illegalAt s.ibuf 0 := by
  by_cases hlen : s.ilen = 7
  · rw [inputOctets_seven hlen, csDecode_octets_invalid_iff, and_iff_right hlen]
  · simp only [hlen, false_and, iff_false]
    exact fun h => hlen (inputOctets_length s ▸ (csDecode_invalid_iff.mp h).1)

theorem afDecode_inputOctets_invalid_iff (s : State) :
    afDecode (inputOctets s) = .error .invalidCharacters ↔ s.ilen = 7 ∧ illegalAt s.ibuf 0 := by
  rw [← csDecode_inputOctets_invalid_iff]
  by_cases hlen : (inputOctets s).length = 7
  · exact afDecode_invalid_iff hlen
  · simp [afDecode_wrongFieldLength_iff.mpr hlen, csDecode_wrongFieldLength_iff.mpr hlen]

/-- A chain is rejected for its characters exactly where its loop is. -/
theorem acDecode_invalidCharacters_iff_acGroups {b : List Byte} :
    acDecode b = .error .invalidCharacters ↔ acGroups (b.length + 1) b = .error .invalidCharacters := by
  rcases acDecode_cases b with ⟨c, n, hd, hg⟩ | ⟨f, n, hd, hg⟩ | ⟨e, hd, hg⟩ <;> simp [hd, hg]

theorem acDecode_invalidCharacters_iff {b : List Byte} :
    acDecode b = .error .invalidCharacters ↔
      ∃ n, 7 * n + 7 ≤ b.length ∧ afDecode ((b.drop (7 * n)).take 7) = .error .invalidCharacters ∧
        ∀ j < n, ∃ f, afDecode ((b.drop (7 * j)).take 7) = .ok f ∧ f.continuationBit = false := by
  rw [acDecode_invalidCharacters_iff_acGroups]
  constructor
  · intro h
    obtain ⟨n, hall, -, ⟨he, -⟩ | ⟨hle, he⟩⟩ := acGroups_error (Nat.lt_succ_self _) h
    · cases he
    · exact ⟨n, hle, he, hall⟩
  · rintro ⟨n, hle, he, hall⟩
    exact acGroups_bad_group n _ b _ (by omega) hle hall he

/-- Settles O33: the groups of the chain are octets of the buffer, each read as a field is. -/
theorem decodesRejectIllegalCharactersExactly : Obligations.DecodesRejectIllegalCharactersExactly := by
  constructor
  · rintro i s t (rfl | rfl) ht
    · rw [exec_csDecode_status_error_iff ht, csDecode_inputOctets_invalid_iff]
    · rw [exec_afDecode_status_error_iff ht, afDecode_inputOctets_invalid_iff]
  · intro s t ht
    rw [exec_acDecode_status_error_iff ht, acDecode_invalidCharacters_iff, inputOctets_length]
    refine exists_congr fun n => and_congr_right fun hle => and_congr ?_ (forall₂_congr fun j hj => ?_)
    · rw [inputOctets_group s n hle, afDecode_invalid_iff (Memory.octets_length _ _ _), csDecode_octets_invalid_iff]
    · rw [inputOctets_group s j (by omega), afDecode_octets_clear_iff]

end Sys2Proof.Machine
end

section
/-! Stations and fields encoded (R84, R101): the seven octets stored, and the gate's errors. -/

namespace Sys2Proof.Machine

/-- The seven octets of a field inside the octets delivered stand in the output buffer. -/
theorem storedField_deliverOctets {s : State} {a : List Byte} {off : Nat} {v : Station} {flag cont : Bool}
    (hobuf : Memory.wf s.obuf = true) (hv : v.Valid) (hlen : off + 7 ≤ a.length)
    (ha : (a.drop off).take 7 = setFieldBits (packStation v) flag cont) :
    storedField (deliverOctets a s).obuf off v.callSign v.ssid flag cont := by
  refine storedField_of_octets hv flag cont ?_
  have hout := Memory.octets_writeOctets 0 a hobuf
  rw [← ha, deliverOctets_obuf]
  conv_rhs => rw [← hout]
  rw [Memory.drop_octets, Nat.zero_add, Memory.take_octets _ 7 off _ (by omega)]

/-- A field delivered alone. -/
theorem storedField_deliverOctets_zero {s : State} {v : Station} (hobuf : Memory.wf s.obuf = true) (hv : v.Valid)
    (flag cont : Bool) :
    storedField (deliverOctets (setFieldBits (packStation v) flag cont) s).obuf 0 v.callSign v.ssid flag cont := by
  have hlen := setFieldBits_length hv.2.1 flag cont
  exact storedField_deliverOctets hobuf hv hlen.ge (List.take_of_length_le hlen.le)

/-- `CS.ENCODE` ends with the error of the gate. -/
theorem exec_csEncode_status_error_iff {s t : State} {e : Err} (ht : exec .csEncode s = .next t) :
    t.status = .error e ↔ csCreate s.irec.station = .error e :=
  (finish_status_error_iff (fun _ => rfl) (exec_csEncode s ▸ ht)).trans csEncode_error

/-- `AF.ENCODE` ends with the error of the gate. -/
theorem exec_afEncode_status_error_iff {s t : State} {e : Err} (ht : exec .afEncode s = .next t) :
    t.status = .error e ↔ csCreate s.irec.station = .error e :=
  (finish_status_error_iff (fun _ => rfl) (exec_afEncode s ▸ ht)).trans afEncode_error

/-- Settles O36: a station is a field with both bits 0. -/
theorem stationEncodeStoresSevenOctets : Obligations.StationEncodeStoresSevenOctets := by
  constructor
  · intro s ⟨_, hobuf, _⟩ hacc
    have hgate := csCreate_of_acceptable hacc
    have hvalid := csCreate_valid hgate
    refine ⟨_, by rw [exec_csEncode, finish_of_ok (csEncode_ok_iff.mpr ⟨_, hgate, rfl⟩)], rfl, ?_, ?_⟩
    · rw [deliverOctets_olen, packStation_length hvalid.2.1]
    · rw [← setFieldBits_false hvalid]
      exact storedField_deliverOctets_zero hobuf hvalid false false
  · intro s u t v e hu ht hv
    rw [exec_csEncode_status_error_iff ht, exec_csCreate_status_error_iff hv, hu]
    exact ⟨Iff.rfl, Iff.rfl⟩

/-- Settles O37: the two bits are the operand's. -/
theorem fieldEncodeStoresSevenOctets : Obligations.FieldEncodeStoresSevenOctets := by
  constructor
  · intro s ⟨_, hobuf, _⟩ hacc
    have hgate := csCreate_of_acceptable hacc
    have hvalid := csCreate_valid hgate
    refine ⟨_, by rw [exec_afEncode, finish_of_ok (afEncode_ok_iff.mpr ⟨_, hgate, rfl⟩)], rfl, ?_,
      storedField_deliverOctets_zero hobuf hvalid _ _⟩
    rw [deliverOctets_olen, setFieldBits_length hvalid.2.1]
  · intro s u t v e hu ht hv
    rw [exec_afEncode_status_error_iff ht, exec_csCreate_status_error_iff hv, hu]
    exact ⟨Iff.rfl, Iff.rfl⟩

end Sys2Proof.Machine
end

section
/-! What a decoded station says of its octets (R83, R85): the padded callsign is the folded characters, so encoding it
again gives each octet back exactly where the bits not looked at are clear and nothing was folded. -/

namespace Sys2Proof.Machine

/-! ## Trimming loses only pads -/

theorem trimPad_append_pads : ∀ l : List Byte,
    trimPad l ++ List.replicate (l.length - (trimPad l).length) padChar = l
  | [] => rfl
  | c :: cs => by
    have ih := trimPad_append_pads cs
    rw [trimPad]
    cases h : trimPad cs with
    | nil =>
      have hpads : List.replicate cs.length padChar = cs := by simpa [h] using ih
      by_cases hc : c = padChar
      · simp [hc, List.replicate_succ, hpads]
      · simp [hc, hpads]
    | cons d ds => simpa [h] using ih

theorem padded_trimPad {l : List Byte} (hl : l.length = 6) : padded (trimPad l) = l := by
  rw [padded, ← hl, trimPad_append_pads]

/-- A character that is left stands where it stood. -/
theorem getElem?_of_getElem?_trimPad {l : List Byte} {i : Nat} {c : Byte} (h : (trimPad l)[i]? = some c) :
    l[i]? = some c := by
  obtain ⟨hi, -⟩ := List.getElem?_eq_some_iff.mp h
  rw [← trimPad_append_pads l, List.getElem?_append_left hi, h]

/-! ## The decoded station -/

/-- What `CS.DECODE` gives, in terms of its octets (R83). -/
theorem csDecode_ok_fields {b : List Byte} {v : Station} (h : csDecode b = .ok v) :
    b.length = 7 ∧ v.callSign = trimPad (((b.take 6).map charOf).map upcase) ∧
      v.ssid = (ssidOf (b.getD 6 0)).toNat := by
  rw [csDecode] at h
  split_ifs at h with hlen
  obtain ⟨-, -, -, -, rfl⟩ := csCreate_ok_iff.mp h
  exact ⟨not_not.mp hlen, map_upcase_trimPad _, rfl⟩

/-- The octets of a decoded station: its folded characters and its SSID, every bit not looked at 0. -/
theorem packStation_of_csDecode {b : List Byte} {v : Station} (h : csDecode b = .ok v) :
    packStation v = (b.take 6).map (fun c => upcase (charOf c) <<< 1) ++
      [BitVec.ofNat 8 (ssidOf (b.getD 6 0)).toNat <<< 1] := by
  obtain ⟨hlen, hcall, hssid⟩ := csDecode_ok_fields h
  rw [packStation, hcall, hssid, padded_trimPad (by simp [hlen]), List.map_map, List.map_map]
  rfl

/-! ## Octets that come back -/

theorem char_octet_comes_back_iff : ∀ c : Byte, upcase (charOf c) <<< 1 = c ↔
    c.getLsbD 0 = false ∧ ¬ (0x61 ≤ (c >>> 1).toNat ∧ (c >>> 1).toNat ≤ 0x7A) := by decide +kernel

theorem ssid_octet_comes_back_iff : ∀ c : Byte, BitVec.ofNat 8 (ssidOf c).toNat <<< 1 = c ↔
    c.getLsbD 0 = false ∧ c &&& 0b1110_0000#8 = 0#8 := by decide +kernel

/-- Seven octets come back exactly where each does. -/
theorem packStation_eq_octets_iff {m : Memory} {v : Station} (h : csDecode (Memory.octets m 0 7) = .ok v) :
    packStation v = Memory.octets m 0 7 ↔
      (∀ i < 7, (Memory.read m i).getLsbD 0 = false) ∧ Memory.read m 6 &&& 0b1110_0000#8 = 0#8 ∧
        ∀ i < 6, ¬ (0x61 ≤ (Memory.read m i >>> 1).toNat ∧ (Memory.read m i >>> 1).toNat ≤ 0x7A) := by
  have hoctets : packStation v = Memory.octets m 0 7 ↔
      (∀ i < 6, upcase (charOf (Memory.read m i)) <<< 1 = Memory.read m i) ∧
        BitVec.ofNat 8 (ssidOf (Memory.read m 6)).toNat <<< 1 = Memory.read m 6 := by
    rw [packStation_of_csDecode h, octets_seven]
    simp only [List.take, List.map, List.cons_append, List.nil_append, List.cons.injEq, and_true, Nat.zero_add]
    constructor
    · rintro ⟨h0, h1, h2, h3, h4, h5, h6⟩
      exact ⟨fun i hi => by interval_cases i <;> assumption, h6⟩
    · rintro ⟨hc, h6⟩
      exact ⟨hc 0 (by omega), hc 1 (by omega), hc 2 (by omega), hc 3 (by omega), hc 4 (by omega),
        hc 5 (by omega), h6⟩
  simp only [hoctets, char_octet_comes_back_iff, ssid_octet_comes_back_iff, forall_and,
    Nat.forall_lt_succ_right (n := 6)]
  tauto

/-! ## The operations -/

/-- Settles O38: the round trip is the field codec's, with both bits 0. -/
theorem stationRoundTrip : Obligations.StationRoundTrip := by
  constructor
  · intro s ⟨_, hobuf, _⟩ hv
    have hencode : csEncode s.irec.station = .ok (packStation s.irec.station) :=
      csEncode_ok_iff.mpr ⟨_, csCreate_of_valid hv, rfl⟩
    refine ⟨_, by rw [exec_csEncode, finish_of_ok hencode], rfl, fun u hinput => ?_⟩
    have hdecode : csDecode (inputOctets u) = .ok s.irec.station := by
      have hfield := afDecode_setFieldBits hv false false
      rw [setFieldBits_false hv] at hfield
      rw [hinput, outputOctets_deliverOctets _ hobuf]
      exact (afDecode_ok_iff.mp hfield).2.1
    rw [exec_csDecode, finish_of_ok hdecode]
    rfl
  · rintro s t u v ht hok hv ⟨_, hobuf, _⟩ rfl
    obtain ⟨w, hdecode, rfl⟩ := finish_status_ok (exec_csDecode s ▸ ht) hok
    obtain rfl : w = u.irec.station := by simpa using hv
    have hencode : csEncode u.irec.station = .ok (packStation u.irec.station) :=
      csEncode_ok_iff.mpr ⟨_, csCreate_of_valid (csDecode_valid hdecode), rfl⟩
    refine ⟨_, by rw [exec_csEncode, finish_of_ok hencode], rfl, ?_⟩
    have hlen : s.ilen = 7 := inputOctets_length s ▸ (csDecode_ok_fields hdecode).1
    rw [inputOctets_seven hlen] at hdecode ⊢
    rw [outputOctets_deliverOctets _ hobuf, packStation_eq_octets_iff hdecode]

theorem charOf_eq_octetField : ∀ c : Byte, charOf c = BitVec.ofNat 8 (octetField c 1 7) := by decide +kernel

/-- Settles O39: the rows' bit fields are the masks of `AF.DECODE`. -/
theorem fieldDecodeAgreesWithItsOctetRows : Obligations.FieldDecodeAgreesWithItsOctetRows := by
  intro s t f ht hok hf
  obtain ⟨g, hdecode, rfl⟩ := finish_status_ok (exec_afDecode s ▸ ht) hok
  obtain rfl : g = f := by simpa using hf
  obtain ⟨hlen, hstation, hflag, hcont⟩ := afDecode_ok_iff.mp hdecode
  rw [inputOctets_seven (inputOctets_length s ▸ hlen)] at hstation hflag hcont
  obtain ⟨-, hcall, hssid⟩ := csDecode_ok_fields hstation
  constructor
  · rw [hflag, hcont, hssid, flagBitOf_eq, continuationBitOf_eq, ssidOf_toNat]
    rfl
  · intro i c hc
    rw [hcall] at hc
    have hchar := getElem?_of_getElem?_trimPad hc
    have hi : i < 6 := by
      obtain ⟨hi, -⟩ := List.getElem?_eq_some_iff.mp hchar
      simpa using hi
    refine ⟨octetField (Memory.read s.ibuf i) 1 7, rfl, ?_⟩
    rw [← charOf_eq_octetField]
    have hget : (Memory.octets s.ibuf 0 7)[i]? = some (Memory.read s.ibuf i) := by
      rw [List.getElem?_eq_getElem (by simp; omega), Memory.getElem_octets, Nat.zero_add]
    rw [List.getElem?_map, List.getElem?_map, List.getElem?_take_of_lt hi, hget] at hchar
    exact (Option.some.inj hchar).symm

end Sys2Proof.Machine
end

section
/-! Chains encoded (R103, R104): the octets stored for each entry, and the first entry that fails the gate. -/

namespace Sys2Proof.Machine

/-! ## The octets of a chain -/

/-- What the encode loop gives takes seven octets an entry. -/
theorem acEncode_length {c : AddressChain} {a : List Byte} (h : acEncode c = .ok a) :
    a.length = 7 * c.entries.length := by
  obtain ⟨hok, hvalid⟩ := acEntries_of_acceptable ((acEntries_ok_iff c.entries).mp ⟨a, h⟩)
  obtain rfl : forcedOctets (c.entries.map foldField) = a := Except.ok.inj (hok.symm.trans h)
  rw [forcedOctets_length hvalid, List.length_map]

theorem sameChain_iff (c d : AddressChain) : sameChain c d = true ↔
    c.entries.length = d.entries.length ∧
      ∀ (j : Nat) (f g : AddressField), c.entries[j]? = some f → d.entries[j]? = some g →
        f.station.callSign = g.station.callSign ∧ f.station.ssid = g.station.ssid ∧ f.flagBit = g.flagBit := by
  have hstation : ∀ v w : Station, v = w ↔ v.callSign = w.callSign ∧ v.ssid = w.ssid := by
    rintro ⟨_, _⟩ ⟨_, _⟩
    simp
  simp only [sameChain, sameEntries_iff, hstation, and_assoc]

/-- Settles O44: the loop's octets are stored group by group; equal chains have equal codec results. -/
theorem chainEncodeForcesContinuationBits : Obligations.ChainEncodeForcesContinuationBits := by
  refine ⟨fun s ⟨_, hobuf, _⟩ hacc => ?_, sameChain_iff, fun s u t v ⟨_, hs, _⟩ ⟨_, hu, _⟩ hsame ht hv => ?_⟩
  · obtain ⟨hok, hvalid⟩ := acEntries_of_acceptable hacc
    have hlen := acEncode_length hok
    refine ⟨_, by rw [exec_acEncode, acEncode, finish_of_ok hok], rfl, by rw [deliverOctets_olen, hlen],
      fun j f hf => ?_⟩
    obtain ⟨hj, rfl⟩ := List.getElem?_eq_some_iff.mp hf
    have hgroup := forcedOctets_group hvalid j (by simpa using hj)
    simp only [List.getElem_map, List.length_map] at hgroup
    exact storedField_deliverOctets hobuf (csCreate_valid (csCreate_of_acceptable (hacc _ (List.getElem_mem hj))))
      (by omega) hgroup
  · have hends : EndsAlike .acEncode s u t v :=
      .of_finish (exec_acEncode s ▸ ht) (exec_acEncode u ▸ hv) (acEncode_same hsame)
        fun _ => .octets _ (by decide) (by decide)
    obtain ⟨hstatus, hresults⟩ := hends.results_eq hs hu
    exact ⟨hstatus, fun hok => ((hresults hok).2.1 (by decide)).2⟩

/-! ## The first gate error -/

/-- The loop ends with the error of the entry that it stops at. -/
theorem acEntries_of_first_error {e : Err} : ∀ {fs : List AddressField} {j : Nat} {f : AddressField},
    fs[j]? = some f → csCreate f.station = .error e →
    (∀ k < j, ∀ g, fs[k]? = some g → g.station.Acceptable) → acEntries fs = .error e
  | g :: fs, 0, f, hf, he, _ => by
    obtain rfl : g = f := by simpa using hf
    rw [acEntries, afEncode_error (f := ⟨g.station, g.flagBit, fs.isEmpty⟩) |>.mpr he]
  | g :: fs, j + 1, f, hf, he, hacc => by
    have hgate := csCreate_of_acceptable (hacc 0 (Nat.succ_pos j) g rfl)
    have hrec := acEntries_of_first_error (fs := fs) (by simpa using hf) he
      fun k hk g hg => hacc (k + 1) (Nat.succ_lt_succ hk) g (by simpa using hg)
    rw [acEntries, afEncode_ok_iff (f := ⟨g.station, g.flagBit, fs.isEmpty⟩) |>.mpr ⟨_, hgate, rfl⟩, hrec]

theorem acEntries_error_iff {fs : List AddressField} {e : Err} : acEntries fs = .error e ↔
    ∃ (j : Nat) (f : AddressField), fs[j]? = some f ∧ csCreate f.station = .error e ∧
      ∀ k < j, ∀ g, fs[k]? = some g → g.station.Acceptable := by
  constructor
  · intro h
    obtain ⟨j, hj, he, hacc⟩ := acEntries_error h
    refine ⟨j, fs[j], List.getElem?_eq_getElem hj, he, fun k hk g hg => ?_⟩
    obtain ⟨_, rfl⟩ := List.getElem?_eq_some_iff.mp hg
    exact (csCreate_ok_iff_acceptable _).mp (hacc k hk)
  · rintro ⟨j, f, hf, he, hacc⟩
    exact acEntries_of_first_error hf he hacc

/-- Settles O45: `AC.ENCODE` ends with the error of its loop. -/
theorem chainEncodeReportsTheFirstGateError : Obligations.ChainEncodeReportsTheFirstGateError := by
  intro s t e ht
  rw [finish_status_error_iff (fun _ => rfl) (exec_acEncode s ▸ ht), acEncode, acEntries_error_iff]

end Sys2Proof.Machine
end

section
/-! Payloads and the stages of the whole-frame operations (R161, R163, R164): the first stage that ends in an error
gives its error, and otherwise the results are put together. -/

namespace Sys2Proof.Machine

/-! ## `PL.CHECK` -/

/-- Settles O46: each alternative is a payload class and a length it allows. -/
theorem payloadCheckPassesWhatFits : Obligations.PayloadCheckPassesWhatFits := by
  intro s ⟨_, hobuf, _⟩ hcase
  have hfits : payloadFits s.irec.kind (inputOctets s) = true := by
    rcases hcase with ⟨hk, hlen⟩ | ⟨p, hk | hk⟩ | ⟨hk, hlen⟩ | ⟨hk, hlen⟩
    · simpa [payloadFits, payloadClass_eq_pidInfo_iff.mpr hk] using hlen
    · simp [payloadFits, payloadClass, hk]
    · simp [payloadFits, payloadClass, hk]
    · simpa [payloadFits, payloadClass_eq_fixed3_iff.mpr hk] using hlen
    · simpa [payloadFits, payloadClass_eq_none_iff.mpr hk, ← List.length_eq_zero_iff] using hlen
  exact ⟨_, by rw [exec_plCheck, finish_of_ok (plCheck_ok_iff.mpr ⟨hfits, rfl⟩)], rfl,
    by rw [deliverOctets_olen, inputOctets_length], outputOctets_deliverOctets _ hobuf⟩

/-! ## `FRAME.DECODE` -/

theorem frameDecode_of_acDecode_error {mo : Modulo} {b : List Byte} {e : Err} (hb : 15 ≤ b.length)
    (h : acDecode b = .error e) : frameDecode mo b = .error e := by
  rw [frameDecode, if_neg (Nat.not_lt.mpr hb), h]

theorem frameDecode_of_ctlDecode_error {mo : Modulo} {b : List Byte} {c : AddressChain} {off : Nat} {e : Err}
    (hb : 15 ≤ b.length) (hc : acDecode b = .ok (c, off)) (h : ctlDecode mo (b.drop off) = .error e) :
    frameDecode mo b = .error e := by
  simp only [frameDecode, if_neg (Nat.not_lt.mpr hb), hc, h]

theorem frameDecode_of_plCheck_error {mo : Modulo} {b : List Byte} {c : AddressChain} {k : FrameKind} {off n : Nat}
    {e : Err} (hb : 15 ≤ b.length) (hc : acDecode b = .ok (c, off)) (hk : ctlDecode mo (b.drop off) = .ok (k, n))
    (h : plCheck k ((b.drop off).drop n) = .error e) : frameDecode mo b = .error e := by
  rw [List.drop_drop] at h
  simp only [frameDecode, if_neg (Nat.not_lt.mpr hb), hc, hk, h]

/-- Settles O49: the stages by hand run the same codecs on the same octets. -/
theorem frameDecodeIsItsStages : Obligations.FrameDecodeIsItsStages := by
  intro s a hlen ha
  rw [← inputOctets_length] at hlen
  obtain ⟨v, hv⟩ := exec_next .frameDecode s
  have hstatus := fun e => (exec_frameDecode_status_error_iff (e := e) hv).mpr
  refine ⟨v, hv, fun hne => ?_, fun c d hok horec u b hmod hinput hb => ?_⟩
  · obtain ⟨e, he, hae⟩ := finish_status_ne_ok (fun _ => rfl) (exec_acDecode s ▸ ha) hne
    rw [hae, hstatus e (frameDecode_of_acDecode_error hlen he)]
  obtain ⟨⟨c', off⟩, hc, rfl⟩ := finish_status_ok (exec_acDecode s ▸ ha) hok
  obtain ⟨rfl, rfl⟩ : c' = c ∧ deriveChain c' = d := by simpa using horec
  rw [exec_ctlDecode, hmod, hinput] at hb
  refine ⟨fun hne => ?_, fun k hok horec w p hw hkind hrest hp => ?_⟩
  · obtain ⟨e, he, hbe⟩ := finish_status_ne_ok (fun _ => rfl) hb hne
    rw [hbe, hstatus e (frameDecode_of_ctlDecode_error hlen hc he)]
  obtain ⟨⟨k', n⟩, hk, rfl⟩ := finish_status_ok hb hok
  obtain rfl : k' = k := by simpa using horec
  rw [exec_plCheck, hkind, hrest, hinput] at hp
  refine ⟨fun hne => ?_, fun hok => ?_⟩
  · obtain ⟨e, he, hpe⟩ := finish_status_ne_ok (fun _ => rfl) hp hne
    rw [hpe, hstatus e (frameDecode_of_plCheck_error hlen hc hk he)]
  · obtain ⟨q, hq, rfl⟩ := finish_status_ok hp hok
    rw [exec_frameDecode, finish_of_ok (frameDecode_of_stages hlen hc hk hq)] at hv
    rw [outputOctets_deliverOctets q hw.2.1, ← Host.Outcome.next.inj hv]
    rfl

/-! ## `FRAME.ENCODE` -/

theorem frameEncode_of_acEncode_error {mo : Modulo} {f : Frame} {e : Err} (h : acEncode f.addresses = .error e) :
    frameEncode mo f = .error e := by
  rw [frameEncode, h]

theorem frameEncode_of_ctlEncode_error {mo : Modulo} {f : Frame} {a : List Byte} {e : Err}
    (ha : acEncode f.addresses = .ok a) (h : ctlEncode mo f.kind = .error e) : frameEncode mo f = .error e := by
  simp only [frameEncode, ha, h]

theorem frameEncode_of_plCheck_error {mo : Modulo} {f : Frame} {a c : List Byte} {e : Err}
    (ha : acEncode f.addresses = .ok a) (hc : ctlEncode mo f.kind = .ok c)
    (h : plCheck f.kind f.payload = .error e) : frameEncode mo f = .error e := by
  simp only [frameEncode, ha, hc, h]

theorem frameEncode_of_stages {mo : Modulo} {f : Frame} {a c p : List Byte} (ha : acEncode f.addresses = .ok a)
    (hc : ctlEncode mo f.kind = .ok c) (hp : plCheck f.kind f.payload = .ok p) :
    frameEncode mo f = .ok (a ++ c ++ p) := by
  simp only [frameEncode, ha, hc, hp]

/-- An encoded control field is at least one octet. -/
theorem ctlEncode_length_pos {mo : Modulo} {k : FrameKind} {a : List Byte} (h : ctlEncode mo k = .ok a) :
    1 ≤ a.length := by
  cases hk : k.inRange mo with
  | true =>
    obtain rfl : encode (rowOf mo k) = a := Except.ok.inj ((ctlEncode_eq_encode_rowOf hk).symm.trans h)
    exact encode_length_pos _
  | false => cases (ctlEncode_sequenceNumberOutOfRange_iff.mpr hk).symm.trans h

/-- Settles O50: the stages by hand run the same codecs on the same operands; two entries and a control field make the
fifteen octets. -/
theorem frameEncodeIsItsStages : Obligations.FrameEncodeIsItsStages := by
  intro s a b w p ⟨_, hs, _⟩ ⟨_, hw, _⟩ ha hb hkind hpayload hp
  rw [exec_plCheck, hkind, hpayload] at hp
  obtain ⟨v, hv⟩ := exec_next .frameEncode s
  have hstatus := fun e => (exec_frameEncode_status_error_iff (e := e) hv).mpr
  refine ⟨v, hv, fun hne => ?_, fun haok hne => ?_, fun haok hbok hne => ?_, fun haok hbok hpok => ?_⟩
  · obtain ⟨e, he, hae⟩ := finish_status_ne_ok (fun _ => rfl) (exec_acEncode s ▸ ha) hne
    rw [hae, hstatus e (frameEncode_of_acEncode_error he)]
  all_goals obtain ⟨x, hx, rfl⟩ := finish_status_ok (exec_acEncode s ▸ ha) haok
  · obtain ⟨e, he, hbe⟩ := finish_status_ne_ok (fun _ => rfl) (exec_ctlEncode s ▸ hb) hne
    rw [hbe, hstatus e (frameEncode_of_ctlEncode_error hx he)]
  all_goals obtain ⟨y, hy, rfl⟩ := finish_status_ok (exec_ctlEncode s ▸ hb) hbok
  · obtain ⟨e, he, hpe⟩ := finish_status_ne_ok (fun _ => rfl) hp hne
    rw [hpe, hstatus e (frameEncode_of_plCheck_error hx hy he)]
  · obtain ⟨z, hz, rfl⟩ := finish_status_ok hp hpok
    rw [exec_frameEncode, finish_of_ok (frameEncode_of_stages hx hy hz)] at hv
    obtain rfl := Host.Outcome.next.inj hv
    have hchain := acEncode_length hx
    have hentries := entries_length_ge s.irec.addresses
    have hcontrol := ctlEncode_length_pos hy
    simp only [deliverOctets_status, deliverOctets_olen, List.length_append, outputOctets_deliverOctets _ hs,
      outputOctets_deliverOctets _ hw, true_and, and_true]
    omega

end Sys2Proof.Machine
end
